-- ==== Sys2Proof/Word.lean ====
section
/-! DEFINITION. The word types of TCCORE (spec 00_scope.md section 5.1: a byte is 8 bits, a word 32, a dword 64, all unsigned),
and the fixed-size arrays the state and the engines are made of (rule R5 fixes every size). -/

namespace Sys2Proof

/-- An unsigned 8-bit value: the unit of the OPD, RES and RS ports. -/
abbrev Byte := BitVec 8

/-- An unsigned 32-bit value: the unit of the CMD and RSP ports and of SHA-256. -/
abbrev Word := BitVec 32

/-- An unsigned 64-bit value: the SHA-256 bit counter. -/
abbrev Dword := BitVec 64

/-- Four bytes: one column of the AES state, or one 32-bit word of a round key (R11). -/
abbrev Col := Vector Byte 4

/-- Sixteen bytes in linear (column-major) order: an AES block, an AES key, or a round key (R33). -/
abbrev Block := Vector Byte 16

/-- An AES key schedule: 11 round keys of 16 bytes, 176 bytes in all (R11). -/
abbrev KeySched := Vector Byte 176

/-- The eight words of a SHA-256 running hash (R15). -/
abbrev HashWords := Vector Word 8

/-- The 64-byte pending block of a SHA-256 slot (R15). -/
abbrev HashBlock := Vector Byte 64

end Sys2Proof
end

