-- ==== Sys2Proof/Machine/Primitives.lean ====
section
/-! DEFINITION. The pure functions of spec 40_primitives.md (rules R70 to R91): byte-field arithmetic, the substitution
tables, the rotations, the boolean mixing functions, the SHA-256 sigma functions and constants, and the endian and copy
utilities. None of them has state and none can fail. -/

namespace Sys2Proof.Machine

/-! ## Byte-field arithmetic (R72 to R74) -/

/-- XTIME (R72): doubling in GF(2^8) modulo x^8 + x^4 + x^3 + x + 1. -/
def xtime (a : Byte) : Byte :=
  if a.msb then (a <<< 1) ^^^ 0x1B#8 else a <<< 1

/-- One turn of GMUL's loop (R73), then the turns below it: `n` bits of `b` are left, bit 0 of `b` is the next one. -/
def gmulLoop : Nat → Byte → Byte → Byte → Byte
  | 0, _, _, p => p
  | n + 1, a, b, p => gmulLoop n (xtime a) (b >>> 1) (if b.getLsbD 0 then p ^^^ a else p)

/-- GMUL (R73): the product of two bytes in the field of R72. -/
def gmul (a b : Byte) : Byte := gmulLoop 8 a b 0#8

/-- GINV (R74): the byte `x` with `GMUL(a, x) = 1`, and 0 for 0. -/
def ginv (a : Byte) : Byte :=
  BitVec.ofNat 8 (((List.range 256).find? fun x => gmul a (BitVec.ofNat 8 x) == 1#8).getD 0)

/-! ## Byte substitution (R75 to R79) -/

/-- SBOX as R75 prints it: one row per high hex digit, sixteen bytes a row, column 0 first. -/
def sboxRows : List Nat := [
  0x637c777bf26b6fc53001672bfed7ab76, 0xca82c97dfa5947f0add4a2af9ca472c0,
  0xb7fd9326363ff7cc34a5e5f171d83115, 0x04c723c31896059a071280e2eb27b275,
  0x09832c1a1b6e5aa0523bd6b329e32f84, 0x53d100ed20fcb15b6acbbe394a4c58cf,
  0xd0efaafb434d338545f9027f503c9fa8, 0x51a3408f929d38f5bcb6da2110fff3d2] ++ [
  0xcd0c13ec5f974417c4a77e3d645d1973, 0x60814fdc222a908846eeb814de5e0bdb,
  0xe0323a0a4906245cc2d3ac629195e479, 0xe7c8376d8dd54ea96c56f4ea657aae08,
  0xba78252e1ca6b4c6e8dd741f4bbd8b8a, 0x703eb5664803f60e613557b986c11d9e,
  0xe1f8981169d98e949b1e87e9ce5528df, 0x8ca1890dbfe6426841992d0fb054bb16]

/-- INV_SBOX as R76 prints it, laid out as `sboxRows`. -/
def invSboxRows : List Nat := [
  0x52096ad53036a538bf40a39e81f3d7fb, 0x7ce339829b2fff87348e4344c4dee9cb,
  0x547b9432a6c2233dee4c950b42fac34e, 0x082ea16628d924b2765ba2496d8bd125,
  0x72f8f66486689816d4a45ccc5d65b692, 0x6c704850fdedb9da5e154657a78d9d84,
  0x90d8ab008cbcd30af7e45805b8b34506, 0xd02c1e8fca3f0f02c1afbd0301138a6b] ++ [
  0x3a9111414f67dcea97f2cfcef0b4e673, 0x96ac7422e7ad3585e2f937e81c75df6e,
  0x47f11a711d29c5896fb7620eaa18be1b, 0xfc563e4bc6d279209adbc0fe78cd5af4,
  0x1fdda8338807c731b11210592780ec5f, 0x60517fa919b54a0d2de57a9f93c99cef,
  0xa0e03b4dae2af5b0c8ebbb3c83539961, 0x172b047eba77d626e169146355210c7d]

/-- An indexed selection from a 16 by 16 table printed as rows of sixteen bytes: high digit the row, low digit the
column. It selects by index and never compares the byte, as R206 asks. -/
def tableByte (rows : List Nat) (a : Byte) : Byte :=
  BitVec.ofNat 8 (rows.getD (a.toNat / 16) 0 >>> (8 * (15 - a.toNat % 16)))

/-- SBOX (R75). -/
def sbox (a : Byte) : Byte := tableByte sboxRows a

/-- INV_SBOX (R76). -/
def invSbox (a : Byte) : Byte := tableByte invSboxRows a

/-- The formula R75 defines the table by: the affine map with constant 0x63 applied to GINV. -/
def sboxFormula (a : Byte) : Byte :=
  let x := ginv a
  x ^^^ x.rotateLeft 1 ^^^ x.rotateLeft 2 ^^^ x.rotateLeft 3 ^^^ x.rotateLeft 4 ^^^ 0x63#8

/-- RCON (R77): `RCON[1] = 1` and each next one is the double of the one before. R77 has no
`RCON[0]` and none beyond 10: the value at 0, and going on doubling past 10, are the model's choice, which no rule reads
(the key expansion asks for 1 to 10 only; assumption log 13). -/
def rcon : Nat → Byte
  | 0 => 0x01#8
  | 1 => 0x01#8
  | n + 2 => xtime (rcon (n + 1))

/-- ROTWORD (R78): one position towards index 0. -/
def rotWord (w : Col) : Col := #v[w[1], w[2], w[3], w[0]]

/-- SUBWORD (R79): each byte through SBOX. -/
def subWord (w : Col) : Col := #v[sbox w[0], sbox w[1], sbox w[2], sbox w[3]]

/-! ## Rotations and boolean mixing (R80 to R84) -/

/-- ROTR32 (R80): rotation right by a constant, from 1 to 31; at any other amount the value is the model's choice
(assumption log 13). -/
def rotr32 (x : Word) (n : Nat) : Word := (x >>> n) ||| (x <<< (32 - n))

/-- SHR32 (R81): logical shift right by 3 or 10; that its formula holds at any other amount is the model's choice
(assumption log 13). -/
def shr32 (x : Word) (n : Nat) : Word := x >>> n

/-- The mode operand of BMIX (R82): explicit at every use, stored nowhere (R22, R204). -/
inductive MixMode where
  | ch
  | maj
deriving DecidableEq, Repr

/-- BMIX (R82): choice (the first operand selects) or majority. -/
def bmix (a b c : Word) : MixMode → Word
  | .ch => (a &&& b) ^^^ (~~~a &&& c)
  | .maj => (a &&& b) ^^^ (a &&& c) ^^^ (b &&& c)

/-- BSIG0 (R83). -/
def bsig0 (x : Word) : Word := rotr32 x 2 ^^^ rotr32 x 13 ^^^ rotr32 x 22

/-- BSIG1 (R83). -/
def bsig1 (x : Word) : Word := rotr32 x 6 ^^^ rotr32 x 11 ^^^ rotr32 x 25

/-- SSIG0 (R84). -/
def ssig0 (x : Word) : Word := rotr32 x 7 ^^^ rotr32 x 18 ^^^ shr32 x 3

/-- SSIG1 (R84). -/
def ssig1 (x : Word) : Word := rotr32 x 17 ^^^ rotr32 x 19 ^^^ shr32 x 10

/-! ## Endian conversion, copying and transposition (R85 to R87, R90, R91) -/

/-- BE32 (R85): four bytes to a word, the first the most significant. -/
def be32 (b0 b1 b2 b3 : Byte) : Word := b0 ++ b1 ++ b2 ++ b3

/-- TOBE32 (R86): a word to four bytes, the most significant first. -/
def toBe32 (w : Word) : List Byte :=
  [w.extractLsb' 24 8, w.extractLsb' 16 8, w.extractLsb' 8 8, w.extractLsb' 0 8]

/-- TOBE64 (R87): a dword to eight bytes, the most significant first. -/
def toBe64 (d : Dword) : List Byte :=
  [d.extractLsb' 56 8, d.extractLsb' 48 8, d.extractLsb' 40 8, d.extractLsb' 32 8,
   d.extractLsb' 24 8, d.extractLsb' 16 8, d.extractLsb' 8 8, d.extractLsb' 0 8]

/-- COPY_n (R90), from the first `n` bytes of a byte string to a fixed-size array. Every use in this model gives it a
string of `n` bytes exactly, so the filler is never read. -/
def copyN (n : Nat) (src : List Byte) : Vector Byte n := Vector.ofFn fun k => src.getD k.val 0#8

/-- TRANSPOSE16 (R91): between column-major and row-major order. No rule uses it. -/
def transpose16 (b : Block) : Block :=
  Vector.ofFn fun k => b[k.val / 4 + 4 * (k.val % 4)]'(by have := k.isLt; omega)

/-! ## SHA-256 constants (R88, R89) -/

/-- H_INIT (R88). -/
def hInit : HashWords := #v[
  0x6a09e667#32, 0xbb67ae85#32, 0x3c6ef372#32, 0xa54ff53a#32,
  0x510e527f#32, 0x9b05688c#32, 0x1f83d9ab#32, 0x5be0cd19#32]

/-- K256 (R89), in the order of its rows there. -/
def k256 : List Word := [
  0x428a2f98#32, 0x71374491#32, 0xb5c0fbcf#32, 0xe9b5dba5#32, 0x3956c25b#32, 0x59f111f1#32, 0x923f82a4#32, 0xab1c5ed5#32,
  0xd807aa98#32, 0x12835b01#32, 0x243185be#32, 0x550c7dc3#32, 0x72be5d74#32, 0x80deb1fe#32, 0x9bdc06a7#32, 0xc19bf174#32] ++ [
  0xe49b69c1#32, 0xefbe4786#32, 0x0fc19dc6#32, 0x240ca1cc#32, 0x2de92c6f#32, 0x4a7484aa#32, 0x5cb0a9dc#32, 0x76f988da#32,
  0x983e5152#32, 0xa831c66d#32, 0xb00327c8#32, 0xbf597fc7#32, 0xc6e00bf3#32, 0xd5a79147#32, 0x06ca6351#32, 0x14292967#32] ++ [
  0x27b70a85#32, 0x2e1b2138#32, 0x4d2c6dfc#32, 0x53380d13#32, 0x650a7354#32, 0x766a0abb#32, 0x81c2c92e#32, 0x92722c85#32,
  0xa2bfe8a1#32, 0xa81a664b#32, 0xc24b8b70#32, 0xc76c51a3#32, 0xd192e819#32, 0xd6990624#32, 0xf40e3585#32, 0x106aa070#32] ++ [
  0x19a4c116#32, 0x1e376c08#32, 0x2748774c#32, 0x34b0bcb5#32, 0x391c0cb3#32, 0x4ed8aa4a#32, 0x5b9cca4f#32, 0x682e6ff3#32,
  0x748f82ee#32, 0x78a5636f#32, 0x84c87814#32, 0x8cc70208#32, 0x90befffa#32, 0xa4506ceb#32, 0xbef9a3f7#32, 0xc67178f2#32]

end Sys2Proof.Machine
end

