-- ==== Sys2Proof/Machine/AesCore.lean ====
section
/-! DEFINITION. The functions of the AES engine (spec 41_aes.md rules R100 to R109): key expansion, the decrypt schedule, the
round functions and the two block transforms. Every block is a 16-byte string in linear order: byte `r + 4*c` is row `r`,
column `c` of the AES state (R33). -/

namespace Sys2Proof.Machine

/-- Exclusive-or of two columns, byte by byte. -/
def xorCol (a b : Col) : Col := Vector.zipWith (· ^^^ ·) a b

/-- Group (32-bit word) `g` of a round key, or column `g` of a state: bytes `4*g` to `4*g + 3` (R11). -/
def column (s : Block) (g : Fin 4) : Col :=
  Vector.ofFn fun j => s[4 * g.val + j.val]'(by have := g.isLt; have := j.isLt; omega)

/-- The block whose four columns are given, in order. -/
def ofColumns (f : Fin 4 → Col) : Block :=
  Vector.ofFn fun k => (f ⟨k.val / 4, by have := k.isLt; omega⟩)[k.val % 4]'(Nat.mod_lt _ (by decide))

/-! ## Key expansion (R101, R102) -/

/-- The four bytes `t` of R101: the last group of the previous round key rotated, substituted, and its first byte
exclusive-ored with the round constant. -/
def keyTemp (prev : Block) (i : Nat) : Col :=
  xorCol (subWord (rotWord (column prev 3))) #v[rcon i, 0#8, 0#8, 0#8]

/-- Group `g` of round key `i` (R101): group 0 is the previous round key's group 0 exclusive-ored with `t`, each further group
is the new group before it exclusive-ored with the previous round key's group. -/
def newGroup (prev : Block) (i : Nat) : Nat → Col
  | 0 => xorCol (column prev 0) (keyTemp prev i)
  | g + 1 => xorCol (newGroup prev i g) (column prev (Fin.ofNat 4 (g + 1)))

/-- Round key `i` from round key `i - 1` (R101): its four groups. -/
def nextRoundKey (prev : Block) (i : Nat) : Block := ofColumns fun g => newGroup prev i g.val

/-- Round key `i` of a key: round key 0 is the raw key (R12, R101). The spec has round keys 0 to 10; going on past 10 is the
model's choice, which no rule reads (assumption log 13). -/
def roundKey (key : Block) : Nat → Block
  | 0 => key
  | i + 1 => nextRoundKey (roundKey key i) (i + 1)

/-- KEYEXPAND (R101): the eleven round keys back to back. -/
def keyExpand (key : Block) : KeySched :=
  Vector.ofFn fun n => (roundKey key (n.val / 16))[n.val % 16]'(Nat.mod_lt _ (by decide))

/-- The round key `i` stored in a schedule: bytes `16*i` to `16*i + 15` (R11). A schedule has round keys 0 to 10. -/
def schedRoundKey (ks : KeySched) (i : Fin 11) : Block :=
  Vector.ofFn fun k => ks[16 * i.val + k.val]'(by have := i.isLt; have := k.isLt; omega)

/-! ## Round functions (R103 to R107) -/

/-- SUBBYTES (R103). -/
def subBytes (s : Block) : Block := s.map sbox

/-- INVSUBBYTES (R103). -/
def invSubBytes (s : Block) : Block := s.map invSbox

/-- SHIFTROWS (R104): row `r` is rotated left by `r` columns. -/
def shiftRows (s : Block) : Block :=
  Vector.ofFn fun k => s[k.val % 4 + 4 * ((k.val / 4 + k.val % 4) % 4)]'(by have := k.isLt; omega)

/-- INVSHIFTROWS (R104): row `r` is rotated right by `r` columns. -/
def invShiftRows (s : Block) : Block :=
  Vector.ofFn fun k => s[k.val % 4 + 4 * ((k.val / 4 + 4 - k.val % 4) % 4)]'(by have := k.isLt; omega)

/-- MIXCOL (R105). -/
def mixCol (a : Col) : Col := #v[
  gmul a[0] 2#8 ^^^ gmul a[1] 3#8 ^^^ a[2] ^^^ a[3],
  a[0] ^^^ gmul a[1] 2#8 ^^^ gmul a[2] 3#8 ^^^ a[3],
  a[0] ^^^ a[1] ^^^ gmul a[2] 2#8 ^^^ gmul a[3] 3#8,
  gmul a[0] 3#8 ^^^ a[1] ^^^ a[2] ^^^ gmul a[3] 2#8]

/-- INVMIXCOL (R106). -/
def invMixCol (a : Col) : Col := #v[
  gmul a[0] 14#8 ^^^ gmul a[1] 11#8 ^^^ gmul a[2] 13#8 ^^^ gmul a[3] 9#8,
  gmul a[0] 9#8 ^^^ gmul a[1] 14#8 ^^^ gmul a[2] 11#8 ^^^ gmul a[3] 13#8,
  gmul a[0] 13#8 ^^^ gmul a[1] 9#8 ^^^ gmul a[2] 14#8 ^^^ gmul a[3] 11#8,
  gmul a[0] 11#8 ^^^ gmul a[1] 13#8 ^^^ gmul a[2] 9#8 ^^^ gmul a[3] 14#8]

/-- MIXCOLUMNS (R105). -/
def mixColumns (s : Block) : Block := ofColumns fun c => mixCol (column s c)

/-- INVMIXCOLUMNS (R106). -/
def invMixColumns (s : Block) : Block := ofColumns fun c => invMixCol (column s c)

/-- ADDRK (R107): exclusive-or with round key `i` of the schedule. -/
def addRk (s : Block) (ks : KeySched) (i : Fin 11) : Block :=
  Vector.zipWith (· ^^^ ·) s (schedRoundKey ks i)

/-- The four bytes of the schedule that byte `n` lies in: word `n / 4` of the 44 (R11). -/
def schedWord (ks : KeySched) (w : Fin 44) : Col :=
  Vector.ofFn fun j => ks[4 * w.val + j.val]'(by have := w.isLt; have := j.isLt; omega)

/-- DECKEY (R102): INVMIXCOL applied to every word of round keys 1 to 9; round keys 0 and 10 untouched. -/
def decKey (ks : KeySched) : KeySched :=
  Vector.ofFn fun n =>
    if 16 ≤ n.val ∧ n.val < 160 then
      (invMixCol (schedWord ks ⟨n.val / 4, by have := n.isLt; omega⟩))[n.val % 4]'(Nat.mod_lt _ (by decide))
    else ks[n.val]

/-! ## The block transforms (R108, R109) -/

/-- One full forward round with round key `i` (R108). -/
def encRound (ks : KeySched) (s : Block) (i : Fin 11) : Block :=
  addRk (mixColumns (shiftRows (subBytes s))) ks i

/-- One full inverse round with round key `i` (R109). -/
def decRound (dks : KeySched) (s : Block) (i : Fin 11) : Block :=
  addRk (invMixColumns (invShiftRows (invSubBytes s))) dks i

/-- CIPHER (R108): round key 0, nine full rounds with round keys 1 to 9, and a last round without MIXCOLUMNS with round
key 10. Defined for every 176-byte schedule. -/
def cipher (inp : Block) (ks : KeySched) : Block :=
  addRk (shiftRows (subBytes (([1, 2, 3, 4, 5, 6, 7, 8, 9] : List (Fin 11)).foldl (encRound ks) (addRk inp ks 0)))) ks 10

/-- INVCIPHER (R109): the equivalent inverse cipher, round keys used from 10 down to 0 (90_conflicts.md C1). -/
def invCipher (inp : Block) (dks : KeySched) : Block :=
  addRk (invShiftRows (invSubBytes
    (([9, 8, 7, 6, 5, 4, 3, 2, 1] : List (Fin 11)).foldl (decRound dks) (addRk inp dks 10)))) dks 0

end Sys2Proof.Machine
end

