-- ==== Sys2Proof/Machine/Flags.lean ====
section
/-! DEFINITION. TCCORE has no flags (R21). What a command reports instead is the status field of its response (R58, R170),
which is stored nowhere; its codes and the two response words are here. -/

namespace Sys2Proof.Machine

/-- The five statuses a command can end with (R170). -/
inductive Status where
  /-- `ST_FAIL_ABSENT`: a required operand is absent (R171). -/
  | failAbsent
  /-- `ST_OK`: the command ran to its end. -/
  | ok
  /-- `ST_FAIL_SELFTEST`: the sampler's test failed at the end of seeding (R173). -/
  | failSelftest
  /-- `ST_FAIL_GENERATE`: the sampler's test failed before an output byte (R172). -/
  | failGenerate
  /-- `ST_ILLEGAL`: the words are no legal command (R57). -/
  | illegal
deriving DecidableEq, Repr

/-- The status codes (R170). -/
def Status.code : Status → BitVec 4
  | .failAbsent => 0x0#4
  | .ok => 0x1#4
  | .failSelftest => 0x2#4
  | .failGenerate => 0x3#4
  | .illegal => 0x4#4

/-- `R0` of a response (R58): the status in bits 3:0, bits 31:4 zero. -/
def responseStatus (st : Status) : Word := 0#28 ++ st.code

/-- `R1` of a response (R58): the number of result bytes the command emitted. -/
def responseLength (rlen : Nat) : Word := BitVec.ofNat 32 rlen

end Sys2Proof.Machine
end

