-- ==== Sys2Proof/Syntax.lean ====
section
/-! DEFINITION. The thirteen commands of TCCORE as syntax: one constructor per row of spec/opcode_table.json, with exactly the
fields rule R55 gives that command. A presence bit is a Bool (`true` is present, R51). -/

namespace Sys2Proof

/-- The context space a `CTX_*` command names (R37, R51): spaces 2 and 3 do not exist. -/
inductive Space where
  /-- Space 0, the key-schedule space: images of 176 bytes. -/
  | keySched
  /-- Space 1, the hash-state space: images of 105 bytes. -/
  | hash
deriving DecidableEq, Repr

/-- A command (R54, R55). Reserved and unused fields have no place in the syntax: the decoder has checked them (R57). -/
inductive Instr where
  /-- `AES_SET_ENC_KEY` (R110): `p0` key, `p1` destination schedule. -/
  | aesSetEncKey (p0 p1 : Bool) (slot : BitVec 8)
  /-- `AES_SET_DEC_KEY` (R111): `p0` key, `p1` destination schedule. -/
  | aesSetDecKey (p0 p1 : Bool) (slot : BitVec 8)
  /-- `AES_ENC_BLOCK` (R112): `p0` out, `p1` in, `p2` schedule. -/
  | aesEncBlock (p0 p1 p2 : Bool) (slot : BitVec 8)
  /-- `AES_DEC_BLOCK` (R113): `p0` out, `p1` in, `p2` schedule. -/
  | aesDecBlock (p0 p1 p2 : Bool) (slot : BitVec 8)
  /-- `SHA_INIT` (R124): `p0` state. -/
  | shaInit (p0 : Bool) (slot : BitVec 8)
  /-- `SHA_UPDATE` (R125): `p0` state, `p1` data of `lenA` bytes. -/
  | shaUpdate (p0 p1 : Bool) (slot : BitVec 8) (lenA : Word)
  /-- `SHA_FINAL` (R126): `p0` digest, `p1` state. -/
  | shaFinal (p0 p1 : Bool) (slot : BitVec 8)
  /-- `DRBG_INIT` (R144): `p0` ctx, `p1` entropy of `lenA` bytes, `p2` personalization of `lenB` bytes. -/
  | drbgInit (p0 p1 p2 : Bool) (lenA lenB : Word)
  /-- `DRBG_RESEED` (R145): `p0` ctx, `p1` entropy of `lenA` bytes, `p2` additional input of `lenB` bytes. -/
  | drbgReseed (p0 p1 p2 : Bool) (lenA lenB : Word)
  /-- `DRBG_GENERATE` (R146): `p0` ctx, `p1` additional input of `lenA` bytes, `p2` out of `lenB` bytes. -/
  | drbgGenerate (p0 p1 p2 : Bool) (lenA lenB : Word)
  /-- `DRBG_UNINST` (R147): `p0` ctx. -/
  | drbgUninst (p0 : Bool)
  /-- `CTX_READ` (R160): `p0` out; `lenB` bytes from offset `lenA` of the image of `slot` in `space`. -/
  | ctxRead (p0 : Bool) (space : Space) (slot : BitVec 8) (lenA lenB : Word)
  /-- `CTX_ZERO` (R161): `p0` state, the slot `slot` of `space`. -/
  | ctxZero (p0 : Bool) (space : Space) (slot : BitVec 8)
deriving DecidableEq, Repr

end Sys2Proof
end

