-- ==== Sys2Proof/Machine/Operands.lean ====
section
/-! DEFINITION. What each command asks of its operands, as tables over the thirteen commands: the parameter-dependent half of
legality (R57 conditions 6 and 8), the required operands (R171) and the operand bytes taken from OPD (R56). -/

namespace Sys2Proof.Machine

/-- The size in bytes of a context image (R37). -/
def imageSize : Space → Nat
  | .keySched => 176
  | .hash => 105

/-- The number of slots of a space, given N_KS and N_SHA (R37). -/
def slotCount (nKs nSha : Nat) : Space → Nat
  | .keySched => nKs
  | .hash => nSha

/-- R57 conditions (6) and (8), the conditions that depend on the parameters: the slot exists (whether or not the context
operand is present), and a `CTX_READ` run stays inside the image, its end computed without wrap-around. -/
def paramLegal (nKs nSha : Nat) : Instr → Bool
  | .aesSetEncKey _ _ slot => decide (slot.toNat < nKs)
  | .aesSetDecKey _ _ slot => decide (slot.toNat < nKs)
  | .aesEncBlock _ _ _ slot => decide (slot.toNat < nKs)
  | .aesDecBlock _ _ _ slot => decide (slot.toNat < nKs)
  | .shaInit _ slot => decide (slot.toNat < nSha)
  | .shaUpdate _ _ slot _ => decide (slot.toNat < nSha)
  | .shaFinal _ _ slot => decide (slot.toNat < nSha)
  | .drbgInit _ _ _ _ _ => true
  | .drbgReseed _ _ _ _ _ => true
  | .drbgGenerate _ _ _ _ _ => true
  | .drbgUninst _ => true
  | .ctxRead _ space slot lenA lenB =>
    decide (slot.toNat < slotCount nKs nSha space) && decide (lenA.toNat + lenB.toNat ≤ imageSize space)
  | .ctxZero _ space slot => decide (slot.toNat < slotCount nKs nSha space)

/-- Every required operand is present, and an optional data operand is present or has length 0 (R55, R171). -/
def requiredPresent : Instr → Bool
  | .aesSetEncKey p0 p1 _ => p0 && p1
  | .aesSetDecKey p0 p1 _ => p0 && p1
  | .aesEncBlock p0 p1 p2 _ => p0 && p1 && p2
  | .aesDecBlock p0 p1 p2 _ => p0 && p1 && p2
  | .shaInit p0 _ => p0
  | .shaUpdate p0 p1 _ _ => p0 && p1
  | .shaFinal p0 p1 _ => p0 && p1
  | .drbgInit p0 p1 p2 _ lenB => p0 && p1 && (p2 || lenB == 0#32)
  | .drbgReseed p0 p1 p2 _ lenB => p0 && p1 && (p2 || lenB == 0#32)
  | .drbgGenerate p0 p1 p2 lenA _ => p0 && p2 && (p1 || lenA == 0#32)
  | .drbgUninst p0 => p0
  | .ctxRead p0 _ _ _ _ => p0
  | .ctxZero p0 _ _ => p0

/-- The number of bytes a data operand of `n` bytes takes from OPD: none when it is absent (R56). -/
def bytesIf (present : Bool) (n : Nat) : Nat := if present then n else 0

/-- The length of `opA` on OPD (R56). -/
def opALen : Instr → Nat
  | .aesSetEncKey p0 _ _ => bytesIf p0 16
  | .aesSetDecKey p0 _ _ => bytesIf p0 16
  | .aesEncBlock _ p1 _ _ => bytesIf p1 16
  | .aesDecBlock _ p1 _ _ => bytesIf p1 16
  | .shaInit _ _ => 0
  | .shaUpdate _ p1 _ lenA => bytesIf p1 lenA.toNat
  | .shaFinal _ _ _ => 0
  | .drbgInit _ p1 _ lenA _ => bytesIf p1 lenA.toNat
  | .drbgReseed _ p1 _ lenA _ => bytesIf p1 lenA.toNat
  | .drbgGenerate _ p1 _ lenA _ => bytesIf p1 lenA.toNat
  | .drbgUninst _ => 0
  | .ctxRead _ _ _ _ _ => 0
  | .ctxZero _ _ _ => 0

/-- The length of `opB` on OPD (R56): only the seeding commands have a second data operand. -/
def opBLen : Instr → Nat
  | .aesSetEncKey _ _ _ => 0
  | .aesSetDecKey _ _ _ => 0
  | .aesEncBlock _ _ _ _ => 0
  | .aesDecBlock _ _ _ _ => 0
  | .shaInit _ _ => 0
  | .shaUpdate _ _ _ _ => 0
  | .shaFinal _ _ _ => 0
  | .drbgInit _ _ p2 _ lenB => bytesIf p2 lenB.toNat
  | .drbgReseed _ _ p2 _ lenB => bytesIf p2 lenB.toNat
  | .drbgGenerate _ _ _ _ _ => 0
  | .drbgUninst _ => 0
  | .ctxRead _ _ _ _ _ => 0
  | .ctxZero _ _ _ => 0

/-- All the bytes a legal command takes from OPD before it runs: `opA` and then `opB` (R32, R56). -/
def operandBytes (i : Instr) : Nat := opALen i + opBLen i

end Sys2Proof.Machine
end

