-- ==== Sys2Proof/Config.lean ====
section
/-! DEFINITION. What an implementation fixes and the spec leaves open (spec 00_scope.md R6): the slot counts taken at reset,
and the external random sampler, whose answers are free values. -/

namespace Sys2Proof

/-- One completed transaction on the RS port (R141), with the sampler's answer where it gives one. -/
inductive RsEvent where
  /-- `RsSeed(b)`: the block sent the byte `b`. -/
  | seed (b : Byte)
  /-- `RsTest()`: the sampler answered pass (`true`) or fail (`false`). -/
  | test (pass : Bool)
  /-- `RsSample()`: the sampler returned the byte `b`. -/
  | sample (b : Byte)
deriving DecidableEq, Repr

/-- The sampler as the block meets it: its answer to the next `RsTest` and to the next `RsSample`, each a function of the
RS transactions so far, oldest first. Every sampler in the form of R142 (a state type, an initial state and three total
functions) is one of these, since its hidden state is a function of its initial state and those transactions
(`Machine.SamplerRecord.toSampler`); assumption log 3. -/
structure Sampler where
  test : List RsEvent → Bool
  sample : List RsEvent → Byte
deriving Inhabited

/-- The sampler of this machine (R6, R142: OPEN). A constant without a body: nothing about its answers can be evaluated or
proved, so a claim holds whatever they are. DESIGN CHOICE (the form), assumption log 3. -/
opaque Config.sampler : Sampler

/-- N_KS of the state after reset (R6: OPEN, 1 to 256). The step reads the count off the state, so it holds for every
N_KS; only the reset state rests on this number. DESIGN CHOICE, assumption log 1. -/
def Config.nKs : Nat := 2

/-- N_SHA of the state after reset (R6: OPEN, 1 to 256), as `Config.nKs`. DESIGN CHOICE, assumption log 1. -/
def Config.nSha : Nat := 1

end Sys2Proof
end

