-- ==== Sys2Proof/Machine/State.lean ====
section
/-! DEFINITION. The state of TCCORE (spec 10_state.md R10, R24), with its ports, and the state after reset. -/

namespace Sys2Proof.Machine

/-- A hash slot: one Sha256State (R15). -/
structure HashSlot where
  /-- `H[s][0..7]`, the running hash value. -/
  h : HashWords
  /-- `BUF[s][0..63]`, the pending block. -/
  buf : HashBlock
  /-- `OFF[s]`, the number of pending bytes: a 6-bit register, so always below 64. -/
  off : BitVec 6
  /-- `BITS[s]`, the count of message bits already compressed (R16). -/
  bits : Dword
deriving DecidableEq, Repr

/-- The all-zero hash slot: after reset, `CTX_ZERO` and `SHA_FINAL` (R24, R126, R161). -/
def HashSlot.zero : HashSlot where
  h := Vector.replicate 8 0#32
  buf := Vector.replicate 64 0#8
  off := 0#6
  bits := 0#64

/-- The all-zero key-schedule slot: after reset and `CTX_ZERO` (R24, R161). -/
def zeroSched : KeySched := Vector.replicate 176 0#8

/-- One transaction the block makes on an outgoing port (R30). -/
inductive PortEvent where
  /-- A transaction on RS, with the sampler's answer (R141). -/
  | rs (e : RsEvent)
  /-- A result byte on RES. -/
  | res (b : Byte)
  /-- One word of a response on RSP: `R0`, and then `R1` (R58). -/
  | rsp (w : Word)
deriving DecidableEq, Repr

/-- How many further items a receiver takes from a port of the block before it makes the block wait (the back-pressure of R30). -/
inductive Take where
  /-- Every one. -/
  | all
  /-- The next `n`, and then none until it is ready again. -/
  | upTo (n : Nat)
deriving DecidableEq, Repr

/-- What the receivers of the block's outgoing items take: the sampler of requests on RS, the host of result bytes on RES and of
response words on RSP (R30, R199; assumption log 11). -/
structure Takes where
  rs : Take
  res : Take
  rsp : Take
deriving DecidableEq, Repr

/-- Receivers that make the block wait on no port. -/
def Takes.all : Takes where
  rs := .all
  res := .all
  rsp := .all

/-- The command sequencer (R24, R31, R193): what the block has taken of the command in progress. A command whose words and
operand bytes are all there, and whose items are all taken, runs within one step (R39), so these are the places where it can be
seen waiting. -/
inductive Seq where
  /-- No command in progress. -/
  | idle
  /-- `W0` taken from CMD, waiting for `W1`. -/
  | gotOne (w0 : Word)
  /-- `W0` and `W1` taken from CMD, waiting for `W2`. -/
  | gotTwo (w0 w1 : Word)
  /-- A legal command taken, waiting on OPD for the rest of its operand bytes after those taken (R199). -/
  | operands (i : Instr) (taken : List Byte)
  /-- A command at its end but for these transactions, the first of which its receiver has not been ready to take (R30, R199).
  What the command writes is in the slots already, since no one can see a slot before its response (R39, R203). -/
  | sending (rest : List PortEvent)
deriving DecidableEq, Repr

/-- The `rst` input (R30, R190, R191), set by the environment: not asserted; asserted; or to be asserted right after the
next `n` transactions on the ports of the block, which lets a reset land in the middle of a command (assumption log 6). -/
inductive Rst where
  | low
  | high
  | after (n : Nat)
deriving DecidableEq, Repr

/-- The state of the block and of its ports. `ks` and `sha` are the whole architectural state (R10), the DRBG context holding
no bits (R18); N_KS and N_SHA are their lengths (assumption log 1). The rest is the sequencer and what stands at the ports. -/
structure State where
  /-- `KS[s]`, the key-schedule slots (R11). -/
  ks : List KeySched
  /-- The hash slots (R15). -/
  sha : List HashSlot
  /-- The command sequencer. -/
  seq : Seq
  /-- The `rst` input. -/
  rst : Rst
  /-- The words the host offers on CMD and the block has not taken, first to be taken first. -/
  cmd : List Word
  /-- The bytes the host offers on OPD and the block has not taken, first to be taken first. -/
  opd : List Byte
  /-- What the receivers of the block's items are ready to take, set by them and counted down by the block (R30). -/
  takes : Takes
  /-- Every transaction the block has made on RS, RES and RSP since power-on, oldest first. Its RS part is the state of the
  sampler as far as anything can see it (R19, assumption log 3); a block reset does not touch it (R191, R192). -/
  out : List PortEvent
deriving DecidableEq, Repr

/-- Why the machine stops with a fault: never. TCCORE has no traps (R178), every command ends with a status (R170), and a
command that lacks operand bytes waits (R199), so no constructor is needed (assumption log 5). -/
inductive Fault where
deriving DecidableEq, Repr

/-- Why a command has no meaning in the model. -/
inductive Refusal where
  /-- Raised only by an arm of `exec` that has no meaning yet, by mnemonic; safe, since the run ends there. No arm of this
  model raises it. -/
  | notModelled (mnemonic : String)
deriving DecidableEq, Repr

/-- The state after reset for given slot counts (R24, R190, R193): every slot all zero, the sequencer idle, nothing at the
ports and every receiver ready (assumption logs 2, 6, 11). -/
def State.resetOf (nKs nSha : Nat) : State where
  ks := List.replicate nKs zeroSched
  sha := List.replicate nSha HashSlot.zero
  seq := .idle
  rst := .low
  cmd := []
  opd := []
  takes := Takes.all
  out := []

/-- The state after power-on reset (R24, R190), with the slot counts of Config. -/
def State.reset : State := State.resetOf Config.nKs Config.nSha

end Sys2Proof.Machine
end

