-- ==== Sys2Proof/Machine/Ops.lean ====
section
/-! DEFINITION. The named operations the commands are made of: reading and writing slots, the context images, the ports, the
sampler transactions, ending a command (with success or with a failure, which is all TCCORE has in the place of an exception,
R178), reset, and the shared course of a command (R31). -/

namespace Sys2Proof.Machine

/-! ## Slots (R10, R11, R15) -/

/-- N_KS of this block: the number of its key-schedule slots (R6). -/
def State.nKs (s : State) : Nat := s.ks.length

/-- N_SHA of this block: the number of its hash slots (R6). -/
def State.nSha (s : State) : Nat := s.sha.length

/-- `KS[slot]`. A legal command names a slot that exists (R57), so the filler is never read. -/
def State.readKs (s : State) (slot : BitVec 8) : KeySched := s.ks.getD slot.toNat zeroSched

/-- `KS[slot] <- v`: all 176 bytes (R14). -/
def State.writeKs (s : State) (slot : BitVec 8) (v : KeySched) : State := { s with ks := s.ks.set slot.toNat v }

/-- The hash slot `slot`; as for `readKs`, the filler is never read. -/
def State.readSha (s : State) (slot : BitVec 8) : HashSlot := s.sha.getD slot.toNat HashSlot.zero

/-- Every field of a hash slot written. -/
def State.writeSha (s : State) (slot : BitVec 8) (v : HashSlot) : State := { s with sha := s.sha.set slot.toNat v }

/-! ## Context images (R36, R37) -/

/-- The 105 bytes of a hash slot's image: `H` and `BITS` most significant byte first, `OFF` in bits 5:0 of its byte. -/
def HashSlot.image (c : HashSlot) : List Byte :=
  c.h.toList.flatMap toBe32 ++ c.buf.toList ++ [c.off.setWidth 8] ++ toBe64 c.bits

/-- IMAGE(space, slot) (R160, R37). -/
def State.image (s : State) (slot : BitVec 8) : Space → List Byte
  | .keySched => (s.readKs slot).toList
  | .hash => (s.readSha slot).image

/-- CtxRead(space, slot, off, n): `n` bytes of an image from offset `off` (00_scope.md section 5.2, R37). -/
def State.ctxBytes (s : State) (space : Space) (slot : BitVec 8) (off n : Nat) : List Byte :=
  ((s.image slot space).drop off).take n

/-! ## Ports (R30, R32) -/

/-- `emit`: result bytes on RES, in index order. -/
def State.emit (s : State) (bs : List Byte) : State := { s with out := s.out ++ bs.map PortEvent.res }

/-- The two words of the response on RSP (R58), the last act of every command (R31 step 6, R203): `done` for `ST_OK`, `fail` for
the others (R170, R178: a failure saves nothing, changes no mode and transfers control nowhere). -/
def State.respond (s : State) (st : Status) (rlen : Nat) : State :=
  { s with out := s.out ++ [.rsp (responseStatus st), .rsp (responseLength rlen)] }

/-! ## The sampler (R141 to R143) -/

/-- The RS transactions among a list of port transactions, in order. -/
def rsHistory (out : List PortEvent) : List RsEvent :=
  out.filterMap fun e => match e with
    | .rs r => some r
    | .res _ => none
    | .rsp _ => none

/-- `RsSeed(b)`. -/
def State.rsSeed (s : State) (b : Byte) : State := { s with out := s.out ++ [.rs (.seed b)] }

/-- `RsTest()`: the sampler's answer, and the state with the transaction made. -/
def State.rsTest (S : Sampler) (s : State) : Bool × State :=
  let pass := S.test (rsHistory s.out)
  (pass, { s with out := s.out ++ [.rs (.test pass)] })

/-- `RsSample()`: the sampler's byte, and the state with the transaction made. -/
def State.rsSample (S : Sampler) (s : State) : Byte × State :=
  let b := S.sample (rsHistory s.out)
  (b, { s with out := s.out ++ [.rs (.sample b)] })

/-- FOLD (R143): one `RsSeed` per byte, in index order. -/
def State.fold (s : State) (x : List Byte) : State := x.foldl State.rsSeed s

/-! ## Reset (R190 to R193) -/

/-- The effect of `rst` on the block: every slot zero and the sequencer idle, whatever was in progress. It makes no
transaction on any port and does not reach the sampler. What the host offers and the block has not taken stays the host's
(assumption log 7). -/
def State.toReset (s : State) : State :=
  { s with
    ks := List.replicate s.ks.length zeroSched
    sha := List.replicate s.sha.length HashSlot.zero
    seq := .idle }

/-! ## The ports at the end of a step (R30, R191) -/

/-- Whether the receiver takes the next item. -/
def Take.ready : Take → Bool
  | .all => true
  | .upTo n => decide (n ≠ 0)

/-- What the receiver still takes after `n` items. -/
def Take.less (n : Nat) : Take → Take
  | .all => .all
  | .upTo m => .upTo (m - n)

/-- Whether the receiver at a transaction's port takes it. -/
def Takes.ready (k : Takes) : PortEvent → Bool
  | .rs _ => k.rs.ready
  | .res _ => k.res.ready
  | .rsp _ => k.rsp.ready

/-- What the receivers still take after a transaction. -/
def Takes.after (k : Takes) : PortEvent → Takes
  | .rs _ => { k with rs := k.rs.less 1 }
  | .res _ => { k with res := k.res.less 1 }
  | .rsp _ => { k with rsp := k.rsp.less 1 }

/-- How many transactions of a sequence are made before one must wait for its receiver; those after it wait with it, since they
are made in order (R30, R203). -/
def passed : Takes → List PortEvent → Nat
  | _, [] => 0
  | k, e :: rest => if k.ready e then passed (k.after e) rest + 1 else 0

/-- A step from `s` that leads to `t` when no receiver makes the block wait, with only the first `n` of its transactions made: the
sequencer keeps the others to send (R30). -/
def State.deliver (s t : State) (n : Nat) : State :=
  let made := t.out.drop s.out.length
  { t with
    seq := match made.drop n with
      | [] => t.seq
      | e :: rest => .sending (e :: rest)
    takes := (made.take n).foldl Takes.after s.takes
    out := s.out ++ made.take n }

/-- A step from `s` that leads to `t` when nothing at the ports holds it up, as the receivers and the `rst` input let it be. Its
transactions are the words taken from CMD, then the bytes taken from OPD, then those of `t.out` (R31, R203). If `rst` is to be
asserted after fewer, the command is abandoned there: the words and bytes it had taken are lost, the rest stay with the host, the
transactions it had made stay made, and the block is in the reset state (R191). If not, the count goes on. -/
def State.meetPorts (s t : State) : State :=
  let sent := passed s.takes (t.out.drop s.out.length)
  match s.rst with
  | .low => s.deliver t sent
  | .high => s.deliver t sent
  | .after n =>
    let words := s.cmd.length - t.cmd.length
    let bytes := s.opd.length - t.opd.length
    if n < words + bytes + sent then
      State.toReset { s.deliver t (n - (words + bytes)) with
        cmd := s.cmd.drop (min n words)
        opd := s.opd.drop (min (n - words) bytes)
        rst := .high }
    else { s.deliver t sent with rst := .after (n - (words + bytes + sent)) }

/-! ## The course of a command (R31) -/

/-- Steps (2) to (6) of R31 for a decoded command, in the order of R175: an illegal slot or image run is answered `ST_ILLEGAL`
and takes nothing from OPD; otherwise the bytes of the present data operands are taken, the command waiting with what there
is if the host has not supplied them all (R199); then an absent required operand is answered `ST_FAIL_ABSENT` and the bytes
taken are discarded; otherwise the body runs on `opA` and `opB`. -/
def runCommand (i : Instr) (body : List Byte → List Byte → State → State) (s : State) : State :=
  if paramLegal s.nKs s.nSha i then
    if s.opd.length < operandBytes i then { s with seq := .operands i s.opd, opd := [] }
    else
      let taken := { s with opd := s.opd.drop (operandBytes i) }
      if requiredPresent i then
        body (s.opd.take (opALen i)) ((s.opd.drop (opALen i)).take (opBLen i)) taken
      else taken.respond .failAbsent 0
  else s.respond .illegal 0

end Sys2Proof.Machine
end

