-- ==== Sys2Proof/Machine/Aes.lean ====
section
/-! DEFINITION. The four commands of the AES engine (spec 41_aes.md rules R110 to R113). -/

namespace Sys2Proof.Machine

/-- `AES_SET_ENC_KEY` (R110). -/
def execAesSetEncKey (p0 p1 : Bool) (slot : BitVec 8) (s : State) : Host.Outcome State Fault Refusal :=
  .next (runCommand (.aesSetEncKey p0 p1 slot)
    (fun opA _ s => (s.writeKs slot (keyExpand (copyN 16 opA))).respond .ok 0) s)

/-- `AES_SET_DEC_KEY` (R111): expansion and decrypt transform as one command. -/
def execAesSetDecKey (p0 p1 : Bool) (slot : BitVec 8) (s : State) : Host.Outcome State Fault Refusal :=
  .next (runCommand (.aesSetDecKey p0 p1 slot)
    (fun opA _ s => (s.writeKs slot (decKey (keyExpand (copyN 16 opA)))).respond .ok 0) s)

/-- `AES_ENC_BLOCK` (R112): CIPHER with whatever the slot holds (R115). -/
def execAesEncBlock (p0 p1 p2 : Bool) (slot : BitVec 8) (s : State) : Host.Outcome State Fault Refusal :=
  .next (runCommand (.aesEncBlock p0 p1 p2 slot)
    (fun opA _ s => (s.emit (cipher (copyN 16 opA) (s.readKs slot)).toList).respond .ok 16) s)

/-- `AES_DEC_BLOCK` (R113): INVCIPHER with whatever the slot holds (R115). -/
def execAesDecBlock (p0 p1 p2 : Bool) (slot : BitVec 8) (s : State) : Host.Outcome State Fault Refusal :=
  .next (runCommand (.aesDecBlock p0 p1 p2 slot)
    (fun opA _ s => (s.emit (invCipher (copyN 16 opA) (s.readKs slot)).toList).respond .ok 16) s)

end Sys2Proof.Machine
end

