-- ==== Sys2Proof/Machine/Ctx.lean ====
section
/-! DEFINITION. The two context-access commands (spec 44_context_access.md rules R160 and R161). -/

namespace Sys2Proof.Machine

/-- Every byte and field of one slot set to zero (R161). -/
def State.zeroSlot (s : State) (slot : BitVec 8) : Space → State
  | .keySched => s.writeKs slot zeroSched
  | .hash => s.writeSha slot HashSlot.zero

/-- `CTX_READ` (R160): `lenB` bytes of the image from offset `lenA`. -/
def execCtxRead (p0 : Bool) (space : Space) (slot : BitVec 8) (lenA lenB : Word) (s : State) :
    Host.Outcome State Fault Refusal :=
  .next (runCommand (.ctxRead p0 space slot lenA lenB)
    (fun _ _ s => (s.emit (s.ctxBytes space slot lenA.toNat lenB.toNat)).respond .ok lenB.toNat) s)

/-- `CTX_ZERO` (R161). -/
def execCtxZero (p0 : Bool) (space : Space) (slot : BitVec 8) (s : State) : Host.Outcome State Fault Refusal :=
  .next (runCommand (.ctxZero p0 space slot) (fun _ _ s => (s.zeroSlot slot space).respond .ok 0) s)

end Sys2Proof.Machine
end

