-- ==== Sys2Proof/Machine/Drbg.lean ====
section
/-! DEFINITION. The four commands of the DRBG engine (spec 43_drbg.md rules R144 to R147) and the sampler as R142 describes it.
The engine holds no state (R18): everything it does is transactions on the RS port. -/

namespace Sys2Proof.Machine

/-! ## The sampler in the form of R142 -/

/-- A sampler as R142 gives it: a state type, an initial state and three total functions. -/
structure SamplerRecord (Sigma : Type) where
  init : Sigma
  seed : Sigma → Byte → Sigma
  test : Sigma → Sigma × Bool
  sample : Sigma → Sigma × Byte

/-- The hidden state after one transaction (R142). -/
def SamplerRecord.next {Sigma : Type} (R : SamplerRecord Sigma) (sg : Sigma) : RsEvent → Sigma
  | .seed b => R.seed sg b
  | .test _ => (R.test sg).1
  | .sample _ => (R.sample sg).1

/-- The hidden state after the transactions so far (R142). -/
def SamplerRecord.after {Sigma : Type} (R : SamplerRecord Sigma) (history : List RsEvent) : Sigma :=
  history.foldl R.next R.init

/-- The sampler of R142 in the form the block meets it: the answers it would give next. -/
def SamplerRecord.toSampler {Sigma : Type} (R : SamplerRecord Sigma) : Sampler where
  test := fun history => (R.test (R.after history)).2
  sample := fun history => (R.sample (R.after history)).2

/-! ## The shared bodies, for any sampler -/

/-- The body of `DRBG_INIT` and `DRBG_RESEED` (R144, R145): fold `opA`, then `opB` (empty when absent), then one test whose
answer is the status. -/
def seedBody (S : Sampler) (opA opB : List Byte) (s : State) : State :=
  let r := ((s.fold opA).fold opB).rsTest S
  r.2.respond (if r.1 then .ok else .failSelftest) 0

/-- The loop of `DRBG_GENERATE` (R146): `n` bytes still asked for, `j` emitted. Test first, then draw, then emit; a failing
test ends the command with `RLEN = j`. -/
def generateLoop (S : Sampler) : Nat → Nat → State → State
  | 0, j, s => s.respond .ok j
  | n + 1, j, s =>
    let t := s.rsTest S
    if t.1 then
      let d := t.2.rsSample S
      generateLoop S n (j + 1) (d.2.emit [d.1])
    else t.2.respond .failGenerate j

/-- The body of `DRBG_GENERATE` (R146): fold the additional input, then the loop. -/
def generateBody (S : Sampler) (lenB : Word) (opA : List Byte) (s : State) : State :=
  generateLoop S lenB.toNat 0 (s.fold opA)

/-! ## Commands -/

/-- `DRBG_INIT` (R144). -/
def execDrbgInit (p0 p1 p2 : Bool) (lenA lenB : Word) (s : State) : Host.Outcome State Fault Refusal :=
  .next (runCommand (.drbgInit p0 p1 p2 lenA lenB) (fun opA opB s => seedBody Config.sampler opA opB s) s)

/-- `DRBG_RESEED` (R145): exactly the operation of `DRBG_INIT`. -/
def execDrbgReseed (p0 p1 p2 : Bool) (lenA lenB : Word) (s : State) : Host.Outcome State Fault Refusal :=
  .next (runCommand (.drbgReseed p0 p1 p2 lenA lenB) (fun opA opB s => seedBody Config.sampler opA opB s) s)

/-- `DRBG_GENERATE` (R146). -/
def execDrbgGenerate (p0 p1 p2 : Bool) (lenA lenB : Word) (s : State) : Host.Outcome State Fault Refusal :=
  .next (runCommand (.drbgGenerate p0 p1 p2 lenA lenB) (fun opA _ s => generateBody Config.sampler lenB opA s) s)

/-- `DRBG_UNINST` (R147): the presence check and nothing else. -/
def execDrbgUninst (p0 : Bool) (s : State) : Host.Outcome State Fault Refusal :=
  .next (runCommand (.drbgUninst p0) (fun _ _ s => s.respond .ok 0) s)

end Sys2Proof.Machine
end

