-- ==== Sys2Proof/Machine/ShaCore.lean ====
section
/-! DEFINITION. The compression function of the SHA-256 engine (spec 42_sha256.md rules R120 to R123), in the direct 64-step
form. -/

namespace Sys2Proof.Machine

/-- The eight working variables of a compression (R120, R122). They do not outlive the command (R23). -/
structure Work where
  a : Word
  b : Word
  c : Word
  d : Word
  e : Word
  f : Word
  g : Word
  hh : Word
deriving DecidableEq, Repr

/-- The first sixteen words of the message schedule: the block's big-endian words (R121, R34). -/
def blockWords (B : HashBlock) : List Word :=
  List.ofFn fun t : Fin 16 =>
    be32 (B[4 * t.val]'(by have := t.isLt; omega)) (B[4 * t.val + 1]'(by have := t.isLt; omega))
      (B[4 * t.val + 2]'(by have := t.isLt; omega)) (B[4 * t.val + 3]'(by have := t.isLt; omega))

/-- The next word of the message schedule, from the `t` words so far (R121): for `t` at least 16,
`SSIG1(W[t-2]) + W[t-7] + SSIG0(W[t-15]) + W[t-16]`. -/
def nextScheduleWord (ws : List Word) : Word :=
  ssig1 (ws.getD (ws.length - 2) 0#32) + ws.getD (ws.length - 7) 0#32
    + ssig0 (ws.getD (ws.length - 15) 0#32) + ws.getD (ws.length - 16) 0#32

/-- `n` more words of the message schedule, each from those before it (R121). -/
def extendSchedule : Nat → List Word → List Word
  | 0, ws => ws
  | n + 1, ws => extendSchedule n (ws ++ [nextScheduleWord ws])

/-- SCHEDULE (R121): sixteen words of the block and forty-eight derived ones. -/
def schedule (B : HashBlock) : List Word := extendSchedule 48 (blockWords B)

/-- ROUND (R122). -/
def shaRound (v : Work) (k w : Word) : Work :=
  let t1 := v.hh + bsig1 v.e + bmix v.e v.f v.g .ch + k + w
  let t2 := bsig0 v.a + bmix v.a v.b v.c .maj
  { a := t1 + t2, b := v.a, c := v.b, d := v.c, e := v.d + t1, f := v.e, g := v.f, hh := v.g }

/-- The working variables as they start from a running hash (R120). -/
def Work.ofHash (h : HashWords) : Work :=
  { a := h[0], b := h[1], c := h[2], d := h[3], e := h[4], f := h[5], g := h[6], hh := h[7] }

/-- The working variables as eight words in the order of the running hash (R120). -/
def Work.words (v : Work) : HashWords := #v[v.a, v.b, v.c, v.d, v.e, v.f, v.g, v.hh]

/-- The 64 rounds of a compression on a message schedule (R120). -/
def shaRounds (v : Work) (ws : List Word) : Work :=
  (List.zip k256 ws).foldl (fun v kw => shaRound v kw.1 kw.2) v

/-- COMPRESS (R120): the rounds, then the old hash words added word by word, each sum modulo 2^32 (R71). -/
def compress (h : HashWords) (B : HashBlock) : HashWords :=
  Vector.zipWith (· + ·) h (shaRounds (Work.ofHash h) (schedule B)).words

end Sys2Proof.Machine
end

