-- ==== Sys2Proof/Machine/Sha.lean ====
section
/-! DEFINITION. The three commands of the SHA-256 engine (spec 42_sha256.md rules R124 to R126) and what they do to a hash
slot. -/

namespace Sys2Proof.Machine

/-- The hash slot `SHA_INIT` leaves (R124). -/
def HashSlot.initial : HashSlot := { HashSlot.zero with h := hInit }

/-- `BUF[k] <- b` for the 6-bit index `k`. -/
def HashSlot.putByte (c : HashSlot) (k : BitVec 6) (b : Byte) : HashBlock := c.buf.set k.toNat b k.isLt

/-- One turn of the loop of `SHA_UPDATE` (R125): the byte goes to `BUF[OFF]`; if it was the last of the block, the block is
compressed, `OFF` goes to 0 and `BITS` grows by 512 modulo 2^64 (R71); if not, `OFF` grows by 1. `BUF` keeps a block that has
been compressed. -/
def HashSlot.absorb (c : HashSlot) (b : Byte) : HashSlot :=
  let buf := c.putByte c.off b
  if c.off = 63#6 then { h := compress c.h buf, buf := buf, off := 0#6, bits := c.bits + 512#64 }
  else { c with buf := buf, off := c.off + 1#6 }

/-- The loop of `SHA_UPDATE` (R125) over its data, byte 0 first. -/
def HashSlot.update (c : HashSlot) (data : List Byte) : HashSlot := data.foldl HashSlot.absorb c

/-- `BUF[lo .. hi-1] <- 0`. -/
def zeroRange (buf : HashBlock) (lo hi : Nat) : HashBlock :=
  Vector.ofFn fun k => if lo ≤ k.val ∧ k.val < hi then 0#8 else buf[k.val]

/-- `BUF[56..63] <- TOBE64(bits)` (R126, R87). -/
def putLength (buf : HashBlock) (bits : Dword) : HashBlock :=
  Vector.ofFn fun k => if 56 ≤ k.val then (toBe64 bits).getD (k.val - 56) 0#8 else buf[k.val]

/-- BITS as `SHA_FINAL` writes it into the length field (R126): the pending bytes' bits added, modulo 2^64. -/
def HashSlot.totalBits (c : HashSlot) : Dword := c.bits + (c.off.setWidth 64 <<< 3)

/-- The running hash and the buffer just before the length is written (R126): the byte 0x80 after the pending bytes, zeros
after it, and, where fewer than 8 bytes are left for the length, that block compressed and a fresh all-zero one begun. -/
def HashSlot.padded (c : HashSlot) : HashWords × HashBlock :=
  let n := c.off.toNat
  let buf := c.putByte c.off 0x80#8
  if n + 1 > 56 then
    let full := zeroRange buf (n + 1) 64
    (compress c.h full, zeroRange full 0 56)
  else (c.h, zeroRange buf (n + 1) 56)

/-- The eight words `SHA_FINAL` serialises (R126). -/
def HashSlot.finalWords (c : HashSlot) : HashWords :=
  let p := c.padded
  compress p.1 (putLength p.2 c.totalBits)

/-- The 32 digest bytes (R126, R34): each word most significant byte first. -/
def HashSlot.digest (c : HashSlot) : List Byte := c.finalWords.toList.flatMap toBe32

/-- `SHA_INIT` (R124). -/
def execShaInit (p0 : Bool) (slot : BitVec 8) (s : State) : Host.Outcome State Fault Refusal :=
  .next (runCommand (.shaInit p0 slot)
    (fun _ _ s => (s.writeSha slot HashSlot.initial).respond .ok 0) s)

/-- `SHA_UPDATE` (R125). -/
def execShaUpdate (p0 p1 : Bool) (slot : BitVec 8) (lenA : Word) (s : State) : Host.Outcome State Fault Refusal :=
  .next (runCommand (.shaUpdate p0 p1 slot lenA)
    (fun opA _ s => (s.writeSha slot ((s.readSha slot).update opA)).respond .ok 0) s)

/-- `SHA_FINAL` (R126): the digest, then the wipe of the whole slot. -/
def execShaFinal (p0 p1 : Bool) (slot : BitVec 8) (s : State) : Host.Outcome State Fault Refusal :=
  .next (runCommand (.shaFinal p0 p1 slot)
    (fun _ _ s => ((s.emit (s.readSha slot).digest).writeSha slot HashSlot.zero).respond .ok 32) s)

end Sys2Proof.Machine
end

