-- ==== Sys2Proof/Machine/Dispatch.lean ====
section
/-! DEFINITION. The meaning of every command: one arm per constructor of Instr. -/

namespace Sys2Proof.Machine

def exec (i : Instr) (s : State) : Host.Outcome State Fault Refusal :=
  match i with
  | .aesSetEncKey p0 p1 slot => Sys2Proof.Machine.execAesSetEncKey p0 p1 slot s
  | .aesSetDecKey p0 p1 slot => Sys2Proof.Machine.execAesSetDecKey p0 p1 slot s
  | .aesEncBlock p0 p1 p2 slot => Sys2Proof.Machine.execAesEncBlock p0 p1 p2 slot s
  | .aesDecBlock p0 p1 p2 slot => Sys2Proof.Machine.execAesDecBlock p0 p1 p2 slot s
  | .shaInit p0 slot => Sys2Proof.Machine.execShaInit p0 slot s
  | .shaUpdate p0 p1 slot lenA => Sys2Proof.Machine.execShaUpdate p0 p1 slot lenA s
  | .shaFinal p0 p1 slot => Sys2Proof.Machine.execShaFinal p0 p1 slot s
  | .drbgInit p0 p1 p2 lenA lenB => Sys2Proof.Machine.execDrbgInit p0 p1 p2 lenA lenB s
  | .drbgReseed p0 p1 p2 lenA lenB => Sys2Proof.Machine.execDrbgReseed p0 p1 p2 lenA lenB s
  | .drbgGenerate p0 p1 p2 lenA lenB => Sys2Proof.Machine.execDrbgGenerate p0 p1 p2 lenA lenB s
  | .drbgUninst p0 => Sys2Proof.Machine.execDrbgUninst p0 s
  | .ctxRead p0 space slot lenA lenB => Sys2Proof.Machine.execCtxRead p0 space slot lenA lenB s
  | .ctxZero p0 space slot => Sys2Proof.Machine.execCtxZero p0 space slot s

end Sys2Proof.Machine
end

