-- ==== Sys2Proof/WellFormed.lean ====
section
/-! DEFINITION. When a command is well formed for a block with N_KS key-schedule slots and N_SHA hash slots. Conditions (1) to
(5) and (7) of rule R57 cannot be broken in the syntax, since no reserved or unused field has a place in it; what is left is
conditions (6) and (8), and the bounds R6 puts on the parameters. -/

namespace Sys2Proof

/-- The legal values of N_KS and N_SHA (R6). -/
def paramsWellFormed (nKs nSha : Nat) : Bool :=
  decide (1 ≤ nKs) && decide (nKs ≤ 256) && decide (1 ≤ nSha) && decide (nSha ≤ 256)

/-- A command that is legal (R57) on a block with these slot counts. -/
abbrev Instr.wellFormed (nKs nSha : Nat) (i : Instr) : Bool := Machine.paramLegal nKs nSha i

end Sys2Proof
end

