-- ==== Sys2Proof/Decode.lean ====
section
/-! DEFINITION. Decoding the three words of a command (spec 30_encoding.md rules R50 to R57), total on all words and rejecting
by name; the encoder, written from the same tables; and the opcode map of rule R54 as rows. -/

namespace Sys2Proof

/-! ## The opcode map (R54) -/

/-- Which of the two length words a format uses (R52). -/
inductive Format where
  /-- Neither: `W1` and `W2` must be 0. -/
  | f0
  /-- `W1` is `LEN_A`; `W2` must be 0. -/
  | f1
  /-- `W1` is `LEN_A`, `W2` is `LEN_B`. -/
  | f2
deriving DecidableEq, Repr

/-- One row of the opcode map (R54): a header `w` selects it when `w &&& mask = pattern`. -/
structure OpcodeRow where
  mnemonic : String
  format : Format
  pattern : Word
  mask : Word
deriving DecidableEq, Repr

/-- The opcode map as R54 prints it. -/
def opcodeRows : List OpcodeRow := [
  ⟨"AES_SET_ENC_KEY", .f0, 0x00000001#32, 0xFFFF00CF#32⟩,
  ⟨"AES_SET_DEC_KEY", .f0, 0x00000002#32, 0xFFFF00CF#32⟩,
  ⟨"AES_ENC_BLOCK", .f0, 0x00000003#32, 0xFFFF008F#32⟩,
  ⟨"AES_DEC_BLOCK", .f0, 0x00000004#32, 0xFFFF008F#32⟩,
  ⟨"SHA_INIT", .f0, 0x00000005#32, 0xFFFF00EF#32⟩,
  ⟨"SHA_UPDATE", .f1, 0x00000006#32, 0xFFFF00CF#32⟩,
  ⟨"SHA_FINAL", .f0, 0x00000007#32, 0xFFFF00CF#32⟩] ++ [
  ⟨"DRBG_INIT", .f2, 0x00000008#32, 0xFFFFFF8F#32⟩,
  ⟨"DRBG_RESEED", .f2, 0x00000009#32, 0xFFFFFF8F#32⟩,
  ⟨"DRBG_GENERATE", .f2, 0x0000000A#32, 0xFFFFFF8F#32⟩,
  ⟨"DRBG_UNINST", .f0, 0x0000000B#32, 0xFFFFFFEF#32⟩,
  ⟨"CTX_READ", .f2, 0x0000000C#32, 0xFFFE00EF#32⟩,
  ⟨"CTX_ZERO", .f0, 0x0000000D#32, 0xFFFE00EF#32⟩]

/-- Whether a header selects a row (R54). -/
def OpcodeRow.selects (r : OpcodeRow) (w0 : Word) : Bool := (w0 &&& r.mask) == r.pattern

/-- Whether the length words a format does not use are 0 (R52, R57 condition 7). -/
def Format.lengthsOk (w1 w2 : Word) : Format → Bool
  | .f0 => w1 == 0#32 && w2 == 0#32
  | .f1 => w2 == 0#32
  | .f2 => true

/-! ## Decoding (R51, R55, R57) -/

/-- Why three words are no command: the conditions of R57 that do not depend on N_KS and N_SHA, numbered as there. -/
inductive DecodeError where
  /-- (1) The opcode is 0x0, 0xE or 0xF. -/
  | reservedOpcode
  /-- (2) Bit 7 or one of bits 31 to 18 of the header is 1. -/
  | reservedBit
  /-- (3) A presence bit the command does not use is 1. -/
  | unusedPresence
  /-- (4) `space` is not 0 for a command other than `CTX_*`, or is 2 or 3 for those. -/
  | badSpace
  /-- (5) `slot` is not 0 for a `DRBG_*` command. -/
  | badSlot
  /-- (7) A length word the format does not use is not 0. -/
  | unusedLength
deriving DecidableEq, Repr

/-- The header's fields (R51), pulled out once. -/
structure Header where
  op : BitVec 4
  p0 : Bool
  p1 : Bool
  p2 : Bool
  reserved7 : Bool
  slot : BitVec 8
  space : BitVec 2
  reserved31 : BitVec 14
deriving DecidableEq, Repr

/-- The fields of `W0` (R51). -/
def headerOf (w0 : Word) : Header where
  op := w0.extractLsb' 0 4
  p0 := w0.getLsbD 4
  p1 := w0.getLsbD 5
  p2 := w0.getLsbD 6
  reserved7 := w0.getLsbD 7
  slot := w0.extractLsb' 8 8
  space := w0.extractLsb' 16 2
  reserved31 := w0.extractLsb' 18 14

/-- What remains to check of a command of one opcode, and the command itself: which presence bits it uses, whether it names
a space (`CTX_*`), whether it names a slot, its format (R55). -/
structure Shape where
  usesP1 : Bool
  usesP2 : Bool
  usesSpace : Bool
  usesSlot : Bool
  format : Format
deriving DecidableEq, Repr

/-- Conditions (2) to (5) and (7) of R57 for a command of a given shape: the first that is broken, if any. -/
def checkShape (sh : Shape) (h : Header) (w1 w2 : Word) : Option DecodeError :=
  if h.reserved7 || h.reserved31 != 0#14 then some .reservedBit
  else if (!sh.usesP1 && h.p1) || (!sh.usesP2 && h.p2) then some .unusedPresence
  else if (if sh.usesSpace then h.space == 2#2 || h.space == 3#2 else h.space != 0#2) then some .badSpace
  else if !sh.usesSlot && h.slot != 0#8 then some .badSlot
  else if !sh.format.lengthsOk w1 w2 then some .unusedLength
  else none

/-- The context space of a checked header: 0 or 1 (R51). -/
def spaceOf (b : BitVec 2) : Space := if b == 0#2 then .keySched else .hash

/-- The shape of the command of each opcode, and how its fields make the command (R54, R55); `none` for the reserved opcodes
0x0, 0xE and 0xF. -/
def commandOf (h : Header) (w1 w2 : Word) : Option (Shape × Instr) :=
  match h.op.toNat with
  | 0x1 => some (⟨true, false, false, true, .f0⟩, .aesSetEncKey h.p0 h.p1 h.slot)
  | 0x2 => some (⟨true, false, false, true, .f0⟩, .aesSetDecKey h.p0 h.p1 h.slot)
  | 0x3 => some (⟨true, true, false, true, .f0⟩, .aesEncBlock h.p0 h.p1 h.p2 h.slot)
  | 0x4 => some (⟨true, true, false, true, .f0⟩, .aesDecBlock h.p0 h.p1 h.p2 h.slot)
  | 0x5 => some (⟨false, false, false, true, .f0⟩, .shaInit h.p0 h.slot)
  | 0x6 => some (⟨true, false, false, true, .f1⟩, .shaUpdate h.p0 h.p1 h.slot w1)
  | 0x7 => some (⟨true, false, false, true, .f0⟩, .shaFinal h.p0 h.p1 h.slot)
  | 0x8 => some (⟨true, true, false, false, .f2⟩, .drbgInit h.p0 h.p1 h.p2 w1 w2)
  | 0x9 => some (⟨true, true, false, false, .f2⟩, .drbgReseed h.p0 h.p1 h.p2 w1 w2)
  | 0xA => some (⟨true, true, false, false, .f2⟩, .drbgGenerate h.p0 h.p1 h.p2 w1 w2)
  | 0xB => some (⟨false, false, false, false, .f0⟩, .drbgUninst h.p0)
  | 0xC => some (⟨false, false, true, true, .f2⟩, .ctxRead h.p0 (spaceOf h.space) h.slot w1 w2)
  | 0xD => some (⟨false, false, true, true, .f0⟩, .ctxZero h.p0 (spaceOf h.space) h.slot)
  | _ => none

/-- The command three words stand for, or the first of R57's conditions (1) to (5) and (7) they break. Conditions (6) and
(8), which depend on N_KS and N_SHA, are checked when the command runs, with the same response (assumption log 10). -/
def decode (w0 w1 w2 : Word) : Except DecodeError Instr :=
  let h := headerOf w0
  match commandOf h w1 w2 with
  | none => .error .reservedOpcode
  | some (sh, i) =>
    match checkShape sh h w1 w2 with
    | some e => .error e
    | none => .ok i

/-! ## Encoding -/

/-- The header word with these fields, its reserved bits 0 (R51). -/
def headerWord (op : BitVec 4) (p0 p1 p2 : Bool) (slot : BitVec 8) (space : BitVec 2) : Word :=
  0#14 ++ space ++ slot ++ 0#1 ++ BitVec.ofBool p2 ++ BitVec.ofBool p1 ++ BitVec.ofBool p0 ++ op

/-- The number of a context space in the header (R51). -/
def spaceBits : Space → BitVec 2
  | .keySched => 0#2
  | .hash => 1#2

/-- The three words `W0`, `W1`, `W2` of a command. -/
structure CmdWords where
  w0 : Word
  w1 : Word
  w2 : Word
deriving DecidableEq, Repr

/-- The words of a command (R50 to R55): unused fields are 0. -/
def encode : Instr → CmdWords
  | .aesSetEncKey p0 p1 slot => ⟨headerWord 0x1#4 p0 p1 false slot 0#2, 0#32, 0#32⟩
  | .aesSetDecKey p0 p1 slot => ⟨headerWord 0x2#4 p0 p1 false slot 0#2, 0#32, 0#32⟩
  | .aesEncBlock p0 p1 p2 slot => ⟨headerWord 0x3#4 p0 p1 p2 slot 0#2, 0#32, 0#32⟩
  | .aesDecBlock p0 p1 p2 slot => ⟨headerWord 0x4#4 p0 p1 p2 slot 0#2, 0#32, 0#32⟩
  | .shaInit p0 slot => ⟨headerWord 0x5#4 p0 false false slot 0#2, 0#32, 0#32⟩
  | .shaUpdate p0 p1 slot lenA => ⟨headerWord 0x6#4 p0 p1 false slot 0#2, lenA, 0#32⟩
  | .shaFinal p0 p1 slot => ⟨headerWord 0x7#4 p0 p1 false slot 0#2, 0#32, 0#32⟩
  | .drbgInit p0 p1 p2 lenA lenB => ⟨headerWord 0x8#4 p0 p1 p2 0#8 0#2, lenA, lenB⟩
  | .drbgReseed p0 p1 p2 lenA lenB => ⟨headerWord 0x9#4 p0 p1 p2 0#8 0#2, lenA, lenB⟩
  | .drbgGenerate p0 p1 p2 lenA lenB => ⟨headerWord 0xA#4 p0 p1 p2 0#8 0#2, lenA, lenB⟩
  | .drbgUninst p0 => ⟨headerWord 0xB#4 p0 false false 0#8 0#2, 0#32, 0#32⟩
  | .ctxRead p0 space slot lenA lenB => ⟨headerWord 0xC#4 p0 false false slot (spaceBits space), lenA, lenB⟩
  | .ctxZero p0 space slot => ⟨headerWord 0xD#4 p0 false false slot (spaceBits space), 0#32, 0#32⟩

/-- The name of a command in the opcode map (R54). -/
def Instr.mnemonic : Instr → String
  | .aesSetEncKey _ _ _ => "AES_SET_ENC_KEY"
  | .aesSetDecKey _ _ _ => "AES_SET_DEC_KEY"
  | .aesEncBlock _ _ _ _ => "AES_ENC_BLOCK"
  | .aesDecBlock _ _ _ _ => "AES_DEC_BLOCK"
  | .shaInit _ _ => "SHA_INIT"
  | .shaUpdate _ _ _ _ => "SHA_UPDATE"
  | .shaFinal _ _ _ => "SHA_FINAL"
  | .drbgInit _ _ _ _ _ => "DRBG_INIT"
  | .drbgReseed _ _ _ _ _ => "DRBG_RESEED"
  | .drbgGenerate _ _ _ _ _ => "DRBG_GENERATE"
  | .drbgUninst _ => "DRBG_UNINST"
  | .ctxRead _ _ _ _ _ => "CTX_READ"
  | .ctxZero _ _ _ => "CTX_ZERO"

/-! ## A command as one number, as spec/opcode_table.json numbers its bits -/

/-- The three words of the command whose bits are `w`: bit 0 is the least significant bit of `W0`, `W1` starts at bit 32,
`W2` at bit 64, and every bit from `nbits` up is 0 (assumption log 9). -/
def tableWords (nbits w : Nat) : CmdWords :=
  let m := w % 2 ^ nbits
  ⟨BitVec.ofNat 32 m, BitVec.ofNat 32 (m >>> 32), BitVec.ofNat 32 (m >>> 64)⟩

/-- The command `decode` reads from a word of the opcode table, if it accepts it. -/
def decodeTableWord (nbits w : Nat) : Option Instr :=
  let c := tableWords nbits w
  match decode c.w0 c.w1 c.w2 with
  | .ok i => some i
  | .error _ => none

end Sys2Proof
end

