-- ==== Sys2Proof/Machine/Sequencer.lean ====
section
/-! DEFINITION. Step (1) and the decoding half of step (2) of the life of a command (R31): taking the three command words from
CMD, in the order they are offered, and going on with a command that waits for operand bytes or for a receiver. -/

namespace Sys2Proof.Machine

/-- What the sequencer does next. -/
inductive Fetch where
  /-- The three words of a command are not all there: the block keeps those it has taken and waits (R31, R193). -/
  | waits (s : State)
  /-- The words are no command (R57 conditions 1 to 5 and 7). -/
  | rejects (s : State)
  /-- The transactions a command still had to make are made: it is done. -/
  | sends (s : State)
  /-- The command to run, and the state it runs from: its words taken, the sequencer idle. -/
  | runs (i : Instr) (s : State)
deriving DecidableEq, Repr

/-- The sequencer with `taken` words taken of those there: `taken ++ s.cmd` is what is there to be taken. -/
def fetchWords (s : State) : List Word → Fetch
  | [] => .waits { s with seq := .idle, cmd := [] }
  | [w0] => .waits { s with seq := .gotOne w0, cmd := [] }
  | [w0, w1] => .waits { s with seq := .gotTwo w0 w1, cmd := [] }
  | w0 :: w1 :: w2 :: rest =>
    let t := { s with seq := .idle, cmd := rest }
    match decode w0 w1 w2 with
    | .ok i => .runs i t
    | .error _ => .rejects t

/-- The next thing the sequencer does. A command that waits on OPD goes on with the bytes it had taken and those offered
since, and one that waits for a receiver with the transactions left; no command word is taken before it is done (R31). -/
def fetch (s : State) : Fetch :=
  match s.seq with
  | .idle => fetchWords s s.cmd
  | .gotOne w0 => fetchWords s (w0 :: s.cmd)
  | .gotTwo w0 w1 => fetchWords s (w0 :: w1 :: s.cmd)
  | .operands i taken => .runs i { s with seq := .idle, opd := taken ++ s.opd }
  | .sending rest => .sends { s with seq := .idle, out := s.out ++ rest }

/-- The operand bytes to offer with three words so that the command runs at once: as many zeros as it takes (R56). -/
def zeroOperands (c : CmdWords) : List Byte :=
  match decode c.w0 c.w1 c.w2 with
  | .ok i => List.replicate (operandBytes i) 0#8
  | .error _ => []

/-- A command placed at the front of what the host offers, with zero operand bytes, the sequencer idle, `rst` low and every
receiver ready, so that it is what the next step runs (assumption log 8). -/
def State.offer (s : State) (c : CmdWords) : State :=
  { s with
    seq := .idle
    rst := .low
    cmd := c.w0 :: c.w1 :: c.w2 :: s.cmd
    opd := zeroOperands c ++ s.opd
    takes := Takes.all }

end Sys2Proof.Machine
end

