-- ==== Sys2Proof/Machine/Step.lean ====
section
/-! DEFINITION. One step of the machine: the block in reset, or the sequencer waiting, or one command from its words to its
response (R31, R39), as far as the ports let it. -/

namespace Sys2Proof.Machine

/-- One step with `rst` not asserted and every receiver ready: what the sequencer does next, and, if that is a command, its
meaning. -/
def stepRunning (s : State) : Host.Outcome State Fault Refusal :=
  match fetch s with
  | .waits t => .next t
  | .rejects t => .next (t.respond .illegal 0)
  | .sends t => .next t
  | .runs i t => exec i t

/-- One step. While `rst` is asserted the block takes the reset state (R190); a reset that falls inside the step cuts it off
where it falls (R191), and a receiver that does not take an item holds it up there (R30). -/
def step (s : State) : Host.Outcome State Fault Refusal :=
  match s.rst with
  | .high => .next s.toReset
  | _ =>
    match stepRunning s with
    | .next t => .next (s.meetPorts t)
    | .fault f => .fault f
    | .refused r => .refused r

/-- `s` with the command whose table bits are `w` (every bit from `nbits` up zero) offered on CMD, with zero operand bytes on
OPD, so that the next step runs it (assumption log 8). -/
def State.withFetchWord (s : State) (nbits w : Nat) : State := s.offer (tableWords nbits w)

end Sys2Proof.Machine
end

