-- ==== Sys2Proof/Safety.lean ====
section
/-! DEFINITION. The terms the claims about TCCORE are made in: the invariant of the block's state, which slot a command names,
what a list of port transactions says, and the functions of the standards that the engines are held against. TCCORE has no
fault, so a safe run is one that keeps the invariant. -/

namespace Sys2Proof.Machine

/-! ## The port of a transaction (R30) -/

/-- Whether a transaction is on RS. -/
def PortEvent.isSampler : PortEvent → Bool
  | .rs _ => true
  | .res _ => false
  | .rsp _ => false

/-- Whether a transaction is on RES: a result byte. -/
def PortEvent.isResult : PortEvent → Bool
  | .rs _ => false
  | .res _ => true
  | .rsp _ => false

/-- Whether a transaction is on RSP: a word of a response. -/
def PortEvent.isResponse : PortEvent → Bool
  | .rs _ => false
  | .res _ => false
  | .rsp _ => true

/-! ## The invariant of the state -/

/-- What a key-schedule slot can hold (R12, R13, R14): zeros, the encrypt schedule of a key, or its decrypt schedule. -/
def ScheduleOrZero (ks : KeySched) : Prop :=
  ks = zeroSched ∨ ∃ key : Block, ks = keyExpand key ∨ ks = decKey (keyExpand key)

/-- `BITS` counts whole blocks (R16). -/
abbrev WholeBlocks (c : HashSlot) : Prop := c.bits.toNat % 512 = 0

/-- A command waits on OPD only when it is legal and lacks operand bytes (R31, R199), and for a receiver only with transactions
to make: the rest of its response, or transactions that end in its one response (R58, R203). -/
def Seq.wellFormed (nKs nSha : Nat) : Seq → Prop
  | .idle => True
  | .gotOne _ => True
  | .gotTwo _ _ => True
  | .operands i taken => paramLegal nKs nSha i = true ∧ taken.length < operandBytes i
  | .sending rest => (∃ r1, rest = [.rsp r1]) ∨
    ∃ made r0 r1, rest = made ++ [.rsp r0, .rsp r1] ∧ ∀ e ∈ made, e.isResponse = false

/-- The invariant every step keeps: legal slot counts (R6), every key-schedule slot zero or a schedule (R14), every bit
counter a whole number of blocks (R16), a sequencer that waits only where it may (R30, R199). -/
structure State.Inv (s : State) : Prop where
  params : paramsWellFormed s.nKs s.nSha = true
  schedules : ∀ k ∈ s.ks, ScheduleOrZero k
  counters : ∀ c ∈ s.sha, WholeBlocks c
  sequencer : s.seq.wellFormed s.nKs s.nSha

/-! ## What the words of a command say (R51, R55) -/

/-- The fields of a command are those of its three words, where R51 and R55 put them: `P0`, `P1`, `P2` in bits 4, 5, 6 of `W0`, the
slot in bits 15 to 8, the space in bits 17 and 16, `LEN_A` in `W1`, `LEN_B` in `W2`. -/
def fieldsFrom (w0 w1 w2 : Word) : Instr → Prop
  | .aesSetEncKey p0 p1 slot => p0 = w0.getLsbD 4 ∧ p1 = w0.getLsbD 5 ∧ slot = w0.extractLsb' 8 8
  | .aesSetDecKey p0 p1 slot => p0 = w0.getLsbD 4 ∧ p1 = w0.getLsbD 5 ∧ slot = w0.extractLsb' 8 8
  | .aesEncBlock p0 p1 p2 slot =>
    p0 = w0.getLsbD 4 ∧ p1 = w0.getLsbD 5 ∧ p2 = w0.getLsbD 6 ∧ slot = w0.extractLsb' 8 8
  | .aesDecBlock p0 p1 p2 slot =>
    p0 = w0.getLsbD 4 ∧ p1 = w0.getLsbD 5 ∧ p2 = w0.getLsbD 6 ∧ slot = w0.extractLsb' 8 8
  | .shaInit p0 slot => p0 = w0.getLsbD 4 ∧ slot = w0.extractLsb' 8 8
  | .shaUpdate p0 p1 slot lenA => p0 = w0.getLsbD 4 ∧ p1 = w0.getLsbD 5 ∧ slot = w0.extractLsb' 8 8 ∧ lenA = w1
  | .shaFinal p0 p1 slot => p0 = w0.getLsbD 4 ∧ p1 = w0.getLsbD 5 ∧ slot = w0.extractLsb' 8 8
  | .drbgInit p0 p1 p2 lenA lenB =>
    p0 = w0.getLsbD 4 ∧ p1 = w0.getLsbD 5 ∧ p2 = w0.getLsbD 6 ∧ lenA = w1 ∧ lenB = w2
  | .drbgReseed p0 p1 p2 lenA lenB =>
    p0 = w0.getLsbD 4 ∧ p1 = w0.getLsbD 5 ∧ p2 = w0.getLsbD 6 ∧ lenA = w1 ∧ lenB = w2
  | .drbgGenerate p0 p1 p2 lenA lenB =>
    p0 = w0.getLsbD 4 ∧ p1 = w0.getLsbD 5 ∧ p2 = w0.getLsbD 6 ∧ lenA = w1 ∧ lenB = w2
  | .drbgUninst p0 => p0 = w0.getLsbD 4
  | .ctxRead p0 space slot lenA lenB =>
    p0 = w0.getLsbD 4 ∧ space = (if w0.getLsbD 16 then .hash else .keySched) ∧ slot = w0.extractLsb' 8 8 ∧
      lenA = w1 ∧ lenB = w2
  | .ctxZero p0 space slot =>
    p0 = w0.getLsbD 4 ∧ space = (if w0.getLsbD 16 then .hash else .keySched) ∧ slot = w0.extractLsb' 8 8

/-! ## Which slot a command names (R55) -/

/-- The key-schedule slot a command names, if it names one. -/
def namedKs : Instr → Option (BitVec 8)
  | .aesSetEncKey _ _ slot => some slot
  | .aesSetDecKey _ _ slot => some slot
  | .aesEncBlock _ _ _ slot => some slot
  | .aesDecBlock _ _ _ slot => some slot
  | .shaInit _ _ => none
  | .shaUpdate _ _ _ _ => none
  | .shaFinal _ _ _ => none
  | .drbgInit _ _ _ _ _ => none
  | .drbgReseed _ _ _ _ _ => none
  | .drbgGenerate _ _ _ _ _ => none
  | .drbgUninst _ => none
  | .ctxRead _ space slot _ _ => if space = .keySched then some slot else none
  | .ctxZero _ space slot => if space = .keySched then some slot else none

/-- The hash slot a command names, if it names one. -/
def namedSha : Instr → Option (BitVec 8)
  | .aesSetEncKey _ _ _ => none
  | .aesSetDecKey _ _ _ => none
  | .aesEncBlock _ _ _ _ => none
  | .aesDecBlock _ _ _ _ => none
  | .shaInit _ slot => some slot
  | .shaUpdate _ _ slot _ => some slot
  | .shaFinal _ _ slot => some slot
  | .drbgInit _ _ _ _ _ => none
  | .drbgReseed _ _ _ _ _ => none
  | .drbgGenerate _ _ _ _ _ => none
  | .drbgUninst _ => none
  | .ctxRead _ space slot _ _ => if space = .hash then some slot else none
  | .ctxZero _ space slot => if space = .hash then some slot else none

/-- The commands that write a key-schedule slot (R14). -/
def writesKs : Instr → Bool
  | .aesSetEncKey _ _ _ => true
  | .aesSetDecKey _ _ _ => true
  | .aesEncBlock _ _ _ _ => false
  | .aesDecBlock _ _ _ _ => false
  | .shaInit _ _ => false
  | .shaUpdate _ _ _ _ => false
  | .shaFinal _ _ _ => false
  | .drbgInit _ _ _ _ _ => false
  | .drbgReseed _ _ _ _ _ => false
  | .drbgGenerate _ _ _ _ _ => false
  | .drbgUninst _ => false
  | .ctxRead _ _ _ _ _ => false
  | .ctxZero _ space _ => decide (space = .keySched)

/-- The commands that write a hash slot (R17). -/
def writesSha : Instr → Bool
  | .aesSetEncKey _ _ _ => false
  | .aesSetDecKey _ _ _ => false
  | .aesEncBlock _ _ _ _ => false
  | .aesDecBlock _ _ _ _ => false
  | .shaInit _ _ => true
  | .shaUpdate _ _ _ _ => true
  | .shaFinal _ _ _ => true
  | .drbgInit _ _ _ _ _ => false
  | .drbgReseed _ _ _ _ _ => false
  | .drbgGenerate _ _ _ _ _ => false
  | .drbgUninst _ => false
  | .ctxRead _ _ _ _ _ => false
  | .ctxZero _ space _ => decide (space = .hash)

/-- The commands that make sampler transactions (R141, R147: `DRBG_UNINST` makes none). -/
def usesSampler : Instr → Bool
  | .aesSetEncKey _ _ _ => false
  | .aesSetDecKey _ _ _ => false
  | .aesEncBlock _ _ _ _ => false
  | .aesDecBlock _ _ _ _ => false
  | .shaInit _ _ => false
  | .shaUpdate _ _ _ _ => false
  | .shaFinal _ _ _ => false
  | .drbgInit _ _ _ _ _ => true
  | .drbgReseed _ _ _ _ _ => true
  | .drbgGenerate _ _ _ _ _ => true
  | .drbgUninst _ => false
  | .ctxRead _ _ _ _ _ => false
  | .ctxZero _ _ _ => false

/-! ## What a list of port transactions says -/

/-- The transactions `added`, made after the RS transactions `base`, carry the answers the sampler `S` gives there. -/
def answeredBy (S : Sampler) (base : List RsEvent) : List RsEvent → Prop
  | [] => True
  | .seed b :: rest => answeredBy S (base ++ [.seed b]) rest
  | .test a :: rest => a = S.test base ∧ answeredBy S (base ++ [.test a]) rest
  | .sample b :: rest => b = S.sample base ∧ answeredBy S (base ++ [.sample b]) rest

/-- The RS transactions carry the answers a sampler in the form of R142 gives from the hidden state `sg`. -/
def SamplerRecord.gives {Sigma : Type} (R : SamplerRecord Sigma) (sg : Sigma) : List RsEvent → Prop
  | [] => True
  | .seed b :: rest => R.gives (R.seed sg b) rest
  | .test a :: rest => a = (R.test sg).2 ∧ R.gives (R.test sg).1 rest
  | .sample b :: rest => b = (R.sample sg).2 ∧ R.gives (R.sample sg).1 rest

/-- Commands run one after another, each from the state the one before left, stopping where one does not answer a next
state (R40). -/
def runCommands : List Instr → State → Host.Outcome State Fault Refusal
  | [], s => .next s
  | i :: rest, s =>
    match exec i s with
    | .next t => runCommands rest t
    | .fault f => .fault f
    | .refused r => .refused r

/-! ## What the engines are held against -/

/-- `ks` is the encrypt schedule of `key`, byte by byte as R101 writes it: round key 0 is the key; in each further round key
the first four bytes are the previous round key's first four, the last four rotated and substituted, and the round constant
in the first byte only; every other byte is the byte four before it exclusive-ored with the previous round key's. -/
def IsEncSchedule (key : Block) (ks : KeySched) : Prop :=
  schedRoundKey ks 0 = key ∧
  ∀ i : Fin 10,
    let prev := schedRoundKey ks i.castSucc
    let new := schedRoundKey ks i.succ
    new[0] = prev[0] ^^^ sbox prev[13] ^^^ rcon (i.val + 1) ∧
    new[1] = prev[1] ^^^ sbox prev[14] ∧
    new[2] = prev[2] ^^^ sbox prev[15] ∧
    new[3] = prev[3] ^^^ sbox prev[12] ∧
    ∀ k : Fin 12, new[k.val + 4]'(by have := k.isLt; omega) =
      new[k.val]'(by have := k.isLt; omega) ^^^ prev[k.val + 4]'(by have := k.isLt; omega)

/-- `dks` is the decrypt schedule made from `ks` as R102 writes it: round keys 0 and 10 the same, every column of round keys
1 to 9 put through INVMIXCOL. -/
def IsDecSchedule (ks dks : KeySched) : Prop :=
  schedRoundKey dks 0 = schedRoundKey ks 0 ∧
  schedRoundKey dks 10 = schedRoundKey ks 10 ∧
  ∀ i : Fin 11, 1 ≤ i.val → i.val ≤ 9 → ∀ c : Fin 4,
    column (schedRoundKey dks i) c = invMixCol (column (schedRoundKey ks i) c)

/-- Row `r` of column `c` of a block after SUBBYTES and SHIFTROWS (R103, R104). -/
def subShifted (s : Block) (r c : Fin 4) : Byte :=
  sbox (s[r.val + 4 * ((c.val + r.val) % 4)]'(by have := r.isLt; omega))

/-- Row `r` of column `c` of a block after INVSUBBYTES and INVSHIFTROWS (R103, R104). -/
def invSubShifted (s : Block) (r c : Fin 4) : Byte :=
  invSbox (s[r.val + 4 * ((c.val + 4 - r.val) % 4)]'(by have := r.isLt; omega))

/-- `out` is CIPHER of `inp` under `ks`, byte by byte as R108 writes it with R103 to R107: `s i` is the state after round key `i` is
added; each full round weighs the rows of a column by 2, 3, 1, 1 from the byte's own row on, and the last round does not. -/
def IsCipher (inp : Block) (ks : KeySched) (out : Block) : Prop :=
  ∃ s : Fin 11 → Block,
    (∀ k : Fin 16, (s 0)[k] = inp[k] ^^^ ks[k.val]) ∧
    (∀ (i : Fin 9) (r c : Fin 4),
      (s i.succ.castSucc)[r.val + 4 * c.val] =
        gmul (subShifted (s i.castSucc.castSucc) r c) 2#8 ^^^ gmul (subShifted (s i.castSucc.castSucc) (r + 1) c) 3#8 ^^^
          subShifted (s i.castSucc.castSucc) (r + 2) c ^^^ subShifted (s i.castSucc.castSucc) (r + 3) c ^^^
          ks[16 * (i.val + 1) + (r.val + 4 * c.val)]) ∧
    (∀ r c : Fin 4, (s 10)[r.val + 4 * c.val] = subShifted (s 9) r c ^^^ ks[160 + (r.val + 4 * c.val)]) ∧
    out = s 10

/-- `out` is INVCIPHER of `inp` under `dks`, byte by byte as R109 writes it with R103 to R107: `s i` is the state after round key `i`
is added, from 10 down; each full round weighs the rows of a column by 14, 11, 13, 9 from the byte's own row on. -/
def IsInvCipher (inp : Block) (dks : KeySched) (out : Block) : Prop :=
  ∃ s : Fin 11 → Block,
    (∀ k : Fin 16, (s 10)[k] = inp[k] ^^^ dks[160 + k.val]) ∧
    (∀ (i : Fin 9) (r c : Fin 4),
      (s i.succ.castSucc)[r.val + 4 * c.val] =
        gmul (invSubShifted (s i.succ.succ) r c) 14#8 ^^^ gmul (invSubShifted (s i.succ.succ) (r + 1) c) 11#8 ^^^
          gmul (invSubShifted (s i.succ.succ) (r + 2) c) 13#8 ^^^ gmul (invSubShifted (s i.succ.succ) (r + 3) c) 9#8 ^^^
          dks[16 * (i.val + 1) + (r.val + 4 * c.val)]) ∧
    (∀ r c : Fin 4, (s 0)[r.val + 4 * c.val] = invSubShifted (s 1) r c ^^^ dks[r.val + 4 * c.val]) ∧
    out = s 0

/-- The byte of a hash slot's image at offset `off`, by the table of R37: the words of `H` and `BITS` most
significant byte first, `BUF`, and `OFF` with its two upper bits 0. -/
def hashImageByte (c : HashSlot) (off : Fin 105) : Byte :=
  if h : off.val < 32 then
    ((c.h[off.val / 4]'(by omega)) >>> (8 * (3 - off.val % 4))).setWidth 8
  else if h : off.val < 96 then c.buf[off.val - 32]'(by omega)
  else if off.val = 96 then 0#2 ++ c.off
  else (c.bits >>> (8 * (104 - off.val))).setWidth 8

/-- `out` is COMPRESS of the running hash `h` and the block `B`, as R120 to R122 write it with R83 and R84: `w` is the message schedule,
and `v t` the eight working variables `a` to `hh` after `t` rounds. -/
def IsCompress (h : HashWords) (B : HashBlock) (out : HashWords) : Prop :=
  ∃ (w : Fin 64 → Word) (v : Fin 65 → HashWords),
    (∀ t : Fin 16, w ⟨t.val, by omega⟩ =
      be32 (B[4 * t.val]) (B[4 * t.val + 1]) (B[4 * t.val + 2]) (B[4 * t.val + 3])) ∧
    (∀ t : Fin 48,
      let x := w ⟨t.val + 14, by omega⟩
      let y := w ⟨t.val + 1, by omega⟩
      w ⟨t.val + 16, by omega⟩ =
        (rotr32 x 17 ^^^ rotr32 x 19 ^^^ x >>> 10) + w ⟨t.val + 9, by omega⟩ +
          (rotr32 y 7 ^^^ rotr32 y 18 ^^^ y >>> 3) + w ⟨t.val, by omega⟩) ∧
    v 0 = h ∧
    (∀ t : Fin 64,
      let r := v t.castSucc
      let t1 := r[7] + (rotr32 r[4] 6 ^^^ rotr32 r[4] 11 ^^^ rotr32 r[4] 25) + bmix r[4] r[5] r[6] .ch +
        k256.getD t.val 0#32 + w t
      let t2 := (rotr32 r[0] 2 ^^^ rotr32 r[0] 13 ^^^ rotr32 r[0] 22) + bmix r[0] r[1] r[2] .maj
      v t.succ = #v[t1 + t2, r[0], r[1], r[2], r[3] + t1, r[4], r[5], r[6]]) ∧
    ∀ i : Fin 8, out[i] = h[i] + (v 64)[i]

/-- The padded message of SHA-256 (R127): the message, the byte 0x80, zeros up to 8 bytes short of a whole number of blocks,
and the number of message bits modulo 2^64, most significant byte first. -/
def paddedMessage (m : List Byte) : List Byte :=
  m ++ [0x80#8] ++ List.replicate ((119 - m.length % 64) % 64) 0#8 ++ toBe64 (BitVec.ofNat 64 (8 * m.length))

/-- `n` compressions over a byte string, 64 bytes each, from a running hash. -/
def hashBlocks : Nat → HashWords → List Byte → HashWords
  | 0, h, _ => h
  | n + 1, h, bs => hashBlocks n (compress h (copyN 64 (bs.take 64))) (bs.drop 64)

/-- SHA-256 of a whole message, with no accumulator: the padded message compressed block by block from H_INIT, the words
serialised most significant byte first. -/
def sha256 (m : List Byte) : List Byte :=
  (hashBlocks ((paddedMessage m).length / 64) hInit (paddedMessage m)).toList.flatMap toBe32

end Sys2Proof.Machine
end

