-- ==== Sys2Proof/Certificates/Slice0/Obligations.lean ====
section
/-! DEFINITION. The statements about the machine, for the provers. A statement of a command's result gives the whole next state
as the old one with the fields that change, so it says the command's frame as well: every slot not written, the sequencer, the
ports and every earlier transaction are as before. They are about `exec`, which makes every transaction of the command; what a
receiver that is not ready does to them is said of `step`, in the second section. -/

open Sys2Proof Sys2Proof.Machine

/-! ## Encoding (spec 30_encoding.md) -/

/-- The words R60 writes out, every example of it, decode to the commands R60 gives there; and two words R57 rules out do not. -/
def Obligations.ExampleWordsDecode : Prop :=
  decode 0x00000031#32 0#32 0#32 = .ok (.aesSetEncKey true true 0#8) ∧
  decode 0x00000132#32 0#32 0#32 = .ok (.aesSetDecKey true true 1#8) ∧
  decode 0x00000073#32 0#32 0#32 = .ok (.aesEncBlock true true true 0#8) ∧
  decode 0x00000063#32 0#32 0#32 = .ok (.aesEncBlock false true true 0#8) ∧
  decode 0x00000174#32 0#32 0#32 = .ok (.aesDecBlock true true true 1#8) ∧
  decode 0x00000015#32 0#32 0#32 = .ok (.shaInit true 0#8) ∧
  decode 0x00000036#32 3#32 0#32 = .ok (.shaUpdate true true 0#8 3#32) ∧
  decode 0x00000016#32 3#32 0#32 = .ok (.shaUpdate true false 0#8 3#32) ∧
  decode 0x00000037#32 0#32 0#32 = .ok (.shaFinal true true 0#8) ∧
  decode 0x00000078#32 2#32 1#32 = .ok (.drbgInit true true true 2#32 1#32) ∧
  decode 0x00000038#32 2#32 0#32 = .ok (.drbgInit true true false 2#32 0#32) ∧
  decode 0x00000079#32 2#32 1#32 = .ok (.drbgReseed true true true 2#32 1#32) ∧
  decode 0x0000007a#32 1#32 3#32 = .ok (.drbgGenerate true true true 1#32 3#32) ∧
  decode 0x0000005a#32 0#32 4#32 = .ok (.drbgGenerate true false true 0#32 4#32) ∧
  decode 0x0000001b#32 0#32 0#32 = .ok (.drbgUninst true) ∧
  decode 0x0001001c#32 0#32 0x20#32 = .ok (.ctxRead true .hash 0#8 0#32 32#32) ∧
  decode 0x0000011c#32 0x10#32 0x10#32 = .ok (.ctxRead true .keySched 1#8 16#32 16#32) ∧
  decode 0x0000001d#32 0#32 0#32 = .ok (.ctxZero true .keySched 0#8) ∧
  decode 0x000000b1#32 0#32 0#32 = .error .reservedBit ∧
  decode 0x0000001e#32 0#32 0#32 = .error .reservedOpcode

/-- Decoding the words of any command gives the command back, with every operand at every value. -/
def Obligations.DecodeOfEncodeIsTheCommand : Prop :=
  ∀ i : Instr, decode (encode i).w0 (encode i).w1 (encode i).w2 = .ok i

/-- Words that decode are the words of the command they decode to: no command has two encodings. -/
def Obligations.EncodeOfDecodeIsTheWords : Prop :=
  ∀ (w0 w1 w2 : Word) (i : Instr), decode w0 w1 w2 = .ok i → encode i = ⟨w0, w1, w2⟩

/-- The decoder accepts exactly the words R54's map accepts: those whose header selects a row and whose unused length words
are 0; and the command it reads is that row's, each of its fields the bits of the words R51 and R55 give it. -/
def Obligations.DecoderAcceptsExactlyTheOpcodeMap : Prop :=
  ∀ w0 w1 w2 : Word,
    (∀ i, decode w0 w1 w2 = .ok i →
      fieldsFrom w0 w1 w2 i ∧
      ∃ r ∈ opcodeRows, r.mnemonic = i.mnemonic ∧ r.selects w0 = true ∧ r.format.lengthsOk w1 w2 = true) ∧
    (∀ r ∈ opcodeRows, r.selects w0 = true → r.format.lengthsOk w1 w2 = true → ∃ i, decode w0 w1 w2 = .ok i)

/-- No header selects two rows of R54's map. -/
def Obligations.OpcodeRowsAreDisjoint : Prop :=
  ∀ (w0 : Word), ∀ r ∈ opcodeRows, ∀ q ∈ opcodeRows, r.selects w0 = true → q.selects w0 = true → r = q

/-! ## Reset and the life of a command (spec 20_memory.md, 60_exceptions.md, 70_reset_and_hazards.md) -/

/-- The state after power-on (R24): every slot zero, the sequencer idle, nothing on any port. The slot counts of that state, its
empty port lists, `rst` not asserted and receivers that are ready are the model's choice (assumption logs 1, 2, 6 and 11). -/
def Obligations.PowerOnStateIsZeroAndIdle : Prop :=
  (∀ k ∈ State.reset.ks, ∀ n : Fin 176, k[n] = 0#8) ∧
  (∀ c ∈ State.reset.sha, (∀ n : Fin 8, c.h[n] = 0#32) ∧ (∀ n : Fin 64, c.buf[n] = 0#8) ∧ c.off = 0#6 ∧ c.bits = 0#64) ∧
  State.reset.seq = .idle ∧ State.reset.rst = .low ∧ State.reset.cmd = [] ∧ State.reset.opd = [] ∧ State.reset.out = [] ∧
  State.reset.takes = ⟨.all, .all, .all⟩

/-- While `rst` is asserted the block takes the reset state: every byte of every slot zero, the sequencer idle, with whatever it
had taken of a command (R190, R191), no transaction made on any port, RS among them (R192). That what the host still offers stays
offered is the model's reading (assumption log 7). -/
def Obligations.ResetInputZeroesEverySlot : Prop :=
  ∀ s : State, s.rst = .high →
    ∃ t, step s = .next t ∧ t.nKs = s.nKs ∧ t.nSha = s.nSha ∧
      (∀ k ∈ t.ks, ∀ n : Fin 176, k[n] = 0#8) ∧
      (∀ c ∈ t.sha, (∀ n : Fin 8, c.h[n] = 0#32) ∧ (∀ n : Fin 64, c.buf[n] = 0#8) ∧ c.off = 0#6 ∧ c.bits = 0#64) ∧
      t.seq = .idle ∧ t.out = s.out ∧ t.cmd = s.cmd ∧ t.opd = s.opd

/-- A reset that falls inside a command (R191), given as a count of transactions on the ports, which is the model's own device
(assumption log 6), beside the step `v` of the same state with `rst` left low. If that step makes more transactions than the count,
the command is abandoned after `n` of them: the words and operand bytes taken by then are lost, the transactions made stay made, and
every slot is zero whatever the command had written (R191). That the words and bytes not taken are still offered is the model's
reading (assumption log 7); so is that a response may be left half sent, so that R191's 'no response' is no complete response, at
most one of its words (assumption log 15). If not, the step is the same and the count goes down (assumption log 6). -/
def Obligations.ResetAbandonsTheRunningCommand : Prop :=
  ∀ (s v : State) (n : Nat), s.rst = .after n → step { s with rst := .low } = .next v → s.seq.wellFormed s.nKs s.nSha →
    let words := s.cmd.length - v.cmd.length
    let bytes := s.opd.length - v.opd.length
    let sent := v.out.length - s.out.length
    (n < words + bytes + sent →
      ∃ t made, step s = .next t ∧ t.cmd = s.cmd.drop (min n words) ∧ t.opd = s.opd.drop (min (n - words) bytes) ∧
        t.out = s.out ++ made ∧ made.length = n - (words + bytes) ∧ t.out <+: v.out ∧
        made.countP PortEvent.isResponse ≤ 1 ∧
        t.ks = List.replicate s.nKs zeroSched ∧ t.sha = List.replicate s.nSha HashSlot.zero ∧ t.seq = .idle ∧
        t.rst = .high) ∧
    (words + bytes + sent ≤ n → step s = .next { v with rst := .after (n - (words + bytes + sent)) })

/-- When the three words offered decode to a command, the step is that command's meaning on the state with the words taken, where
every receiver is ready (R31). Where one is not, the command waits there (R30); the form of that in the second clause is the model's
(assumption log 11): the meaning's transactions are made up to the first that is not taken, the sequencer keeps the others, and what
the command writes is in place already. -/
def Obligations.StepRunsTheDecodedCommand : Prop :=
  ∀ (s : State) (w0 w1 w2 : Word) (rest : List Word) (i : Instr),
    s.rst = .low → s.seq = .idle → s.cmd = w0 :: w1 :: w2 :: rest → decode w0 w1 w2 = .ok i →
    (s.takes = Takes.all → step s = exec i { s with cmd := rest }) ∧
    ∃ t, exec i { s with cmd := rest } = .next t ∧
      step s = .next (s.deliver t (passed s.takes (t.out.drop s.out.length)))

/-- A host or sampler that takes only so many items makes the block wait at the first one not taken, and loses nothing (R30, R199).
The form is the model's (assumption log 11): the counts of what is taken, the items left in the sequencer, and the slots written while
items are still unsent. Beside the step `u` of the same state where everything is taken: with `k` taken instead, the step makes the transactions `sent` of
that step's, never more on a port than are taken there, and keeps those `left` to send, the first of them on a port where all that
are taken have been sent; it leaves the slots and takes the words and bytes as there; and, once everything is taken, the next step
leads to `u`. -/
def Obligations.ReceiversMayTakeItemsInParts : Prop :=
  ∀ (s u : State) (k : Takes), s.rst = .low → step { s with takes := Takes.all } = .next u →
    ∃ t sent left, step { s with takes := k } = .next t ∧
      u.out = s.out ++ sent ++ left ∧ t.out = s.out ++ sent ∧
      t.ks = u.ks ∧ t.sha = u.sha ∧ t.cmd = u.cmd ∧ t.opd = u.opd ∧
      (∀ n, k.rs = .upTo n → sent.countP PortEvent.isSampler ≤ n) ∧
      (∀ n, k.res = .upTo n → sent.countP PortEvent.isResult ≤ n) ∧
      (∀ n, k.rsp = .upTo n → sent.countP PortEvent.isResponse ≤ n) ∧
      t.rst = .low ∧
      t.takes = ⟨k.rs.less (sent.countP PortEvent.isSampler), k.res.less (sent.countP PortEvent.isResult),
        k.rsp.less (sent.countP PortEvent.isResponse)⟩ ∧
      (left = [] → t.seq = u.seq) ∧
      (∀ e rest, left = e :: rest → t.seq = .sending left ∧
        ((e.isSampler = true ∧ k.rs = .upTo (sent.countP PortEvent.isSampler)) ∨
          (e.isResult = true ∧ k.res = .upTo (sent.countP PortEvent.isResult)) ∨
          (e.isResponse = true ∧ k.rsp = .upTo (sent.countP PortEvent.isResponse))) ∧
        step { t with takes := Takes.all } = .next u)

/-- Three words that are no command are answered `ST_ILLEGAL` with result length 0: nothing taken from OPD, no slot changed, no
other transaction (R57). Here the host takes the response; where it does not, `ReceiversMayTakeItemsInParts` says what happens. -/
def Obligations.WordsThatAreNoCommandAreAnsweredIllegal : Prop :=
  ∀ (s : State) (w0 w1 w2 : Word) (rest : List Word) (e : DecodeError),
    s.rst = .low → s.seq = .idle → s.cmd = w0 :: w1 :: w2 :: rest → decode w0 w1 w2 = .error e → s.takes.rsp = .all →
    step s = .next { s with cmd := rest, out := s.out ++ [.rsp 0x4#32, .rsp 0#32] }

/-- A command whose slot does not exist, or whose run leaves the image, is answered `ST_ILLEGAL` before anything else is looked
at (R57 conditions 6 and 8, R175): presence bits do not matter and no operand byte is taken. The conditions are written out, the
sum of offset and count with no wrap-around; the last clause adds that every command not legal by the model's table is answered
so. -/
def Obligations.ParameterIllegalCommandIsAnsweredIllegal : Prop :=
  ∀ (s : State) (p0 p1 p2 : Bool) (slot : BitVec 8) (lenA lenB : Word),
    let illegal : Host.Outcome State Fault Refusal := .next { s with out := s.out ++ [.rsp 0x4#32, .rsp 0#32] }
    (s.nKs ≤ slot.toNat →
      exec (.aesSetEncKey p0 p1 slot) s = illegal ∧ exec (.aesSetDecKey p0 p1 slot) s = illegal ∧
      exec (.aesEncBlock p0 p1 p2 slot) s = illegal ∧ exec (.aesDecBlock p0 p1 p2 slot) s = illegal ∧
      exec (.ctxRead p0 .keySched slot lenA lenB) s = illegal ∧ exec (.ctxZero p0 .keySched slot) s = illegal) ∧
    (s.nSha ≤ slot.toNat →
      exec (.shaInit p0 slot) s = illegal ∧ exec (.shaUpdate p0 p1 slot lenA) s = illegal ∧
      exec (.shaFinal p0 p1 slot) s = illegal ∧ exec (.ctxRead p0 .hash slot lenA lenB) s = illegal ∧
      exec (.ctxZero p0 .hash slot) s = illegal) ∧
    (176 < lenA.toNat + lenB.toNat → exec (.ctxRead p0 .keySched slot lenA lenB) s = illegal) ∧
    (105 < lenA.toNat + lenB.toNat → exec (.ctxRead p0 .hash slot lenA lenB) s = illegal) ∧
    (∀ i : Instr, i.wellFormed s.nKs s.nSha = false → exec i s = illegal)

/-- A legal command that lacks a required operand takes and discards the bytes of its present data operands and answers
`ST_FAIL_ABSENT` with result length 0; nothing else changes and the sampler is not touched (R171, R176). Which operands are required
is written out by command (R171), the data of `SHA_UPDATE` at every length, 0 among them, and an optional operand where its length is
not 0, and so are the bytes taken (R56); the last clause adds that every command that lacks an operand by the model's tables is
answered so. -/
def Obligations.AbsentOperandFailsWithoutEffect : Prop :=
  ∀ (s : State) (p0 p1 p2 : Bool) (slot : BitVec 8) (lenA lenB : Word),
    let absent : Nat → Host.Outcome State Fault Refusal := fun n =>
      .next { s with opd := s.opd.drop n, out := s.out ++ [.rsp 0x0#32, .rsp 0#32] }
    let key := if p0 then 16 else 0
    let inp := if p1 then 16 else 0
    let opA := if p1 then lenA.toNat else 0
    let opB := if p2 then lenB.toNat else 0
    (slot.toNat < s.nKs → p0 = false ∨ p1 = false → key ≤ s.opd.length →
      exec (.aesSetEncKey p0 p1 slot) s = absent key ∧ exec (.aesSetDecKey p0 p1 slot) s = absent key) ∧
    (slot.toNat < s.nKs → p0 = false ∨ p1 = false ∨ p2 = false → inp ≤ s.opd.length →
      exec (.aesEncBlock p0 p1 p2 slot) s = absent inp ∧ exec (.aesDecBlock p0 p1 p2 slot) s = absent inp) ∧
    (slot.toNat < s.nSha → exec (.shaInit false slot) s = absent 0) ∧
    (slot.toNat < s.nSha → p0 = false ∨ p1 = false → opA ≤ s.opd.length →
      exec (.shaUpdate p0 p1 slot lenA) s = absent opA) ∧
    (slot.toNat < s.nSha → p0 = false ∨ p1 = false → exec (.shaFinal p0 p1 slot) s = absent 0) ∧
    (p0 = false ∨ p1 = false ∨ p2 = false ∧ lenB ≠ 0#32 → opA + opB ≤ s.opd.length →
      exec (.drbgInit p0 p1 p2 lenA lenB) s = absent (opA + opB) ∧
      exec (.drbgReseed p0 p1 p2 lenA lenB) s = absent (opA + opB)) ∧
    (p0 = false ∨ p2 = false ∨ p1 = false ∧ lenA ≠ 0#32 → opA ≤ s.opd.length →
      exec (.drbgGenerate p0 p1 p2 lenA lenB) s = absent opA) ∧
    exec (.drbgUninst false) s = absent 0 ∧
    (slot.toNat < s.nKs → lenA.toNat + lenB.toNat ≤ 176 → exec (.ctxRead false .keySched slot lenA lenB) s = absent 0) ∧
    (slot.toNat < s.nSha → lenA.toNat + lenB.toNat ≤ 105 → exec (.ctxRead false .hash slot lenA lenB) s = absent 0) ∧
    (slot.toNat < s.nKs → exec (.ctxZero false .keySched slot) s = absent 0) ∧
    (slot.toNat < s.nSha → exec (.ctxZero false .hash slot) s = absent 0) ∧
    (∀ i : Instr, i.wellFormed s.nKs s.nSha = true → requiredPresent i = false → operandBytes i ≤ s.opd.length →
      exec i s = absent (operandBytes i))

/-- A legal command takes from OPD exactly the bytes of its present data operands; what is left is the next command's (R32,
R199). -/
def Obligations.SurplusOperandBytesAreLeft : Prop :=
  ∀ (i : Instr) (s : State), i.wellFormed s.nKs s.nSha = true → operandBytes i ≤ s.opd.length →
    ∃ t, exec i s = .next t ∧ t.opd = s.opd.drop (operandBytes i) ∧ t.cmd = s.cmd

/-- A legal command whose operand bytes are not all there makes no transaction and writes nothing; when the rest is offered it
runs as if all had been there at once (R31, R32; the waiting state is the model's reading, assumption logs 4 and 5). -/
def Obligations.OperandBytesMayArriveInParts : Prop :=
  ∀ (i : Instr) (s : State), i.wellFormed s.nKs s.nSha = true → s.opd.length < operandBytes i → s.seq = .idle →
    ∃ t, exec i s = .next t ∧ t.out = s.out ∧ t.ks = s.ks ∧ t.sha = s.sha ∧
      ∀ more : List Byte, stepRunning { t with opd := more } = exec i { s with opd := s.opd ++ more }

/-- A command the host leaves without its operand bytes waits for ever: the step changes nothing; and so does one whose next
transaction its receiver does not take, on whichever port (R30, R199, U14; there is no timeout; assumption logs 5 and 11). -/
def Obligations.StarvedCommandWaitsForEver : Prop :=
  (∀ (s : State) (i : Instr) (taken : List Byte), s.rst = .low → s.seq = .operands i taken →
    i.wellFormed s.nKs s.nSha = true → taken.length < operandBytes i → s.opd = [] →
    step s = .next s) ∧
  (∀ (s : State) (b : Byte) (rest : List PortEvent), s.rst = .low → s.seq = .sending (.res b :: rest) →
    s.takes.res = .upTo 0 → step s = .next s) ∧
  (∀ (s : State) (w : Word) (rest : List PortEvent), s.rst = .low → s.seq = .sending (.rsp w :: rest) →
    s.takes.rsp = .upTo 0 → step s = .next s) ∧
  (∀ (s : State) (r : RsEvent) (rest : List PortEvent), s.rst = .low → s.seq = .sending (.rs r :: rest) →
    s.takes.rs = .upTo 0 → step s = .next s)

/-- The words of a command may be offered in two parts: after the first part the block waits, unchanged on every port and slot,
and with the second it goes on as if it had been offered all of them (R31). -/
def Obligations.CommandWordsMayArriveInParts : Prop :=
  ∀ (s : State) (first more : List Word), s.rst = .low → s.seq = .idle → first.length < 3 →
    ∃ t, step { s with cmd := first } = .next t ∧ t.out = s.out ∧ t.opd = s.opd ∧ t.ks = s.ks ∧ t.sha = s.sha ∧
      step { t with cmd := more } = step { s with cmd := first ++ more }

/-- Every command that does not wait sends exactly one response, its two words as its last transactions; its status is one of the
five codes with the upper bits zero, and its length counts the result bytes the command emitted (R58, R170). -/
def Obligations.EveryCommandSendsOneCountedResponse : Prop :=
  ∀ (i : Instr) (s : State), (i.wellFormed s.nKs s.nSha = true → operandBytes i ≤ s.opd.length) →
    ∃ t made r0 r1, exec i s = .next t ∧ t.out = s.out ++ made ++ [.rsp r0, .rsp r1] ∧
      (∀ e ∈ made, e.isResponse = false) ∧ r0.toNat ≤ 4 ∧ r1.toNat = made.countP PortEvent.isResult

/-- Which commands can end with the two statuses that depend on the sampler (R170): self-test failure is the seeding commands',
generation failure is `DRBG_GENERATE`'s alone. -/
def Obligations.SamplerFailuresBelongToTheDrbg : Prop :=
  ∀ (i : Instr) (s t : State) (made : List PortEvent) (r0 r1 : Word),
    exec i s = .next t → t.out = s.out ++ made ++ [.rsp r0, .rsp r1] →
    (i.mnemonic ≠ "DRBG_INIT" → i.mnemonic ≠ "DRBG_RESEED" → r0 ≠ 0x2#32) ∧
    (i.mnemonic ≠ "DRBG_GENERATE" → r0 ≠ 0x3#32)

/-- A command that does not end with `ST_OK` leaves every slot, the sequencer and the rest of the block as they were (R176,
R178). -/
def Obligations.FailureLeavesTheBlockUnchanged : Prop :=
  ∀ (i : Instr) (s t : State) (made : List PortEvent) (r0 r1 : Word),
    exec i s = .next t → t.out = s.out ++ made ++ [.rsp r0, .rsp r1] → r0 ≠ 0x1#32 →
    t.ks = s.ks ∧ t.sha = s.sha ∧ t.seq = s.seq ∧ t.rst = s.rst ∧ t.cmd = s.cmd ∧ t.takes = s.takes

/-- The architectural no-ops (R59): `DRBG_UNINST`, `SHA_UPDATE` of length 0, `DRBG_GENERATE` with both lengths 0, and `CTX_READ` of
no bytes, each with its required operands present, answer `ST_OK` and do nothing else, in the block or at the sampler. -/
def Obligations.NoOpCommandsOnlyAnswer : Prop :=
  ∀ (s : State) (i : Instr), i.wellFormed s.nKs s.nSha = true →
    (i = .drbgUninst true ∨ (∃ slot, i = .shaUpdate true true slot 0#32) ∨
      (∃ p1, i = .drbgGenerate true p1 true 0#32 0#32) ∨ (∃ space slot lenA, i = .ctxRead true space slot lenA 0#32)) →
    exec i s = .next { s with out := s.out ++ [.rsp 0x1#32, .rsp 0#32] }

/-! ## What commands can touch (spec 10_state.md, 20_memory.md R43) -/

/-- Key-schedule slots are written only by `AES_SET_ENC_KEY`, `AES_SET_DEC_KEY` and `CTX_ZERO` on space 0, and of those slots
only the one the command names (R14, R43). -/
def Obligations.OnlyTheNamedScheduleIsWritten : Prop :=
  ∀ (i : Instr) (s t : State), exec i s = .next t →
    t.nKs = s.nKs ∧ (writesKs i = false → t.ks = s.ks) ∧
    ∀ slot : BitVec 8, namedKs i ≠ some slot → t.readKs slot = s.readKs slot

/-- Hash slots are written only by the SHA commands and `CTX_ZERO` on space 1, and of those slots only the one the command names
(R17, R43). -/
def Obligations.OnlyTheNamedHashSlotIsWritten : Prop :=
  ∀ (i : Instr) (s t : State), exec i s = .next t →
    t.nSha = s.nSha ∧ (writesSha i = false → t.sha = s.sha) ∧
    ∀ slot : BitVec 8, namedSha i ≠ some slot → t.readSha slot = s.readSha slot

/-- Sampler transactions are made only by `DRBG_INIT`, `DRBG_RESEED` and `DRBG_GENERATE` (R141, R147). -/
def Obligations.OnlySeedingAndGenerationUseTheSampler : Prop :=
  ∀ (i : Instr) (s t : State), exec i s = .next t → usesSampler i = false → rsHistory t.out = rsHistory s.out

/-- No command's result depends on anything but its operand bytes, the slot it names and the sampler (R204): on two states that
agree on these it makes the same transactions, takes the same bytes and leaves the same in the slot. That the sampler's answers
are fixed by its transactions so far is the model's form of it (assumption log 3). -/
def Obligations.ResultDependsOnlyOnTheNamedSlot : Prop :=
  ∀ (i : Instr) (s s' : State), s.nKs = s'.nKs → s.nSha = s'.nSha → s.opd = s'.opd →
    rsHistory s.out = rsHistory s'.out →
    (∀ slot, namedKs i = some slot → s.readKs slot = s'.readKs slot) →
    (∀ slot, namedSha i = some slot → s.readSha slot = s'.readSha slot) →
    ∃ t t' made, exec i s = .next t ∧ exec i s' = .next t' ∧ t.out = s.out ++ made ∧ t'.out = s'.out ++ made ∧
      t.opd = t'.opd ∧
      (∀ slot, namedKs i = some slot → t.readKs slot = t'.readKs slot) ∧
      (∀ slot, namedSha i = some slot → t.readSha slot = t'.readSha slot)

/-- The invariant holds after power-on; the slot counts of that state are the model's choice (assumption log 1). -/
def Obligations.PowerOnStateMeetsTheInvariant : Prop := State.reset.Inv

/-- Every step keeps the invariant: slot counts legal, every key-schedule slot zeros or a schedule of some key, every bit counter
a whole number of blocks, the sequencer waiting only for bytes a legal command lacks or for a receiver of what a command still
sends. The form of those two waits is the model's (assumption logs 4, 5 and 11). -/
def Obligations.EveryStepKeepsTheInvariant : Prop :=
  ∀ s t : State, s.Inv → step s = .next t → t.Inv

/-! ## AES (spec 41_aes.md) -/

/-- `AES_SET_ENC_KEY` (R110): the slot gets the encrypt schedule of the key, all 176 bytes, as R101 builds it byte by byte. -/
def Obligations.AesSetEncKeyWritesTheSchedule : Prop :=
  ∀ (s : State) (slot : BitVec 8) (key : Block) (rest : List Byte),
    slot.toNat < s.nKs → s.opd = key.toList ++ rest →
    ∃ ks : KeySched, IsEncSchedule key ks ∧
      exec (.aesSetEncKey true true slot) s = .next
        { s with ks := s.ks.set slot.toNat ks, opd := rest, out := s.out ++ [.rsp 0x1#32, .rsp 0#32] }

/-- `AES_SET_DEC_KEY` (R111): the slot gets the schedule R102 makes of the encrypt schedule of the key. -/
def Obligations.AesSetDecKeyWritesTheSchedule : Prop :=
  ∀ (s : State) (slot : BitVec 8) (key : Block) (rest : List Byte),
    slot.toNat < s.nKs → s.opd = key.toList ++ rest →
    ∃ ks dks : KeySched, IsEncSchedule key ks ∧ IsDecSchedule ks dks ∧
      exec (.aesSetDecKey true true slot) s = .next
        { s with ks := s.ks.set slot.toNat dks, opd := rest, out := s.out ++ [.rsp 0x1#32, .rsp 0#32] }

/-- `AES_ENC_BLOCK` (R112): 16 result bytes, CIPHER of the input under whatever the slot holds (R115); no slot is written. CIPHER is
R108's, round by round and byte by byte, and takes the block of R108's example to the one given there. -/
def Obligations.AesEncBlockEmitsTheCipher : Prop :=
  (∀ (s : State) (slot : BitVec 8) (inp : Block) (rest : List Byte),
    slot.toNat < s.nKs → s.opd = inp.toList ++ rest →
    IsCipher inp (s.readKs slot) (cipher inp (s.readKs slot)) ∧
    exec (.aesEncBlock true true true slot) s = .next
      { s with opd := rest,
               out := s.out ++ (cipher inp (s.readKs slot)).toList.map PortEvent.res ++ [.rsp 0x1#32, .rsp 16#32] }) ∧
  (let key : Block := #v[0x00#8, 0x01#8, 0x02#8, 0x03#8, 0x04#8, 0x05#8, 0x06#8, 0x07#8,
      0x08#8, 0x09#8, 0x0a#8, 0x0b#8, 0x0c#8, 0x0d#8, 0x0e#8, 0x0f#8]
    let plain : Block := #v[0x00#8, 0x11#8, 0x22#8, 0x33#8, 0x44#8, 0x55#8, 0x66#8, 0x77#8,
      0x88#8, 0x99#8, 0xaa#8, 0xbb#8, 0xcc#8, 0xdd#8, 0xee#8, 0xff#8]
    cipher plain (keyExpand key) =
      #v[0x69#8, 0xc4#8, 0xe0#8, 0xd8#8, 0x6a#8, 0x7b#8, 0x04#8, 0x30#8,
       0xd8#8, 0xcd#8, 0xb7#8, 0x80#8, 0x70#8, 0xb4#8, 0xc5#8, 0x5a#8])

/-- `AES_DEC_BLOCK` (R113): 16 result bytes, INVCIPHER of the input under whatever the slot holds (R115). INVCIPHER is R109's, round by
round and byte by byte, and takes the block of R109's example to the one given there. -/
def Obligations.AesDecBlockEmitsTheInverseCipher : Prop :=
  (∀ (s : State) (slot : BitVec 8) (inp : Block) (rest : List Byte),
    slot.toNat < s.nKs → s.opd = inp.toList ++ rest →
    IsInvCipher inp (s.readKs slot) (invCipher inp (s.readKs slot)) ∧
    exec (.aesDecBlock true true true slot) s = .next
      { s with opd := rest,
               out := s.out ++ (invCipher inp (s.readKs slot)).toList.map PortEvent.res ++ [.rsp 0x1#32, .rsp 16#32] }) ∧
  (let key : Block := #v[0x00#8, 0x01#8, 0x02#8, 0x03#8, 0x04#8, 0x05#8, 0x06#8, 0x07#8,
      0x08#8, 0x09#8, 0x0a#8, 0x0b#8, 0x0c#8, 0x0d#8, 0x0e#8, 0x0f#8]
    let coded : Block := #v[0x69#8, 0xc4#8, 0xe0#8, 0xd8#8, 0x6a#8, 0x7b#8, 0x04#8, 0x30#8,
      0xd8#8, 0xcd#8, 0xb7#8, 0x80#8, 0x70#8, 0xb4#8, 0xc5#8, 0x5a#8]
    invCipher coded (decKey (keyExpand key)) =
      #v[0x00#8, 0x11#8, 0x22#8, 0x33#8, 0x44#8, 0x55#8, 0x66#8, 0x77#8,
       0x88#8, 0x99#8, 0xaa#8, 0xbb#8, 0xcc#8, 0xdd#8, 0xee#8, 0xff#8])

/-- Decrypting what was encrypted, each under its own schedule of one key, gives the plaintext back (R114). -/
def Obligations.AesDecryptionInvertsEncryption : Prop :=
  ∀ key p : Block, invCipher (cipher p (keyExpand key)) (decKey (keyExpand key)) = p

/-- The round trip as four commands: two schedules of one key in two slots, a block encrypted with the first, and the result
bytes, offered again, decrypted with the second to the block (R114, R32). -/
def Obligations.AesRoundTripOfCommands : Prop :=
  ∀ (s : State) (e d : BitVec 8) (key p : Block), e ≠ d → e.toNat < s.nKs → d.toNat < s.nKs →
    s.opd = key.toList ++ key.toList ++ p.toList →
    ∃ t c, runCommands [.aesSetEncKey true true e, .aesSetDecKey true true d, .aesEncBlock true true true e] s = .next t ∧
      c.length = 16 ∧
      t.out = s.out ++ [.rsp 0x1#32, .rsp 0#32, .rsp 0x1#32, .rsp 0#32] ++ c.map PortEvent.res ++ [.rsp 0x1#32, .rsp 16#32] ∧
      exec (.aesDecBlock true true true d) { t with opd := c } = .next
        { t with opd := [], out := t.out ++ p.toList.map PortEvent.res ++ [.rsp 0x1#32, .rsp 16#32] }

/-- Under any 176 bytes as schedule, two blocks with one ciphertext are one block (R114: each round function is a bijection). -/
def Obligations.CipherIsInjectiveUnderAnySchedule : Prop :=
  ∀ (ks : KeySched) (p q : Block), cipher p ks = cipher q ks → p = q

/-- Row `r` of MIXCOL weighs the rows of the column from `r` on by 2, 3, 1, 1 (R105), and row `r` of INVMIXCOL by 14, 11, 13, 9 (R106);
MIXCOLUMNS and INVMIXCOLUMNS apply them to each column. INVMIXCOL undoes MIXCOL on every column, and both are linear over
exclusive-or (R106). -/
def Obligations.InvMixColUndoesMixColAndIsLinear : Prop :=
  (∀ (a : Col) (r : Fin 4),
    (mixCol a)[r] = gmul a[r] 2#8 ^^^ gmul a[r + 1] 3#8 ^^^ a[r + 2] ^^^ a[r + 3] ∧
    (invMixCol a)[r] = gmul a[r] 14#8 ^^^ gmul a[r + 1] 11#8 ^^^ gmul a[r + 2] 13#8 ^^^ gmul a[r + 3] 9#8) ∧
  (∀ (s : Block) (c : Fin 4), column (mixColumns s) c = mixCol (column s c) ∧
    column (invMixColumns s) c = invMixCol (column s c)) ∧
  (∀ a : Col, invMixCol (mixCol a) = a) ∧
  (∀ a b : Col, invMixCol (xorCol a b) = xorCol (invMixCol a) (invMixCol b)) ∧
  (∀ a b : Col, mixCol (xorCol a b) = xorCol (mixCol a) (mixCol b))

/-- SUBBYTES and INVSUBBYTES go byte by byte through the tables (R103); SHIFTROWS and INVSHIFTROWS read the block at the indices R104
lists. INVSUBBYTES and SUBBYTES, and INVSHIFTROWS and SHIFTROWS, are inverse to each other, and the two inverse steps commute
(R103, R104, R109). -/
def Obligations.SubstitutionAndRowShiftAreInvertible : Prop :=
  (∀ (s : Block) (k : Fin 16), (subBytes s)[k] = sbox s[k] ∧ (invSubBytes s)[k] = invSbox s[k]) ∧
  (∀ s : Block,
    (shiftRows s).toList =
      ([0, 5, 10, 15, 4, 9, 14, 3, 8, 13, 2, 7, 12, 1, 6, 11] : List (Fin 16)).map (fun k => s[k]) ∧
    (invShiftRows s).toList =
      ([0, 13, 10, 7, 4, 1, 14, 11, 8, 5, 2, 15, 12, 9, 6, 3] : List (Fin 16)).map (fun k => s[k])) ∧
  (∀ s : Block, invSubBytes (subBytes s) = s ∧ subBytes (invSubBytes s) = s ∧
    invShiftRows (shiftRows s) = s ∧ shiftRows (invShiftRows s) = s ∧
    invShiftRows (invSubBytes s) = invSubBytes (invShiftRows s))

/-! ## SHA-256 (spec 42_sha256.md) -/

/-- `SHA_INIT` (R124): H_INIT, an empty buffer of zeros, counter 0, whatever the slot held. -/
def Obligations.ShaInitLoadsTheInitialHash : Prop :=
  ∀ (s : State) (slot : BitVec 8), slot.toNat < s.nSha →
    exec (.shaInit true slot) s = .next
      { s with sha := s.sha.set slot.toNat ⟨hInit, Vector.replicate 64 0#8, 0#6, 0#64⟩,
               out := s.out ++ [.rsp 0x1#32, .rsp 0#32] }

/-- `SHA_UPDATE` (R125): the data taken byte by byte into the slot. Of one byte: it goes to `BUF[OFF]`; the last of a block has
the block compressed, `OFF` back to 0 and `BITS` 512 higher modulo 2^64; any other moves `OFF` on by 1. COMPRESS is R120's, of every
running hash and block: its message schedule R121's, its 64 rounds R122's, with the functions of R83 and R84. -/
def Obligations.ShaUpdateAbsorbsItsData : Prop :=
  (∀ (s : State) (slot : BitVec 8) (lenA : Word) (data rest : List Byte),
    slot.toNat < s.nSha → s.opd = data ++ rest → data.length = lenA.toNat →
    exec (.shaUpdate true true slot lenA) s = .next
      { s with sha := s.sha.set slot.toNat (data.foldl HashSlot.absorb (s.readSha slot)), opd := rest,
               out := s.out ++ [.rsp 0x1#32, .rsp 0#32] }) ∧
  (∀ (c : HashSlot) (b : Byte), c.off.toNat = 63 →
    c.absorb b = ⟨compress c.h (c.buf.set 63 b), c.buf.set 63 b, 0#6, c.bits + 512#64⟩) ∧
  (∀ (c : HashSlot) (b : Byte) (h : c.off.toNat < 63),
    (c.absorb b).h = c.h ∧ (c.absorb b).bits = c.bits ∧ (c.absorb b).off.toNat = c.off.toNat + 1 ∧
    (c.absorb b).buf = c.buf.set c.off.toNat b (by omega)) ∧
  (∀ (h : HashWords) (B : HashBlock), IsCompress h B (compress h B))

/-- Splitting the data of one `SHA_UPDATE` over two leaves every slot the same (R128); either part may be empty. -/
def Obligations.ShaUpdateMayBeSplit : Prop :=
  ∀ (s : State) (slot : BitVec 8) (a b rest : List Byte), slot.toNat < s.nSha → s.opd = a ++ b ++ rest →
    (a ++ b).length < 2 ^ 32 →
    ∃ t u, exec (.shaUpdate true true slot (BitVec.ofNat 32 (a ++ b).length)) s = .next t ∧
      runCommands [.shaUpdate true true slot (BitVec.ofNat 32 a.length),
        .shaUpdate true true slot (BitVec.ofNat 32 b.length)] s = .next u ∧
      u.sha = t.sha ∧ u.ks = t.ks ∧ u.opd = rest ∧ t.opd = rest

/-- `SHA_FINAL` (R126): 32 result bytes, the digest, and the slot wiped to zero. -/
def Obligations.ShaFinalEmitsTheDigestAndWipes : Prop :=
  ∀ (s : State) (slot : BitVec 8), slot.toNat < s.nSha →
    exec (.shaFinal true true slot) s = .next
      { s with sha := s.sha.set slot.toNat ⟨Vector.replicate 8 0#32, Vector.replicate 64 0#8, 0#6, 0#64⟩,
               out := s.out ++ (s.readSha slot).digest.map PortEvent.res ++ [.rsp 0x1#32, .rsp 32#32] }

/-- The blocks `SHA_FINAL` compresses (R127): one when at most 55 bytes are pending, two from 56 on, with the pending bytes, the
byte 0x80, zeros, and the length in the last 8 bytes of the last block. -/
def Obligations.ShaFinalPadsAsTheStandardDoes : Prop :=
  ∀ c : HashSlot, ∃ len : Vector Byte 8, len.toList = toBe64 (c.bits + BitVec.ofNat 64 (8 * c.off.toNat)) ∧
    (c.off.toNat ≤ 55 → ∃ last : HashBlock, c.finalWords = compress c.h last ∧
      ∀ k : Fin 64, last[k] =
        if k.val < c.off.toNat then c.buf[k] else if k.val = c.off.toNat then 0x80#8
        else if h : k.val < 56 then 0#8 else len[k.val - 56]'(by have := k.isLt; omega)) ∧
    (56 ≤ c.off.toNat → ∃ first last : HashBlock, c.finalWords = compress (compress c.h first) last ∧
      (∀ k : Fin 64, first[k] =
        if k.val < c.off.toNat then c.buf[k] else if k.val = c.off.toNat then 0x80#8 else 0#8) ∧
      (∀ k : Fin 64, last[k] = if h : k.val < 56 then 0#8 else len[k.val - 56]'(by have := k.isLt; omega)))

/-- What a slot holds after `SHA_INIT` and data `m` (R16): the count of whole blocks in bits, the bytes pending, those bytes, and
the running hash of the whole blocks. -/
def Obligations.LiveHashSlotDescribesItsMessage : Prop :=
  ∀ m : List Byte,
    let c := m.foldl HashSlot.absorb HashSlot.initial
    c.off.toNat = m.length % 64 ∧
    c.bits = BitVec.ofNat 64 (512 * (m.length / 64)) ∧
    c.buf.toList.take (m.length % 64) = m.drop (64 * (m.length / 64)) ∧
    c.h = hashBlocks (m.length / 64) hInit m

/-- A hash computed with commands, however the message is split, is SHA-256 of the whole message: `SHA_INIT`, an update per
chunk, `SHA_FINAL` (R126, R127, R128). -/
def Obligations.StreamedHashIsSha256OfTheMessage : Prop :=
  ∀ (s : State) (slot : BitVec 8) (chunks : List (List Byte)) (rest : List Byte), slot.toNat < s.nSha →
    (∀ c ∈ chunks, c.length < 2 ^ 32) → s.opd = chunks.flatten ++ rest →
    runCommands ([.shaInit true slot] ++
        chunks.map (fun c => .shaUpdate true true slot (BitVec.ofNat 32 c.length)) ++ [.shaFinal true true slot]) s
      = .next
        { s with sha := s.sha.set slot.toNat HashSlot.zero, opd := rest,
                 out := s.out ++ (List.replicate (chunks.length + 1) [.rsp 0x1#32, .rsp 0#32]).flatten
                   ++ (sha256 chunks.flatten).map PortEvent.res ++ [.rsp 0x1#32, .rsp 32#32] }

/-- After `SHA_FINAL` a `CTX_READ` of the whole image gives 105 zero bytes (R126: the state is wiped). -/
def Obligations.FinalisedSlotReadsAsZero : Prop :=
  ∀ (s : State) (slot : BitVec 8), slot.toNat < s.nSha →
    ∃ t, exec (.shaFinal true true slot) s = .next t ∧
      exec (.ctxRead true .hash slot 0#32 105#32) t = .next
        { t with out := t.out ++ List.replicate 105 (PortEvent.res 0#8) ++ [.rsp 0x1#32, .rsp 105#32] }

/-- The two digests the source gives (R129): of no bytes, and of "abc". -/
def Obligations.RequiredDigests : Prop :=
  (HashSlot.initial.digest.foldl (fun n b => 256 * n + b.toNat) 0
    = 0xe3b0c44298fc1c149afbf4c8996fb92427ae41e4649b934ca495991b7852b855) ∧
  ((HashSlot.initial.update [0x61#8, 0x62#8, 0x63#8]).digest.foldl (fun n b => 256 * n + b.toNat) 0
    = 0xba7816bf8f01cfea414140de5dae2223b00361a396177a9cb410ff61f20015ad)

/-! ## DRBG (spec 43_drbg.md) -/

/-- `DRBG_INIT` (R144): every entropy byte seeded, then every personalization byte, then one test, whose answer is the status; no
slot is written. The personalization may be absent with length 0. The answer is the opaque sampler's (assumption log 3). -/
def Obligations.DrbgInitSeedsThenTests : Prop :=
  ∀ (s : State) (p2 : Bool) (lenA lenB : Word) (entropy pers rest : List Byte),
    entropy.length = lenA.toNat → pers.length = lenB.toNat → (p2 = false → lenB = 0#32) →
    s.opd = entropy ++ pers ++ rest →
    let seeds := (entropy ++ pers).map RsEvent.seed
    let pass := Config.sampler.test (rsHistory s.out ++ seeds)
    exec (.drbgInit true true p2 lenA lenB) s = .next
      { s with opd := rest,
               out := s.out ++ seeds.map PortEvent.rs ++ [.rs (.test pass)] ++
                 [.rsp (if pass then 0x1#32 else 0x2#32), .rsp 0#32] }

/-- `DRBG_RESEED` is `DRBG_INIT` with the additional input in the place of the personalization (R145): the same transactions and
the same response on every state that has its operand bytes, whether it runs, is illegal or fails; and, written out, the seeds
of both operands in order and then the test whose answer is the status. The answer is the opaque sampler's (assumption log 3). -/
def Obligations.DrbgReseedIsDrbgInit : Prop :=
  (∀ (s : State) (p0 p1 p2 : Bool) (lenA lenB : Word), operandBytes (.drbgInit p0 p1 p2 lenA lenB) ≤ s.opd.length →
    exec (.drbgReseed p0 p1 p2 lenA lenB) s = exec (.drbgInit p0 p1 p2 lenA lenB) s) ∧
  (∀ (s : State) (p2 : Bool) (lenA lenB : Word) (entropy add rest : List Byte),
    entropy.length = lenA.toNat → add.length = lenB.toNat → (p2 = false → lenB = 0#32) →
    s.opd = entropy ++ add ++ rest →
    let seeds := (entropy ++ add).map RsEvent.seed
    let pass := Config.sampler.test (rsHistory s.out ++ seeds)
    exec (.drbgReseed true true p2 lenA lenB) s = .next
      { s with opd := rest,
               out := s.out ++ seeds.map PortEvent.rs ++ [.rs (.test pass)] ++
                 [.rsp (if pass then 0x1#32 else 0x2#32), .rsp 0#32] })

/-- `DRBG_GENERATE` (R146, R149): every additional byte seeded; then, for each byte `b` drawn, a passing test, the draw and its
emission, in that order; the command ends either with all `LEN_B` bytes and `ST_OK`, or at a failing test, with
`ST_FAIL_GENERATE`, no draw after it, and `RLEN` the number of bytes already emitted. Tests and samples are the sampler's
answers (opaque, assumption log 3). No slot is written. The additional input may be absent with length 0. -/
def Obligations.DrbgGenerateTestsBeforeEachByte : Prop :=
  ∀ (s : State) (p1 : Bool) (lenA lenB : Word) (add rest : List Byte),
    add.length = lenA.toNat → (p1 = false → lenA = 0#32) → s.opd = add ++ rest →
    ∃ (bytes : List Byte) (made : List PortEvent),
      bytes.length ≤ lenB.toNat ∧
      made = add.map (fun b => PortEvent.rs (.seed b)) ++
        bytes.flatMap (fun b => [.rs (.test true), .rs (.sample b), .res b]) ++
        (if bytes.length = lenB.toNat then [.rsp 0x1#32, .rsp lenB]
         else [.rs (.test false), .rsp 0x3#32, .rsp (BitVec.ofNat 32 bytes.length)]) ∧
      answeredBy Config.sampler (rsHistory s.out) (rsHistory made) ∧
      exec (.drbgGenerate true p1 true lenA lenB) s = .next { s with opd := rest, out := s.out ++ made }

/-- `DRBG_UNINST` (R147): `ST_OK` and nothing else, in the block or at the sampler. -/
def Obligations.DrbgUninstDoesNothing : Prop :=
  ∀ s : State, exec (.drbgUninst true) s = .next { s with out := s.out ++ [.rsp 0x1#32, .rsp 0#32] }

/-- The sampler the block meets loses nothing of R142's: with a sampler of any state type, initial state and functions, put in
that form, the transactions of seeding and of generation carry the answers those functions give, from any point whose
transactions do. This is about the model's form of the sampler (assumption log 3). -/
def Obligations.AnySamplerAnswersThroughTheModel : Prop :=
  ∀ (Sigma : Type) (R : SamplerRecord Sigma) (s : State), R.gives R.init (rsHistory s.out) →
    (∀ opA opB, R.gives R.init (rsHistory (seedBody R.toSampler opA opB s).out)) ∧
    (∀ lenB opA, R.gives R.init (rsHistory (generateBody R.toSampler lenB opA s).out))

/-! ## Context access (spec 44_context_access.md) -/

/-- `CTX_READ` (R160) of a run inside the image: the bytes of R37's table at offsets `LEN_A` to `LEN_A + LEN_B - 1`, in order, and
nothing changed. -/
def Obligations.CtxReadEmitsTheImageBytes : Prop :=
  ∀ (s : State) (slot : BitVec 8) (lenA lenB : Word),
    (slot.toNat < s.nKs → lenA.toNat + lenB.toNat ≤ 176 →
      exec (.ctxRead true .keySched slot lenA lenB) s = .next
        { s with out := s.out ++ (((List.finRange 176).drop lenA.toNat).take lenB.toNat).map
                   (fun off => PortEvent.res (s.readKs slot)[off]) ++ [.rsp 0x1#32, .rsp lenB] }) ∧
    (slot.toNat < s.nSha → lenA.toNat + lenB.toNat ≤ 105 →
      exec (.ctxRead true .hash slot lenA lenB) s = .next
        { s with out := s.out ++ (((List.finRange 105).drop lenA.toNat).take lenB.toNat).map
                   (fun off => PortEvent.res (hashImageByte (s.readSha slot) off)) ++ [.rsp 0x1#32, .rsp lenB] })

/-- `CTX_ZERO` (R161): the whole slot named zero, and nothing else changed. -/
def Obligations.CtxZeroZeroesTheWholeSlot : Prop :=
  ∀ (s : State) (slot : BitVec 8),
    (slot.toNat < s.nKs → exec (.ctxZero true .keySched slot) s = .next
      { s with ks := s.ks.set slot.toNat (Vector.replicate 176 0#8), out := s.out ++ [.rsp 0x1#32, .rsp 0#32] }) ∧
    (slot.toNat < s.nSha → exec (.ctxZero true .hash slot) s = .next
      { s with sha := s.sha.set slot.toNat ⟨Vector.replicate 8 0#32, Vector.replicate 64 0#8, 0#6, 0#64⟩,
               out := s.out ++ [.rsp 0x1#32, .rsp 0#32] })

/-! ## Primitives (spec 40_primitives.md) -/

/-- XTIME is doubling reduced by 0x11B where it passes 8 bits (R72); and GMUL is the sum, over the bits of its second operand, of
the first doubled that often, with the values R73 gives for the multipliers 0 to 3. -/
def Obligations.XtimeIsReducedDoubling : Prop :=
  (∀ a : Byte, (xtime a).toNat = (if a.toNat < 128 then 2 * a.toNat else (2 * a.toNat) ^^^ 0x11B) ∧
    xtime a = (if a.getLsbD 7 then ((a <<< 1) &&& 0xFF#8) ^^^ 0x1B#8 else (a <<< 1) &&& 0xFF#8)) ∧
  (∀ a b : Byte, gmul a b = gmul b a ∧
    gmul a b = (List.range 8).foldl (fun p i => if b.getLsbD i then p ^^^ (xtime^[i]) a else p) 0#8) ∧
  (∀ a : Byte, gmul a 0#8 = 0#8 ∧ gmul a 1#8 = a ∧ gmul a 2#8 = xtime a ∧ gmul a 3#8 = xtime a ^^^ a)

/-- GMUL is the product in the field of R72: commutative, distributive over exclusive-or, with 1 as its unit and 0 as its zero,
and doubling a factor doubles the product, which fixes the polynomial the field is taken modulo (R72, R73). -/
def Obligations.GmulIsTheFieldProduct : Prop :=
  ∀ a b c : Byte, gmul a b = gmul b a ∧ gmul (a ^^^ b) c = gmul a c ^^^ gmul b c ∧ gmul a 1#8 = a ∧ gmul a 0#8 = 0#8 ∧
    gmul a (xtime b) = xtime (gmul a b)

/-- The printed table of R75 is the affine map of the field inverse for every byte, has no fixed point, and R76's table is its
inverse. -/
def Obligations.SubstitutionTablesAreAsDefined : Prop :=
  ∀ a : Byte, sbox a = sboxFormula a ∧ sbox a ≠ a ∧ invSbox (sbox a) = a ∧ sbox (invSbox a) = a ∧
    (a ≠ 0#8 → gmul a (ginv a) = 1#8)

/-- The ten round constants, each the double of the one before (R77). R77 has none beyond 10: that `rcon` goes on doubling there,
as the second clause says for every `i`, is the model's choice (assumption log 13). -/
def Obligations.RoundConstantsAreTheDoublings : Prop :=
  (List.range 10).map (fun i => rcon (i + 1))
    = [0x01#8, 0x02#8, 0x04#8, 0x08#8, 0x10#8, 0x20#8, 0x40#8, 0x80#8, 0x1B#8, 0x36#8] ∧
  ∀ i, rcon (i + 2) = xtime (rcon (i + 1))

/-- Bit `i` of `ROTR32(x, n)` is bit `(i + n) mod 32` of `x`, for every amount a rule may use (R80); `SHR32` moves bits down and
brings in zeros (R81); BSIG0, BSIG1, SSIG0 and SSIG1 are, bit by bit, the exclusive-ors of R83 and R84. -/
def Obligations.RotationMovesEveryBit : Prop :=
  (∀ (x : Word) (n : Nat), 0 < n → n < 32 → ∀ i : Fin 32, (rotr32 x n).getLsbD i.val = x.getLsbD ((i.val + n) % 32)) ∧
  (∀ (x : Word) (i : Fin 32), let bit := fun n => x.getLsbD ((i.val + n) % 32)
    (shr32 x 3).getLsbD i.val = (decide (i.val + 3 < 32) && bit 3) ∧
    (shr32 x 10).getLsbD i.val = (decide (i.val + 10 < 32) && bit 10) ∧
    (bsig0 x).getLsbD i.val = (bit 2 ^^ bit 13 ^^ bit 22) ∧
    (bsig1 x).getLsbD i.val = (bit 6 ^^ bit 11 ^^ bit 25) ∧
    (ssig0 x).getLsbD i.val = (bit 7 ^^ bit 18 ^^ (decide (i.val + 3 < 32) && bit 3)) ∧
    (ssig1 x).getLsbD i.val = (bit 17 ^^ bit 19 ^^ (decide (i.val + 10 < 32) && bit 10)))

/-- Each bit of BMIX (R82): in mode CH the bit of `b` where `a` is 1 and of `c` where `a` is 0; in mode MAJ the value at least two
of the three have. -/
def Obligations.MixingIsChoiceAndMajority : Prop :=
  ∀ (a b c : Word) (i : Fin 32),
    (bmix a b c .ch).getLsbD i.val = (if a.getLsbD i.val then b.getLsbD i.val else c.getLsbD i.val) ∧
    (bmix a b c .maj).getLsbD i.val =
      decide (2 ≤ (a.getLsbD i.val).toNat + (b.getLsbD i.val).toNat + (c.getLsbD i.val).toNat)

/-- BE32 weighs its first byte most (R85) and TOBE32 undoes it (R86); TOBE64 gives eight bytes of the same order (R87). -/
def Obligations.EndianConversionsAreBigEndian : Prop :=
  (∀ b0 b1 b2 b3 : Byte, (be32 b0 b1 b2 b3).toNat =
      b0.toNat * 2 ^ 24 + b1.toNat * 2 ^ 16 + b2.toNat * 2 ^ 8 + b3.toNat ∧
    toBe32 (be32 b0 b1 b2 b3) = [b0, b1, b2, b3]) ∧
  (∀ d : Dword, (toBe64 d).foldl (fun n b => 256 * n + b.toNat) 0 = d.toNat ∧ (toBe64 d).length = 8)

/-- The SHA-256 constants are the first 32 fraction bits of the square roots of the first 8 primes (R88) and of the cube roots of
the first 64 (R89). -/
def Obligations.HashConstantsComeFromThePrimes : Prop :=
  let primes := (List.range 312).filter fun p => 2 ≤ p && (List.range p).all fun d => d < 2 || p % d != 0
  primes.length = 64 ∧ k256.length = 64 ∧
  (∀ t : Fin 8, ∃ whole < 8, let r := whole * 2 ^ 32 + hInit[t].toNat
    r ^ 2 ≤ primes.getD t.val 0 * 2 ^ 64 ∧ primes.getD t.val 0 * 2 ^ 64 < (r + 1) ^ 2) ∧
  (∀ t : Fin 64, ∃ whole < 8, let r := whole * 2 ^ 32 + (k256.getD t.val 0#32).toNat
    r ^ 3 ≤ primes.getD t.val 0 * 2 ^ 96 ∧ primes.getD t.val 0 * 2 ^ 96 < (r + 1) ^ 3)
end

