-- ==== Sys2Proof/Laws/Aes.lean ====
section
/-! SUPPORT. Each byte of what the AES engine's functions give, one lemma per function, so that a proof about blocks cites these
and unfolds none of them. -/

namespace Sys2Proof.Machine

theorem xorCol_getElem (a b : Col) (j : Nat) (h : j < 4) : (xorCol a b)[j] = a[j] ^^^ b[j] :=
  Vector.getElem_zipWith ..

theorem column_getElem (s : Block) (g : Fin 4) (j : Nat) (h : j < 4) :
    (column s g)[j] = s[4 * g.val + j]'(by have := g.isLt; omega) :=
  Vector.getElem_ofFn ..

theorem ofColumns_getElem (f : Fin 4 → Col) (k : Nat) (h : k < 16) :
    (ofColumns f)[k] = (f ⟨k / 4, by omega⟩)[k % 4]'(Nat.mod_lt _ (by decide)) :=
  Vector.getElem_ofFn ..

/-- The columns of a block made of columns. -/
theorem column_ofColumns (f : Fin 4 → Col) (g : Fin 4) : column (ofColumns f) g = f g := by
  apply Vector.ext
  intro j h
  rw [column_getElem, ofColumns_getElem]
  have e1 : (4 * g.val + j) / 4 = g.val := by omega
  have e2 : (4 * g.val + j) % 4 = j := by omega
  simp only [e1, e2]

/-- A block is made of its columns. -/
theorem ofColumns_column (s : Block) : ofColumns (fun g => column s g) = s := by
  apply Vector.ext
  intro k h
  rw [ofColumns_getElem, column_getElem]
  have e : 4 * (k / 4) + k % 4 = k := by omega
  simp only [e]

theorem column_nextRoundKey (prev : Block) (i : Nat) (g : Fin 4) :
    column (nextRoundKey prev i) g = newGroup prev i g.val :=
  column_ofColumns ..

/-- Group 0 of a new round key (R101): the previous group 0 exclusive-ored with the four bytes `t`. -/
theorem nextRoundKey_first (prev : Block) (i k : Nat) (h : k < 4) :
    (nextRoundKey prev i)[k] = prev[k] ^^^ (keyTemp prev i)[k] := by
  have e : column (nextRoundKey prev i) 0 = xorCol (column prev 0) (keyTemp prev i) :=
    column_nextRoundKey ..
  have e' := congrArg (fun v : Col => v[k]) e
  simpa only [column_getElem, xorCol_getElem, Fin.val_zero, Nat.mul_zero, Nat.zero_add] using e'

/-- Groups 1 to 3 of a new round key (R101): each byte is the one four before it exclusive-ored with the previous round key's. -/
theorem nextRoundKey_later (prev : Block) (i k : Nat) (h : k < 12) :
    (nextRoundKey prev i)[k + 4] = (nextRoundKey prev i)[k] ^^^ prev[k + 4] := by
  have e : column (nextRoundKey prev i) ⟨k / 4 + 1, by omega⟩ =
      xorCol (column (nextRoundKey prev i) ⟨k / 4, by omega⟩) (column prev ⟨k / 4 + 1, by omega⟩) := by
    have g : (Fin.ofNat 4 (k / 4 + 1)) = ⟨k / 4 + 1, by omega⟩ := Fin.ext (Nat.mod_eq_of_lt (by omega))
    rw [column_nextRoundKey, column_nextRoundKey, newGroup, g]
  have e' := congrArg (fun v : Col => v[k % 4]'(Nat.mod_lt _ (by decide))) e
  simp only [column_getElem, xorCol_getElem] at e'
  have e1 : 4 * (k / 4) + k % 4 = k := by omega
  have e2 : 4 * (k / 4 + 1) + k % 4 = k + 4 := by omega
  simpa only [e1, e2] using e'

theorem keyExpand_getElem (key : Block) (n : Nat) (h : n < 176) :
    (keyExpand key)[n] = (roundKey key (n / 16))[n % 16]'(Nat.mod_lt _ (by decide)) :=
  Vector.getElem_ofFn ..

theorem schedRoundKey_getElem (ks : KeySched) (i : Fin 11) (k : Nat) (h : k < 16) :
    (schedRoundKey ks i)[k] = ks[16 * i.val + k]'(by have := i.isLt; omega) :=
  Vector.getElem_ofFn ..

/-- The round keys stored in an encrypt schedule (R12). -/
theorem schedRoundKey_keyExpand (key : Block) (i : Fin 11) : schedRoundKey (keyExpand key) i = roundKey key i.val := by
  apply Vector.ext
  intro k h
  rw [schedRoundKey_getElem, keyExpand_getElem]
  have e1 : (16 * i.val + k) / 16 = i.val := by omega
  have e2 : (16 * i.val + k) % 16 = k := by omega
  simp only [e1, e2]

theorem schedWord_getElem (ks : KeySched) (w : Fin 44) (j : Nat) (h : j < 4) :
    (schedWord ks w)[j] = ks[4 * w.val + j]'(by have := w.isLt; omega) :=
  Vector.getElem_ofFn ..

theorem decKey_getElem (ks : KeySched) (n : Nat) (h : n < 176) :
    (decKey ks)[n] =
      if 16 ≤ n ∧ n < 160 then (invMixCol (schedWord ks ⟨n / 4, by omega⟩))[n % 4]'(Nat.mod_lt _ (by decide))
      else ks[n] :=
  Vector.getElem_ofFn ..

theorem subBytes_getElem (s : Block) (k : Nat) (h : k < 16) : (subBytes s)[k] = sbox s[k] :=
  Vector.getElem_map ..

theorem invSubBytes_getElem (s : Block) (k : Nat) (h : k < 16) : (invSubBytes s)[k] = invSbox s[k] :=
  Vector.getElem_map ..

theorem shiftRows_getElem (s : Block) (k : Nat) (h : k < 16) :
    (shiftRows s)[k] = s[k % 4 + 4 * ((k / 4 + k % 4) % 4)]'(by omega) :=
  Vector.getElem_ofFn ..

theorem invShiftRows_getElem (s : Block) (k : Nat) (h : k < 16) :
    (invShiftRows s)[k] = s[k % 4 + 4 * ((k / 4 + 4 - k % 4) % 4)]'(by omega) :=
  Vector.getElem_ofFn ..

theorem addRk_getElem (s : Block) (ks : KeySched) (i : Fin 11) (k : Nat) (h : k < 16) :
    (addRk s ks i)[k] = s[k] ^^^ (schedRoundKey ks i)[k] :=
  Vector.getElem_zipWith ..

/-- The columns of MIXCOLUMNS (R105). -/
theorem column_mixColumns (s : Block) (g : Fin 4) : column (mixColumns s) g = mixCol (column s g) :=
  column_ofColumns ..

/-- The columns of INVMIXCOLUMNS (R106). -/
theorem column_invMixColumns (s : Block) (g : Fin 4) : column (invMixColumns s) g = invMixCol (column s g) :=
  column_ofColumns ..

end Sys2Proof.Machine
end

