-- ==== Sys2Proof/Laws/State.lean ====
section
/-! SUPPORT. One lemma per field of State per update, each true by rfl, so that no later proof unfolds a record update. -/

namespace Sys2Proof.Machine

/-! ### writeKs -/

@[simp] theorem State.writeKs_ks (s : State) (slot : BitVec 8) (v : KeySched) :
    (s.writeKs slot v).ks = s.ks.set slot.toNat v := rfl

@[simp] theorem State.writeKs_sha (s : State) (slot : BitVec 8) (v : KeySched) :
    (s.writeKs slot v).sha = s.sha := rfl

@[simp] theorem State.writeKs_seq (s : State) (slot : BitVec 8) (v : KeySched) :
    (s.writeKs slot v).seq = s.seq := rfl

@[simp] theorem State.writeKs_rst (s : State) (slot : BitVec 8) (v : KeySched) :
    (s.writeKs slot v).rst = s.rst := rfl

@[simp] theorem State.writeKs_cmd (s : State) (slot : BitVec 8) (v : KeySched) :
    (s.writeKs slot v).cmd = s.cmd := rfl

@[simp] theorem State.writeKs_opd (s : State) (slot : BitVec 8) (v : KeySched) :
    (s.writeKs slot v).opd = s.opd := rfl

@[simp] theorem State.writeKs_takes (s : State) (slot : BitVec 8) (v : KeySched) :
    (s.writeKs slot v).takes = s.takes := rfl

@[simp] theorem State.writeKs_out (s : State) (slot : BitVec 8) (v : KeySched) :
    (s.writeKs slot v).out = s.out := rfl

/-! ### writeSha -/

@[simp] theorem State.writeSha_ks (s : State) (slot : BitVec 8) (v : HashSlot) :
    (s.writeSha slot v).ks = s.ks := rfl

@[simp] theorem State.writeSha_sha (s : State) (slot : BitVec 8) (v : HashSlot) :
    (s.writeSha slot v).sha = s.sha.set slot.toNat v := rfl

@[simp] theorem State.writeSha_seq (s : State) (slot : BitVec 8) (v : HashSlot) :
    (s.writeSha slot v).seq = s.seq := rfl

@[simp] theorem State.writeSha_rst (s : State) (slot : BitVec 8) (v : HashSlot) :
    (s.writeSha slot v).rst = s.rst := rfl

@[simp] theorem State.writeSha_cmd (s : State) (slot : BitVec 8) (v : HashSlot) :
    (s.writeSha slot v).cmd = s.cmd := rfl

@[simp] theorem State.writeSha_opd (s : State) (slot : BitVec 8) (v : HashSlot) :
    (s.writeSha slot v).opd = s.opd := rfl

@[simp] theorem State.writeSha_takes (s : State) (slot : BitVec 8) (v : HashSlot) :
    (s.writeSha slot v).takes = s.takes := rfl

@[simp] theorem State.writeSha_out (s : State) (slot : BitVec 8) (v : HashSlot) :
    (s.writeSha slot v).out = s.out := rfl

/-! ### emit -/

@[simp] theorem State.emit_ks (s : State) (bs : List Byte) :
    (s.emit bs).ks = s.ks := rfl

@[simp] theorem State.emit_sha (s : State) (bs : List Byte) :
    (s.emit bs).sha = s.sha := rfl

@[simp] theorem State.emit_seq (s : State) (bs : List Byte) :
    (s.emit bs).seq = s.seq := rfl

@[simp] theorem State.emit_rst (s : State) (bs : List Byte) :
    (s.emit bs).rst = s.rst := rfl

@[simp] theorem State.emit_cmd (s : State) (bs : List Byte) :
    (s.emit bs).cmd = s.cmd := rfl

@[simp] theorem State.emit_opd (s : State) (bs : List Byte) :
    (s.emit bs).opd = s.opd := rfl

@[simp] theorem State.emit_takes (s : State) (bs : List Byte) :
    (s.emit bs).takes = s.takes := rfl

@[simp] theorem State.emit_out (s : State) (bs : List Byte) :
    (s.emit bs).out = s.out ++ bs.map PortEvent.res := rfl

/-! ### respond -/

@[simp] theorem State.respond_ks (s : State) (st : Status) (rlen : Nat) :
    (s.respond st rlen).ks = s.ks := rfl

@[simp] theorem State.respond_sha (s : State) (st : Status) (rlen : Nat) :
    (s.respond st rlen).sha = s.sha := rfl

@[simp] theorem State.respond_seq (s : State) (st : Status) (rlen : Nat) :
    (s.respond st rlen).seq = s.seq := rfl

@[simp] theorem State.respond_rst (s : State) (st : Status) (rlen : Nat) :
    (s.respond st rlen).rst = s.rst := rfl

@[simp] theorem State.respond_cmd (s : State) (st : Status) (rlen : Nat) :
    (s.respond st rlen).cmd = s.cmd := rfl

@[simp] theorem State.respond_opd (s : State) (st : Status) (rlen : Nat) :
    (s.respond st rlen).opd = s.opd := rfl

@[simp] theorem State.respond_takes (s : State) (st : Status) (rlen : Nat) :
    (s.respond st rlen).takes = s.takes := rfl

@[simp] theorem State.respond_out (s : State) (st : Status) (rlen : Nat) :
    (s.respond st rlen).out = s.out ++ [.rsp (responseStatus st), .rsp (responseLength rlen)] := rfl

/-! ### rsSeed -/

@[simp] theorem State.rsSeed_ks (s : State) (b : Byte) :
    (s.rsSeed b).ks = s.ks := rfl

@[simp] theorem State.rsSeed_sha (s : State) (b : Byte) :
    (s.rsSeed b).sha = s.sha := rfl

@[simp] theorem State.rsSeed_seq (s : State) (b : Byte) :
    (s.rsSeed b).seq = s.seq := rfl

@[simp] theorem State.rsSeed_rst (s : State) (b : Byte) :
    (s.rsSeed b).rst = s.rst := rfl

@[simp] theorem State.rsSeed_cmd (s : State) (b : Byte) :
    (s.rsSeed b).cmd = s.cmd := rfl

@[simp] theorem State.rsSeed_opd (s : State) (b : Byte) :
    (s.rsSeed b).opd = s.opd := rfl

@[simp] theorem State.rsSeed_takes (s : State) (b : Byte) :
    (s.rsSeed b).takes = s.takes := rfl

@[simp] theorem State.rsSeed_out (s : State) (b : Byte) :
    (s.rsSeed b).out = s.out ++ [.rs (.seed b)] := rfl

/-! ### toReset -/

@[simp] theorem State.toReset_ks (s : State) :
    (s.toReset).ks = List.replicate s.nKs zeroSched := rfl

@[simp] theorem State.toReset_sha (s : State) :
    (s.toReset).sha = List.replicate s.nSha HashSlot.zero := rfl

@[simp] theorem State.toReset_seq (s : State) :
    (s.toReset).seq = .idle := rfl

@[simp] theorem State.toReset_rst (s : State) :
    (s.toReset).rst = s.rst := rfl

@[simp] theorem State.toReset_cmd (s : State) :
    (s.toReset).cmd = s.cmd := rfl

@[simp] theorem State.toReset_opd (s : State) :
    (s.toReset).opd = s.opd := rfl

@[simp] theorem State.toReset_takes (s : State) :
    (s.toReset).takes = s.takes := rfl

@[simp] theorem State.toReset_out (s : State) :
    (s.toReset).out = s.out := rfl

/-! ### rsTest -/

@[simp] theorem State.rsTest_fst (S : Sampler) (s : State) : (s.rsTest S).1 = S.test (rsHistory s.out) := rfl

@[simp] theorem State.rsTest_ks (S : Sampler) (s : State) :
    (s.rsTest S).2.ks = s.ks := rfl

@[simp] theorem State.rsTest_sha (S : Sampler) (s : State) :
    (s.rsTest S).2.sha = s.sha := rfl

@[simp] theorem State.rsTest_seq (S : Sampler) (s : State) :
    (s.rsTest S).2.seq = s.seq := rfl

@[simp] theorem State.rsTest_rst (S : Sampler) (s : State) :
    (s.rsTest S).2.rst = s.rst := rfl

@[simp] theorem State.rsTest_cmd (S : Sampler) (s : State) :
    (s.rsTest S).2.cmd = s.cmd := rfl

@[simp] theorem State.rsTest_opd (S : Sampler) (s : State) :
    (s.rsTest S).2.opd = s.opd := rfl

@[simp] theorem State.rsTest_takes (S : Sampler) (s : State) :
    (s.rsTest S).2.takes = s.takes := rfl

@[simp] theorem State.rsTest_out (S : Sampler) (s : State) :
    (s.rsTest S).2.out = s.out ++ [.rs (.test (S.test (rsHistory s.out)))] := rfl

/-! ### rsSample -/

@[simp] theorem State.rsSample_fst (S : Sampler) (s : State) : (s.rsSample S).1 = S.sample (rsHistory s.out) := rfl

@[simp] theorem State.rsSample_ks (S : Sampler) (s : State) :
    (s.rsSample S).2.ks = s.ks := rfl

@[simp] theorem State.rsSample_sha (S : Sampler) (s : State) :
    (s.rsSample S).2.sha = s.sha := rfl

@[simp] theorem State.rsSample_seq (S : Sampler) (s : State) :
    (s.rsSample S).2.seq = s.seq := rfl

@[simp] theorem State.rsSample_rst (S : Sampler) (s : State) :
    (s.rsSample S).2.rst = s.rst := rfl

@[simp] theorem State.rsSample_cmd (S : Sampler) (s : State) :
    (s.rsSample S).2.cmd = s.cmd := rfl

@[simp] theorem State.rsSample_opd (S : Sampler) (s : State) :
    (s.rsSample S).2.opd = s.opd := rfl

@[simp] theorem State.rsSample_takes (S : Sampler) (s : State) :
    (s.rsSample S).2.takes = s.takes := rfl

@[simp] theorem State.rsSample_out (S : Sampler) (s : State) :
    (s.rsSample S).2.out = s.out ++ [.rs (.sample (S.sample (rsHistory s.out)))] := rfl

/-! ### deliver -/

@[simp] theorem State.deliver_ks (s t : State) (n : Nat) : (s.deliver t n).ks = t.ks := rfl

@[simp] theorem State.deliver_sha (s t : State) (n : Nat) : (s.deliver t n).sha = t.sha := rfl

@[simp] theorem State.deliver_rst (s t : State) (n : Nat) : (s.deliver t n).rst = t.rst := rfl

@[simp] theorem State.deliver_cmd (s t : State) (n : Nat) : (s.deliver t n).cmd = t.cmd := rfl

@[simp] theorem State.deliver_opd (s t : State) (n : Nat) : (s.deliver t n).opd = t.opd := rfl

@[simp] theorem State.deliver_out (s t : State) (n : Nat) :
    (s.deliver t n).out = s.out ++ (t.out.drop s.out.length).take n := rfl

/-! ### Slot counts -/

@[simp] theorem State.nKs_writeKs (s : State) (slot : BitVec 8) (v : KeySched) : (s.writeKs slot v).nKs = s.nKs := by
  simp [State.nKs]

@[simp] theorem State.nSha_writeSha (s : State) (slot : BitVec 8) (v : HashSlot) : (s.writeSha slot v).nSha = s.nSha := by
  simp [State.nSha]

@[simp] theorem State.nKs_deliver (s t : State) (n : Nat) : (s.deliver t n).nKs = t.nKs := rfl

@[simp] theorem State.nSha_deliver (s t : State) (n : Nat) : (s.deliver t n).nSha = t.nSha := rfl

@[simp] theorem State.nKs_toReset (s : State) : s.toReset.nKs = s.nKs := by
  simp [State.nKs]

@[simp] theorem State.nSha_toReset (s : State) : s.toReset.nSha = s.nSha := by
  simp [State.nSha]

end Sys2Proof.Machine
end

