-- ==== Sys2Proof/Laws/Ops.lean ====
section
/-! SUPPORT. One lemma per shared operation, saying all it does: reads after writes, the RS history of what the ports did, FOLD,
the course of a command, and what the ports let a step do. -/

namespace Sys2Proof.Machine

/-! ## Slots: a read after a write -/

theorem State.readKs_writeKs_same (s : State) (slot : BitVec 8) (v : KeySched) (h : slot.toNat < s.nKs) :
    (s.writeKs slot v).readKs slot = v := by
  simp only [State.nKs] at h
  simp [State.readKs, State.writeKs, List.getD, h]

theorem State.readKs_writeKs_other (s : State) (slot other : BitVec 8) (v : KeySched) (h : other ≠ slot) :
    (s.writeKs slot v).readKs other = s.readKs other := by
  have h' : slot.toNat ≠ other.toNat := fun e => h (BitVec.eq_of_toNat_eq e.symm)
  simp [State.readKs, State.writeKs, List.getD, List.getElem?_set_ne h']

theorem State.readSha_writeSha_same (s : State) (slot : BitVec 8) (v : HashSlot) (h : slot.toNat < s.nSha) :
    (s.writeSha slot v).readSha slot = v := by
  simp only [State.nSha] at h
  simp [State.readSha, State.writeSha, List.getD, h]

theorem State.readSha_writeSha_other (s : State) (slot other : BitVec 8) (v : HashSlot) (h : other ≠ slot) :
    (s.writeSha slot v).readSha other = s.readSha other := by
  have h' : slot.toNat ≠ other.toNat := fun e => h (BitVec.eq_of_toNat_eq e.symm)
  simp [State.readSha, State.writeSha, List.getD, List.getElem?_set_ne h']

/-! ## The RS history -/

@[simp] theorem rsHistory_nil : rsHistory [] = [] := rfl

@[simp] theorem rsHistory_append (a b : List PortEvent) : rsHistory (a ++ b) = rsHistory a ++ rsHistory b := by
  simp [rsHistory]

@[simp] theorem rsHistory_cons_rs (e : RsEvent) (l : List PortEvent) : rsHistory (.rs e :: l) = e :: rsHistory l := rfl

@[simp] theorem rsHistory_cons_res (b : Byte) (l : List PortEvent) : rsHistory (.res b :: l) = rsHistory l := rfl

@[simp] theorem rsHistory_cons_rsp (w : Word) (l : List PortEvent) : rsHistory (.rsp w :: l) = rsHistory l := rfl

@[simp] theorem rsHistory_map_res (bs : List Byte) : rsHistory (bs.map PortEvent.res) = [] := by
  induction bs with
  | nil => rfl
  | cons b bs ih => simpa using ih

@[simp] theorem rsHistory_map_rs (es : List RsEvent) : rsHistory (es.map PortEvent.rs) = es := by
  induction es with
  | nil => rfl
  | cons e es ih => simpa using ih

/-! ## FOLD -/

/-- FOLD (R143) makes one seed transaction per byte, in order, and does nothing else. -/
theorem State.fold_eq (s : State) (x : List Byte) :
    s.fold x = { s with out := s.out ++ x.map (fun b => PortEvent.rs (.seed b)) } := by
  induction x generalizing s with
  | nil => simp [State.fold]
  | cons b x ih =>
    rw [State.fold, List.foldl_cons, ← State.fold, ih]
    simp [State.rsSeed]

/-! ## The course of a command -/

theorem runCommand_illegal {i : Instr} {s : State} (body : List Byte → List Byte → State → State)
    (h : paramLegal s.nKs s.nSha i = false) : runCommand i body s = s.respond .illegal 0 := by
  simp [runCommand, h]

theorem runCommand_waits {i : Instr} {s : State} (body : List Byte → List Byte → State → State)
    (h : paramLegal s.nKs s.nSha i = true) (hn : s.opd.length < operandBytes i) :
    runCommand i body s = { s with seq := .operands i s.opd, opd := [] } := by
  simp [runCommand, h, hn]

theorem runCommand_absent {i : Instr} {s : State} (body : List Byte → List Byte → State → State)
    (h : paramLegal s.nKs s.nSha i = true) (hn : operandBytes i ≤ s.opd.length) (hp : requiredPresent i = false) :
    runCommand i body s = ({ s with opd := s.opd.drop (operandBytes i) } : State).respond .failAbsent 0 := by
  simp [runCommand, h, hp, Nat.not_lt.mpr hn]

theorem runCommand_runs {i : Instr} {s : State} (body : List Byte → List Byte → State → State)
    (h : paramLegal s.nKs s.nSha i = true) (hn : operandBytes i ≤ s.opd.length) (hp : requiredPresent i = true) :
    runCommand i body s =
      body (s.opd.take (opALen i)) ((s.opd.drop (opALen i)).take (opBLen i))
        { s with opd := s.opd.drop (operandBytes i) } := by
  simp [runCommand, h, hp, Nat.not_lt.mpr hn]

/-- All a command can do: be answered illegal, wait, be answered absent, or run its body. -/
theorem runCommand_cases (i : Instr) (body : List Byte → List Byte → State → State) (s : State) :
    (paramLegal s.nKs s.nSha i = false ∧ runCommand i body s = s.respond .illegal 0) ∨
    (paramLegal s.nKs s.nSha i = true ∧ s.opd.length < operandBytes i ∧
      runCommand i body s = { s with seq := .operands i s.opd, opd := [] }) ∨
    (paramLegal s.nKs s.nSha i = true ∧ operandBytes i ≤ s.opd.length ∧ requiredPresent i = false ∧
      runCommand i body s = ({ s with opd := s.opd.drop (operandBytes i) } : State).respond .failAbsent 0) ∨
    (paramLegal s.nKs s.nSha i = true ∧ operandBytes i ≤ s.opd.length ∧ requiredPresent i = true ∧
      runCommand i body s =
        body (s.opd.take (opALen i)) ((s.opd.drop (opALen i)).take (opBLen i))
          { s with opd := s.opd.drop (operandBytes i) }) := by
  rcases hL : paramLegal s.nKs s.nSha i with _ | _
  · exact .inl ⟨rfl, runCommand_illegal body hL⟩
  · rcases Nat.lt_or_ge s.opd.length (operandBytes i) with hn | hn
    · exact .inr (.inl ⟨rfl, hn, runCommand_waits body hL hn⟩)
    · rcases hp : requiredPresent i with _ | _
      · exact .inr (.inr (.inl ⟨rfl, hn, rfl, runCommand_absent body hL hn hp⟩))
      · exact .inr (.inr (.inr ⟨rfl, hn, rfl, runCommand_runs body hL hn hp⟩))

/-! ## The ports at the end of a step -/

@[simp] theorem Take.less_less (k : Take) (m n : Nat) : (k.less m).less n = k.less (m + n) := by
  cases k <;> simp [Take.less]; omega

@[simp] theorem Take.less_zero (k : Take) : k.less 0 = k := by
  cases k <;> simp [Take.less]

@[simp] theorem Takes.all_ready (e : PortEvent) : Takes.all.ready e = true := by
  cases e <;> rfl

@[simp] theorem Takes.all_after (e : PortEvent) : Takes.all.after e = Takes.all := by
  cases e <;> rfl

@[simp] theorem Takes.all_foldl_after (made : List PortEvent) : made.foldl Takes.after Takes.all = Takes.all := by
  induction made with
  | nil => rfl
  | cons e made ih => simpa using ih

/-- After a sequence of transactions each receiver takes as many items fewer as there were at its port. -/
theorem Takes.foldl_after (k : Takes) (made : List PortEvent) :
    made.foldl Takes.after k =
      { rs := k.rs.less (made.countP PortEvent.isSampler)
        res := k.res.less (made.countP PortEvent.isResult)
        rsp := k.rsp.less (made.countP PortEvent.isResponse) } := by
  induction made generalizing k with
  | nil => simp
  | cons e made ih =>
    rw [List.foldl_cons, ih]
    cases e <;> simp [Takes.after, List.countP_cons, PortEvent.isSampler, PortEvent.isResult, PortEvent.isResponse, Nat.add_comm]

@[simp] theorem passed_nil (k : Takes) : passed k [] = 0 := rfl

/-- Receivers that are always ready take every transaction. -/
@[simp] theorem passed_all (made : List PortEvent) : passed Takes.all made = made.length := by
  induction made with
  | nil => rfl
  | cons e made ih => simp [passed, ih]

/-- A receiver that is ready for one item more, and after it for `c`, is ready for `c + 1`. -/
theorem Take.one_more {t : Take} {c n : Nat} (h : t.ready = true) (ht : t = .upTo n)
    (hc : ∀ m, t.less 1 = .upTo m → c ≤ m) : c + 1 ≤ n := by
  subst ht
  have hn : n ≠ 0 := of_decide_eq_true h
  have := hc (n - 1) rfl
  omega

/-- All that `passed` says: the transactions split where the first one comes whose receiver does not take it, and no receiver has
taken more before it than it was ready to. -/
theorem passed_spec (k : Takes) (made : List PortEvent) :
    ∃ sent left, made = sent ++ left ∧ passed k made = sent.length ∧
      (∀ e rest, left = e :: rest → (sent.foldl Takes.after k).ready e = false) ∧
      (∀ n, k.rs = .upTo n → sent.countP PortEvent.isSampler ≤ n) ∧
      (∀ n, k.res = .upTo n → sent.countP PortEvent.isResult ≤ n) ∧
      (∀ n, k.rsp = .upTo n → sent.countP PortEvent.isResponse ≤ n) := by
  induction made generalizing k with
  | nil => exact ⟨[], [], rfl, rfl, by simp, by simp, by simp, by simp⟩
  | cons e made ih =>
    rcases h : k.ready e with _ | _
    · exact ⟨[], e :: made, rfl, by simp [passed, h], by simp +contextual [h], by simp, by simp, by simp⟩
    · obtain ⟨sent, left, rfl, hn, hl, h1, h2, h3⟩ := ih (k.after e)
      refine ⟨e :: sent, left, rfl, by simp [passed, h, hn], by simpa using hl, ?_⟩
      cases e with
      | rs r => exact ⟨fun n hk => by simpa [List.countP_cons, PortEvent.isSampler] using Take.one_more h hk h1, h2, h3⟩
      | res b => exact ⟨h1, fun n hk => by simpa [List.countP_cons, PortEvent.isResult] using Take.one_more h hk h2, h3⟩
      | rsp w => exact ⟨h1, h2, fun n hk => by simpa [List.countP_cons, PortEvent.isResponse] using Take.one_more h hk h3⟩

theorem passed_le (k : Takes) (made : List PortEvent) : passed k made ≤ made.length := by
  obtain ⟨sent, left, rfl, hn, -⟩ := passed_spec k made
  simp [hn]

/-- A step whose transactions are all made leaves the state it leads to, the receivers' counts apart. -/
theorem State.deliver_whole {s t : State} {made : List PortEvent} (h : t.out = s.out ++ made) :
    s.deliver t made.length = { t with takes := made.foldl Takes.after s.takes } := by
  simp [State.deliver, h]

/-- A step held up before its transaction `e` is left with `e` and those after it to send. -/
theorem State.deliver_part {s t : State} {sent rest : List PortEvent} {e : PortEvent}
    (h : t.out = s.out ++ sent ++ e :: rest) :
    s.deliver t sent.length =
      { t with seq := .sending (e :: rest), takes := sent.foldl Takes.after s.takes, out := s.out ++ sent } := by
  simp [State.deliver, h]

theorem State.meetPorts_low {s : State} (t : State) (h : s.rst = .low) :
    s.meetPorts t = s.deliver t (passed s.takes (t.out.drop s.out.length)) := by
  simp [State.meetPorts, h]

/-- Where every receiver is ready and `rst` stays low, a step leads where it does. -/
theorem State.meetPorts_ready {s t : State} {made : List PortEvent} (hr : s.rst = .low) (hs : s.takes = Takes.all)
    (ht : t.takes = Takes.all) (h : t.out = s.out ++ made) : s.meetPorts t = t := by
  rw [State.meetPorts_low t hr, hs, h, List.drop_left, passed_all, State.deliver_whole h, hs, Takes.all_foldl_after, ← ht]

/-- All that an `rst` input still counting can do to a step: cut it off, or go on counting. -/
theorem State.meetPorts_after {s : State} {n : Nat} (t : State) (h : s.rst = .after n) :
    let sent := passed s.takes (t.out.drop s.out.length)
    let words := s.cmd.length - t.cmd.length
    let bytes := s.opd.length - t.opd.length
    (n < words + bytes + sent ∧ s.meetPorts t = State.toReset { s.deliver t (n - (words + bytes)) with
      cmd := s.cmd.drop (min n words), opd := s.opd.drop (min (n - words) bytes), rst := .high }) ∨
    (words + bytes + sent ≤ n ∧
      s.meetPorts t = { s.deliver t sent with rst := .after (n - (words + bytes + sent)) }) := by
  simp only [State.meetPorts, h]
  split
  · exact .inl ⟨‹_›, rfl⟩
  · exact .inr ⟨Nat.not_lt.mp ‹_›, rfl⟩

end Sys2Proof.Machine
end

