-- ==== Sys2Proof/Laws/Exec.lean ====
section
/-! SUPPORT. The thirteen meanings in one form: each is the shared course of a command around a body, so that what holds of every
command is proved once; the spec lemmas of the DRBG bodies and of the hash slot; and all a step can be. -/

namespace Sys2Proof.Machine

/-- What a command does once it is legal, its operand bytes are taken and its required operands are present. -/
def bodyOf : Instr → List Byte → List Byte → State → State
  | .aesSetEncKey _ _ slot => fun opA _ s => (s.writeKs slot (keyExpand (copyN 16 opA))).respond .ok 0
  | .aesSetDecKey _ _ slot => fun opA _ s => (s.writeKs slot (decKey (keyExpand (copyN 16 opA)))).respond .ok 0
  | .aesEncBlock _ _ _ slot => fun opA _ s =>
    (s.emit (cipher (copyN 16 opA) (s.readKs slot)).toList).respond .ok 16
  | .aesDecBlock _ _ _ slot => fun opA _ s =>
    (s.emit (invCipher (copyN 16 opA) (s.readKs slot)).toList).respond .ok 16
  | .shaInit _ slot => fun _ _ s => (s.writeSha slot HashSlot.initial).respond .ok 0
  | .shaUpdate _ _ slot _ => fun opA _ s => (s.writeSha slot ((s.readSha slot).update opA)).respond .ok 0
  | .shaFinal _ _ slot => fun _ _ s =>
    ((s.emit (s.readSha slot).digest).writeSha slot HashSlot.zero).respond .ok 32
  | .drbgInit _ _ _ _ _ => fun opA opB s => seedBody Config.sampler opA opB s
  | .drbgReseed _ _ _ _ _ => fun opA opB s => seedBody Config.sampler opA opB s
  | .drbgGenerate _ _ _ _ lenB => fun opA _ s => generateBody Config.sampler lenB opA s
  | .drbgUninst _ => fun _ _ s => s.respond .ok 0
  | .ctxRead _ space slot lenA lenB => fun _ _ s =>
    (s.emit (s.ctxBytes space slot lenA.toNat lenB.toNat)).respond .ok lenB.toNat
  | .ctxZero _ space slot => fun _ _ s => (s.zeroSlot slot space).respond .ok 0

/-- Every meaning is the course of a command around its body. -/
theorem exec_eq_runCommand (i : Instr) (s : State) : exec i s = .next (runCommand i (bodyOf i) s) := by
  cases i <;> rfl

/-- Every command answers a next state: TCCORE has no fault and the model refuses nothing. -/
theorem exec_next {i : Instr} {s t : State} : exec i s = .next t ↔ runCommand i (bodyOf i) s = t := by
  simp [exec_eq_runCommand]

/-! ## The DRBG bodies -/

/-- The transactions of seeding (R144): the seeds, one test, the response; nothing else changes. -/
theorem seedBody_eq (S : Sampler) (opA opB : List Byte) (s : State) :
    seedBody S opA opB s =
      { s with out := s.out ++ (opA ++ opB).map (fun b => PortEvent.rs (.seed b)) ++
          [.rs (.test (S.test (rsHistory s.out ++ (opA ++ opB).map RsEvent.seed))),
           .rsp (responseStatus (if S.test (rsHistory s.out ++ (opA ++ opB).map RsEvent.seed) then .ok
             else .failSelftest)), .rsp (responseLength 0)] } := by
  have hist : ∀ x : List Byte, rsHistory (x.map fun b => PortEvent.rs (.seed b)) = x.map RsEvent.seed := by
    intro x
    induction x with
    | nil => rfl
    | cons b x ih => simpa using ih
  simp [seedBody, State.fold_eq, State.rsTest, State.respond, hist]

/-- All the loop of generation can do (R146): draw some bytes, each after a passing test, and end with `ST_OK` at the count asked
for or with `ST_FAIL_GENERATE` at a failing test before it. -/
theorem generateLoop_spec (S : Sampler) (n j : Nat) (s : State) :
    ∃ (bytes : List Byte) (made : List PortEvent), bytes.length ≤ n ∧
      made = bytes.flatMap (fun b => [.rs (.test true), .rs (.sample b), .res b]) ++
        (if bytes.length = n then [.rsp (responseStatus .ok), .rsp (responseLength (j + n))]
         else [.rs (.test false), .rsp (responseStatus .failGenerate), .rsp (responseLength (j + bytes.length))]) ∧
      generateLoop S n j s = { s with out := s.out ++ made } := by
  induction n generalizing j s with
  | zero => exact ⟨[], _, Nat.le_refl 0, rfl, by simp [generateLoop, State.respond]⟩
  | succ n ih =>
    rcases hT : S.test (rsHistory s.out) with _ | _
    · refine ⟨[], _, Nat.zero_le _, rfl, ?_⟩
      simp [generateLoop, State.rsTest, State.respond, hT]
    · obtain ⟨bytes, made, hlen, hmade, hrun⟩ := ih (j + 1)
        (((s.rsTest S).2.rsSample S).2.emit [((s.rsTest S).2.rsSample S).1])
      refine ⟨((s.rsTest S).2.rsSample S).1 :: bytes, _, Nat.succ_le_succ hlen, rfl, ?_⟩
      rw [generateLoop]
      simp only [State.rsTest_fst, hT, ite_true]
      rw [hrun, hmade]
      have e1 : j + 1 + n = j + (n + 1) := by omega
      have e2 : j + 1 + bytes.length = j + (bytes.length + 1) := by omega
      simp [State.rsTest, State.rsSample, State.emit, hT, e1, e2]

/-! ## What no command touches -/

/-- The body of a command leaves CMD, OPD, the sequencer, `rst`, the receivers and the slot counts alone. -/
theorem bodyOf_frame (i : Instr) (opA opB : List Byte) (s : State) :
    (bodyOf i opA opB s).cmd = s.cmd ∧ (bodyOf i opA opB s).opd = s.opd ∧ (bodyOf i opA opB s).seq = s.seq ∧
      (bodyOf i opA opB s).rst = s.rst ∧ (bodyOf i opA opB s).takes = s.takes ∧
      (bodyOf i opA opB s).nKs = s.nKs ∧ (bodyOf i opA opB s).nSha = s.nSha := by
  cases i with
  | drbgGenerate p0 p1 p2 lenA lenB =>
    obtain ⟨bytes, made, -, -, h⟩ := generateLoop_spec Config.sampler lenB.toNat 0 (s.fold opA)
    simp only [bodyOf, generateBody, h]
    simp [State.fold_eq, State.nKs, State.nSha]
  | ctxZero p0 space slot => cases space <;> simp [bodyOf, State.zeroSlot, State.nKs, State.nSha]
  | _ => simp [bodyOf, seedBody_eq, State.nKs, State.nSha]

/-! ## The step -/

/-- A running step always leads to a next state. -/
theorem stepRunning_next (s : State) : ∃ t, stepRunning s = .next t := by
  simp only [stepRunning]
  cases fetch s <;> simp [exec_eq_runCommand]

/-- All a step can be: the reset state while `rst` is asserted, or the running step as far as the ports let it. -/
theorem step_cases (s : State) :
    (s.rst = .high ∧ step s = .next s.toReset) ∨
    (s.rst ≠ .high ∧ ∃ t, stepRunning s = .next t ∧ step s = .next (s.meetPorts t)) := by
  obtain ⟨t, ht⟩ := stepRunning_next s
  rcases h : s.rst with _ | _ | n
  · exact .inr ⟨by simp, t, ht, by simp [step, h, ht]⟩
  · exact .inl ⟨rfl, by simp [step, h]⟩
  · exact .inr ⟨by simp, t, ht, by simp [step, h, ht]⟩

/-! ## The hash slot -/

@[simp] theorem HashSlot.update_nil (c : HashSlot) : c.update [] = c := rfl

@[simp] theorem HashSlot.update_cons (c : HashSlot) (b : Byte) (data : List Byte) :
    c.update (b :: data) = (c.absorb b).update data := rfl

/-- Absorbing one byte string and then another is absorbing them together (the ground of R128). -/
theorem HashSlot.update_append (c : HashSlot) (a b : List Byte) : c.update (a ++ b) = (c.update a).update b := by
  simp [HashSlot.update]

/-! ## Sizes -/

@[simp] theorem toBe32_length (w : Word) : (toBe32 w).length = 4 := rfl

@[simp] theorem toBe64_length (d : Dword) : (toBe64 d).length = 8 := rfl

@[simp] theorem HashSlot.digest_length (c : HashSlot) : c.digest.length = 32 := by
  simp [HashSlot.digest]

@[simp] theorem HashSlot.image_length (c : HashSlot) : c.image.length = 105 := by
  simp [HashSlot.image]

/-- The size of a context image is the one R37 gives. -/
@[simp] theorem State.image_length (s : State) (slot : BitVec 8) (space : Space) :
    (s.image slot space).length = imageSize space := by
  cases space <;> simp [State.image, imageSize]

/-- The operand bytes of a fixed size, taken from a string that begins with them. -/
theorem copyN_toList {n : Nat} (v : Vector Byte n) : copyN n v.toList = v := by
  ext k hk
  simp [copyN, List.getD]

end Sys2Proof.Machine
end

