-- ==== Sys2Proof/Laws/PerInstr.lean ====
section
/-! SUPPORT. Statements made per instruction. -/

namespace Sys2Proof.Laws

namespace EncodeSelectsRow

/-- The words of a command select the row of R54's map that has its name, and leave unused length words 0. -/
def Statement (i : Instr) : Prop :=
  ∃ r ∈ opcodeRows, r.mnemonic = i.mnemonic ∧ r.selects (encode i).w0 = true ∧
    r.format.lengthsOk (encode i).w1 (encode i).w2 = true

theorem aesSetEncKey (p0 p1 : Bool) (slot : BitVec 8) : Statement (.aesSetEncKey p0 p1 slot) :=
  ⟨⟨"AES_SET_ENC_KEY", .f0, 0x00000001#32, 0xFFFF00CF#32⟩, by decide, rfl, by revert p0 p1 slot; decide +kernel, rfl⟩

theorem aesSetDecKey (p0 p1 : Bool) (slot : BitVec 8) : Statement (.aesSetDecKey p0 p1 slot) :=
  ⟨⟨"AES_SET_DEC_KEY", .f0, 0x00000002#32, 0xFFFF00CF#32⟩, by decide, rfl, by revert p0 p1 slot; decide +kernel, rfl⟩

theorem aesEncBlock (p0 p1 p2 : Bool) (slot : BitVec 8) : Statement (.aesEncBlock p0 p1 p2 slot) :=
  ⟨⟨"AES_ENC_BLOCK", .f0, 0x00000003#32, 0xFFFF008F#32⟩, by decide, rfl, by revert p0 p1 p2 slot; decide +kernel, rfl⟩

theorem aesDecBlock (p0 p1 p2 : Bool) (slot : BitVec 8) : Statement (.aesDecBlock p0 p1 p2 slot) :=
  ⟨⟨"AES_DEC_BLOCK", .f0, 0x00000004#32, 0xFFFF008F#32⟩, by decide, rfl, by revert p0 p1 p2 slot; decide +kernel, rfl⟩

theorem shaInit (p0 : Bool) (slot : BitVec 8) : Statement (.shaInit p0 slot) :=
  ⟨⟨"SHA_INIT", .f0, 0x00000005#32, 0xFFFF00EF#32⟩, by decide, rfl, by revert p0 slot; decide +kernel, rfl⟩

theorem shaUpdate (p0 p1 : Bool) (slot : BitVec 8) (lenA : Word) : Statement (.shaUpdate p0 p1 slot lenA) :=
  ⟨⟨"SHA_UPDATE", .f1, 0x00000006#32, 0xFFFF00CF#32⟩, by decide, rfl,
    by simp only [encode]; revert p0 p1 slot; decide +kernel, rfl⟩

theorem shaFinal (p0 p1 : Bool) (slot : BitVec 8) : Statement (.shaFinal p0 p1 slot) :=
  ⟨⟨"SHA_FINAL", .f0, 0x00000007#32, 0xFFFF00CF#32⟩, by decide, rfl, by revert p0 p1 slot; decide +kernel, rfl⟩

theorem drbgInit (p0 p1 p2 : Bool) (lenA lenB : Word) : Statement (.drbgInit p0 p1 p2 lenA lenB) :=
  ⟨⟨"DRBG_INIT", .f2, 0x00000008#32, 0xFFFFFF8F#32⟩, by decide, rfl,
    by simp only [encode]; revert p0 p1 p2; decide +kernel, rfl⟩

theorem drbgReseed (p0 p1 p2 : Bool) (lenA lenB : Word) : Statement (.drbgReseed p0 p1 p2 lenA lenB) :=
  ⟨⟨"DRBG_RESEED", .f2, 0x00000009#32, 0xFFFFFF8F#32⟩, by decide, rfl,
    by simp only [encode]; revert p0 p1 p2; decide +kernel, rfl⟩

theorem drbgGenerate (p0 p1 p2 : Bool) (lenA lenB : Word) : Statement (.drbgGenerate p0 p1 p2 lenA lenB) :=
  ⟨⟨"DRBG_GENERATE", .f2, 0x0000000A#32, 0xFFFFFF8F#32⟩, by decide, rfl,
    by simp only [encode]; revert p0 p1 p2; decide +kernel, rfl⟩

theorem drbgUninst (p0 : Bool) : Statement (.drbgUninst p0) :=
  ⟨⟨"DRBG_UNINST", .f0, 0x0000000B#32, 0xFFFFFFEF#32⟩, by decide, rfl, by revert p0; decide +kernel, rfl⟩

theorem ctxRead (p0 : Bool) (space : Space) (slot : BitVec 8) (lenA lenB : Word) :
    Statement (.ctxRead p0 space slot lenA lenB) :=
  ⟨⟨"CTX_READ", .f2, 0x0000000C#32, 0xFFFE00EF#32⟩, by decide, rfl,
    by simp only [encode]; cases space <;> (revert p0 slot; decide +kernel), rfl⟩

theorem ctxZero (p0 : Bool) (space : Space) (slot : BitVec 8) : Statement (.ctxZero p0 space slot) :=
  ⟨⟨"CTX_ZERO", .f0, 0x0000000D#32, 0xFFFE00EF#32⟩, by decide, rfl,
    by simp only [encode]; cases space <;> (revert p0 slot; decide +kernel), rfl⟩

end EncodeSelectsRow

end Sys2Proof.Laws
end

