-- ==== Sys2Proof/Laws/Sha.lean ====
section
/-! SUPPORT. Each byte of what the SHA-256 buffer operations give, and what absorbing one byte does, so that a proof about padding
or streaming cites these and unfolds none of them. -/

namespace Sys2Proof.Machine

theorem copyN_getElem (n : Nat) (src : List Byte) (k : Nat) (h : k < n) : (copyN n src)[k] = src.getD k 0#8 :=
  Vector.getElem_ofFn ..

theorem zeroRange_getElem (buf : HashBlock) (lo hi k : Nat) (h : k < 64) :
    (zeroRange buf lo hi)[k] = if lo ≤ k ∧ k < hi then 0#8 else buf[k] :=
  Vector.getElem_ofFn ..

theorem putLength_getElem (buf : HashBlock) (bits : Dword) (k : Nat) (h : k < 64) :
    (putLength buf bits)[k] = if 56 ≤ k then (toBe64 bits).getD (k - 56) 0#8 else buf[k] :=
  Vector.getElem_ofFn ..

theorem HashSlot.putByte_getElem (c : HashSlot) (i : BitVec 6) (b : Byte) (k : Nat) (h : k < 64) :
    (c.putByte i b)[k] = if i.toNat = k then b else c.buf[k] :=
  Vector.getElem_set ..

/-- Absorbing the last byte of a block (R125): the block is compressed. -/
theorem HashSlot.absorb_full (c : HashSlot) (b : Byte) (h : c.off = 63#6) :
    c.absorb b =
      { h := compress c.h (c.putByte c.off b), buf := c.putByte c.off b, off := 0#6, bits := c.bits + 512#64 } := by
  rw [HashSlot.absorb, if_pos h]

/-- Absorbing any other byte (R125): the offset moves on by 1. -/
theorem HashSlot.absorb_more (c : HashSlot) (b : Byte) (h : c.off ≠ 63#6) :
    c.absorb b = { c with buf := c.putByte c.off b, off := c.off + 1#6 } := by
  rw [HashSlot.absorb, if_neg h]

/-- The offset counts the pending bytes modulo 64 (R16). -/
theorem HashSlot.absorb_off (c : HashSlot) (b : Byte) : (c.absorb b).off.toNat = (c.off.toNat + 1) % 64 := by
  by_cases h : c.off = 63#6
  · rw [c.absorb_full b h, h]
    rfl
  · rw [c.absorb_more b h]
    exact BitVec.toNat_add ..

/-- The bits `SHA_FINAL` adds for the pending bytes are 8 for each (R126). -/
theorem HashSlot.totalBits_eq (c : HashSlot) : c.totalBits = c.bits + BitVec.ofNat 64 (8 * c.off.toNat) := by
  have h := c.off.isLt
  have e : c.off.setWidth 64 <<< 3 = BitVec.ofNat 64 (8 * c.off.toNat) := by
    apply BitVec.eq_of_toNat_eq
    simp only [BitVec.toNat_shiftLeft, BitVec.toNat_setWidth, BitVec.toNat_ofNat, Nat.shiftLeft_eq]
    omega
  rw [HashSlot.totalBits, e]

end Sys2Proof.Machine
end

