-- ==== Sys2Proof/Machine/Text.lean ====
section
/-! DEFINITION. The textual form of a command (rule R60): how the spec writes one, with its operand bytes. Nothing the machine
does rests on it. -/

namespace Sys2Proof.Machine

/-- One lower-case hex digit. -/
def hexDigit (n : Nat) : Char := Char.ofNat (if n < 10 then 48 + n else 87 + n)

/-- A byte string in hex, byte 0 first (00_scope.md section 5.1). -/
def hexText (bs : List Byte) : List Char := bs.flatMap fun b => [hexDigit (b.toNat / 16), hexDigit (b.toNat % 16)]

/-- A number in decimal: its last `fuel` digits, without leading zeros. -/
def decimalDigits : Nat → Nat → List Char
  | 0, _ => []
  | fuel + 1, n => (if n < 10 then [] else decimalDigits fuel (n / 10)) ++ [hexDigit (n % 10)]

/-- A slot, an offset or a length in decimal: none has more than ten digits. -/
def numText (n : Nat) : List Char := decimalDigits 10 n

/-- A data operand: hex when present, which implies its length; `-` when absent, and then `len` where there is one to write. -/
def dataText (name : String) (present : Bool) (len : Option Nat) (bs : List Byte) : List (List Char) :=
  if present then [name.toList ++ '=' :: hexText bs]
  else (name.toList ++ ['=', '-']) :: len.toList.map fun n => "len=".toList ++ numText n

/-- The length to write of an optional data operand: R60's examples leave out the 0 of an absent one. -/
def optionalLen (len : Nat) : Option Nat := if len = 0 then none else some len

/-- An output operand, or the DRBG context: `+` when present, `-` when absent. -/
def markText (name : String) (present : Bool) : List Char := name.toList ++ ['=', if present then '+' else '-']

/-- A context operand: the slot number when present, `-` when absent (R60). R60 encodes an absent one with slot 0 and gives the
other slots no text; the model writes `-` for those too, which is its choice (assumption log 19). -/
def slotText (name : String) (present : Bool) (slot : BitVec 8) : List Char :=
  name.toList ++ '=' :: (if present then numText slot.toNat else ['-'])

/-- The number of a context space in text. -/
def spaceText (space : Space) : List Char := ['s', 'p', '=', if space = .keySched then '0' else '1']

/-- The operands and fields of a command, in the order of R55, given its two operand byte strings. A required data operand that is
absent has its length written whatever it is, an optional one where it is not 0 (assumption log 18); the AES operands have no
length. -/
def operandTexts : Instr → List Byte → List Byte → List (List Char)
  | .aesSetEncKey p0 p1 slot, opA, _ => dataText "key" p0 none opA ++ [slotText "ks" p1 slot]
  | .aesSetDecKey p0 p1 slot, opA, _ => dataText "key" p0 none opA ++ [slotText "ks" p1 slot]
  | .aesEncBlock p0 p1 p2 slot, opA, _ =>
    markText "out" p0 :: dataText "in" p1 none opA ++ [slotText "ks" p2 slot]
  | .aesDecBlock p0 p1 p2 slot, opA, _ =>
    markText "out" p0 :: dataText "in" p1 none opA ++ [slotText "ks" p2 slot]
  | .shaInit p0 slot, _, _ => [slotText "st" p0 slot]
  | .shaUpdate p0 p1 slot lenA, opA, _ =>
    slotText "st" p0 slot :: dataText "data" p1 (some lenA.toNat) opA
  | .shaFinal p0 p1 slot, _, _ => [markText "digest" p0, slotText "st" p1 slot]
  | .drbgInit p0 p1 p2 lenA lenB, opA, opB =>
    markText "ctx" p0 :: dataText "entropy" p1 (some lenA.toNat) opA
      ++ dataText "pers" p2 (optionalLen lenB.toNat) opB
  | .drbgReseed p0 p1 p2 lenA lenB, opA, opB =>
    markText "ctx" p0 :: dataText "entropy" p1 (some lenA.toNat) opA
      ++ dataText "add" p2 (optionalLen lenB.toNat) opB
  | .drbgGenerate p0 p1 p2 lenA lenB, opA, _ =>
    markText "ctx" p0 :: dataText "add" p1 (optionalLen lenA.toNat) opA
      ++ [markText "out" p2, "n=".toList ++ numText lenB.toNat]
  | .drbgUninst p0, _, _ => [markText "ctx" p0]
  | .ctxRead p0 space slot lenA lenB, _, _ =>
    [markText "out" p0, spaceText space, slotText "slot" true slot,
      "off=".toList ++ numText lenA.toNat, "n=".toList ++ numText lenB.toNat]
  | .ctxZero p0 space slot, _, _ => [spaceText space, slotText "slot" p0 slot]

/-- The text of a command: its mnemonic, a blank, and the pairs with a comma and a blank between them (R60). -/
def commandText (i : Instr) (opA opB : List Byte) : List Char :=
  i.mnemonic.toList ++ ' ' :: ", ".toList.intercalate (operandTexts i opA opB)

end Sys2Proof.Machine
end

