-- ==== Sys2Proof/Tests/Slice0.lean ====
section
/-! SUPPORT. Tests of the model. The expected values are the spec's: the encodings of 30_encoding.md R60, the worked vectors of
95_test_vectors.md (V1 to V26; N_KS = 2 and N_SHA = 1 as there), or written out from the encoding tables. Each is about one step
or one function. At the end, a witness for the hypotheses of every statement that has any. -/

namespace Sys2Proof.Tests

open Sys2Proof Sys2Proof.Machine

/-! ## Helpers -/

/-- The `len` bytes of a hex string written as a number, byte 0 first. -/
def bytes (len n : Nat) : List Byte := (List.range len).map fun i => BitVec.ofNat 8 (n >>> (8 * (len - 1 - i)))

/-- A block from its hex string. -/
def blockOf (n : Nat) : Block := copyN 16 (bytes 16 n)

/-- The machine after reset, with a command and operand bytes offered. -/
def offered (w0 w1 w2 : Word) (opd : List Byte) : State := { State.reset with cmd := [w0, w1, w2], opd := opd }

/-- The state a step leads to (the starting state where it does not lead to one). -/
def after (s : State) : State :=
  match step s with
  | .next t => t
  | .fault _ => s
  | .refused _ => s

/-- The result bytes among a list of transactions. -/
def results (out : List PortEvent) : List Byte :=
  out.filterMap fun e => match e with
    | .res b => some b
    | .rs _ => none
    | .rsp _ => none

/-- The key of V1 and V4. -/
def key1 : Block := blockOf 0x000102030405060708090a0b0c0d0e0f

/-- A step whose only transactions are a response, with what is left on OPD, every slot as it was. -/
def answers (s : State) (r0 : Word) (left : List Byte) : Bool :=
  decide ((after s).out = [.rsp r0, .rsp 0#32]) && decide ((after s).opd = left) && decide ((after s).ks = s.ks) &&
    decide ((after s).sha = s.sha)

/-! ## Decoding: words written out from R51 and R54 -/

/-- `AES_SET_ENC_KEY key, ks=1`: op 0001 in bits 3:0, P0 in 4, P1 in 5, slot 1 in 15:8. -/
theorem test_decode_set_enc_key : decode 0b00000000000000000000000100110001#32 0#32 0#32
    = .ok (.aesSetEncKey true true 1#8) := by decide

theorem test_decode_set_dec_key : decode 0x00000132#32 0#32 0#32 = .ok (.aesSetDecKey true true 1#8) := by decide

/-- R60: out absent is P0 = 0. -/
theorem test_decode_enc_block : decode 0x00000063#32 0#32 0#32 = .ok (.aesEncBlock false true true 0#8) := by decide

/-- V11: `AES_DEC_BLOCK out=+, in, ks=-` is P0 and P1 without P2. -/
theorem test_decode_dec_block : decode 0x00000034#32 0#32 0#32 = .ok (.aesDecBlock true true false 0#8) := by decide

theorem test_decode_sha_init : decode 0x00000015#32 0#32 0#32 = .ok (.shaInit true 0#8) := by decide

/-- `SHA_UPDATE st=0, data=-, len=3`: op 0110, P0 in bit 4, LEN_A in W1. -/
theorem test_decode_sha_update : decode 0b00000000000000000000000000010110#32 3#32 0#32
    = .ok (.shaUpdate true false 0#8 3#32) := by decide

theorem test_decode_sha_final : decode 0x00000027#32 0#32 0#32 = .ok (.shaFinal false true 0#8) := by decide

/-- `DRBG_INIT ctx=+, entropy, pers`: op 1000, P0, P1, P2 in bits 4, 5, 6. -/
theorem test_decode_drbg_init : decode 0b00000000000000000000000001111000#32 2#32 1#32
    = .ok (.drbgInit true true true 2#32 1#32) := by decide

theorem test_decode_drbg_reseed : decode 0x00000039#32 2#32 0#32 = .ok (.drbgReseed true true false 2#32 0#32) := by decide

theorem test_decode_drbg_generate : decode 0x0000005a#32 0#32 4#32 = .ok (.drbgGenerate true false true 0#32 4#32) := by
  decide

theorem test_decode_drbg_uninst : decode 0x0000001b#32 0#32 0#32 = .ok (.drbgUninst true) := by decide

/-- `CTX_READ out=+, sp=1, slot=0, off=0, n=32`: op 1100, P0 in bit 4, space 1 in bit 16. -/
theorem test_decode_ctx_read : decode 0b00000000000000010000000000011100#32 0#32 32#32
    = .ok (.ctxRead true .hash 0#8 0#32 32#32) := by decide

theorem test_decode_ctx_zero : decode 0x0000011d#32 0#32 0#32 = .ok (.ctxZero true .keySched 1#8) := by decide

/-- V26: the encodings that are no command, whatever N_KS and N_SHA are. -/
theorem test_decode_rejects :
    [decode 0#32 0#32 0#32, decode 0x0000001e#32 0#32 0#32, decode 0x0000001f#32 0#32 0#32,
     decode 0x000000b1#32 0#32 0#32, decode 0x00040015#32 0#32 0#32, decode 0x00000035#32 0#32 0#32,
     decode 0x00010031#32 0#32 0#32, decode 0x0002001c#32 0#32 0#32, decode 0x0000011b#32 0#32 0#32,
     decode 0x00000037#32 0x20#32 0#32].map (fun r => match r with
      | .ok _ => none
      | .error e => some e)
    = [some .reservedOpcode, some .reservedOpcode, some .reservedOpcode, some .reservedBit, some .reservedBit,
       some .unusedPresence, some .badSpace, some .badSpace, some .badSlot, some .unusedLength] := by decide

/-- The same command as one number of the opcode table: W1 starts at bit 32. -/
theorem test_decode_table_word : decodeTableWord 64 0x0000000300000036 = some (.shaUpdate true true 0#8 3#32) := by
  decide

theorem test_decode_table_word_short : decodeTableWord 32 0x0000000300000036 = some (.shaUpdate true true 0#8 0#32) := by
  decide

/-- R60's examples of the textual form. -/
theorem test_text :
    commandText (.aesEncBlock false true true 0#8) [0x00#8, 0x11#8] [] = "AES_ENC_BLOCK out=-, in=0011, ks=0".toList ∧
    commandText (.shaUpdate true true 0#8 3#32) [0x61#8, 0x62#8, 0x63#8] [] = "SHA_UPDATE st=0, data=616263".toList ∧
    commandText (.shaUpdate true false 0#8 3#32) [] [] = "SHA_UPDATE st=0, data=-, len=3".toList ∧
    commandText (.drbgInit true true true 2#32 1#32) [0xde#8, 0xad#8] [0xbe#8]
      = "DRBG_INIT ctx=+, entropy=dead, pers=be".toList ∧
    commandText (.drbgInit true true false 2#32 0#32) [0xde#8, 0xad#8] [] = "DRBG_INIT ctx=+, entropy=dead, pers=-".toList ∧
    commandText (.drbgGenerate true false true 0#32 4#32) [] [] = "DRBG_GENERATE ctx=+, add=-, out=+, n=4".toList ∧
    commandText (.ctxRead true .hash 0#8 0#32 32#32) [] [] = "CTX_READ out=+, sp=1, slot=0, off=0, n=32".toList := by
  decide +kernel

/-- The lengths of absent operands in V11, V16 and V23: a required one has its length even at 0, an optional one where it is not 0. -/
theorem test_text_lengths :
    commandText (.aesSetEncKey false true 0#8) [] [] = "AES_SET_ENC_KEY key=-, ks=0".toList ∧
    commandText (.shaUpdate true false 0#8 0#32) [] [] = "SHA_UPDATE st=0, data=-, len=0".toList ∧
    commandText (.drbgInit true false true 2#32 1#32) [] [0xbe#8] = "DRBG_INIT ctx=+, entropy=-, len=2, pers=be".toList ∧
    commandText (.drbgInit true true false 2#32 2#32) [0xde#8, 0xad#8] []
      = "DRBG_INIT ctx=+, entropy=dead, pers=-, len=2".toList ∧
    commandText (.drbgGenerate true false true 1#32 1#32) [] [] = "DRBG_GENERATE ctx=+, add=-, len=1, out=+, n=1".toList ∧
    commandText (.drbgReseed true true false 2#32 0#32) [0xca#8, 0xfe#8] []
      = "DRBG_RESEED ctx=+, entropy=cafe, add=-".toList := by decide +kernel

/-! ## WellFormed: one ill-formed term for each check -/

theorem test_wellformed_schedule_slot : Instr.wellFormed 2 1 (.aesEncBlock true true true 2#8) = false := by decide

theorem test_wellformed_hash_slot : Instr.wellFormed 2 1 (.shaInit true 1#8) = false := by decide

/-- R57: condition (6) applies whether or not the context operand is present. -/
theorem test_wellformed_absent_slot : Instr.wellFormed 2 1 (.aesSetEncKey true false 2#8) = false := by decide

theorem test_wellformed_ctx_slot : Instr.wellFormed 2 1 (.ctxZero true .hash 1#8) = false := by decide

/-- V24: 161 + 16 passes 176. -/
theorem test_wellformed_schedule_run : Instr.wellFormed 2 1 (.ctxRead true .keySched 0#8 161#32 16#32) = false := by decide

/-- V24: 100 + 6 passes 105, and 176 + 0 does not pass 176. -/
theorem test_wellformed_hash_run : Instr.wellFormed 2 1 (.ctxRead true .hash 0#8 100#32 6#32) = false ∧
    Instr.wellFormed 2 1 (.ctxRead true .keySched 0#8 176#32 0#32) = true := by decide

/-- V26: the sum of offset and count is taken without wrap-around. -/
theorem test_wellformed_no_wrap : Instr.wellFormed 2 1 (.ctxRead true .keySched 0#8 0xffffffff#32 2#32) = false := by decide

theorem test_params : paramsWellFormed 0 1 = false ∧ paramsWellFormed 257 1 = false ∧ paramsWellFormed 2 0 = false ∧
    paramsWellFormed 2 257 = false ∧ paramsWellFormed 256 256 = true := by decide

/-! ## Primitives (95_test_vectors.md section 2.1) -/

theorem test_field : gmul 0x57#8 0x83#8 = 0xc1#8 ∧ gmul 0x57#8 0x13#8 = 0xfe#8 ∧ xtime 0xff#8 = 0xe5#8 ∧
    ginv 0x53#8 = 0xca#8 := by decide +kernel

theorem test_mix_columns : mixCol #v[0xdb#8, 0x13#8, 0x53#8, 0x45#8] = #v[0x8e#8, 0x4d#8, 0xa1#8, 0xbc#8] ∧
    invMixCol #v[0xd6#8, 0xaa#8, 0x74#8, 0xfd#8] = #v[0x8c#8, 0x56#8, 0xdf#8, 0xf0#8] := by decide +kernel

theorem test_shift_rows : (shiftRows key1).toList = bytes 16 0x00050a0f04090e03080d02070c01060b ∧
    (invShiftRows key1).toList = bytes 16 0x000d0a0704010e0b0805020f0c090603 := by decide +kernel

theorem test_mixing : bmix 0xf0f0f0f0#32 0x12345678#32 0x9abcdef0#32 .ch = 0x1a3c5e70#32 ∧
    bmix 0xf0f0f0f0#32 0x12345678#32 0x9abcdef0#32 .maj = 0x92b4d6f0#32 := by decide

theorem test_sigmas : bsig0 0x6a09e667#32 = 0xce20b47e#32 ∧ bsig1 0x6a09e667#32 = 0x55b65510#32 ∧
    ssig0 0x6a09e667#32 = 0xba0cf582#32 ∧ ssig1 0x6a09e667#32 = 0xcfe5da3c#32 := by decide

/-- R91: transposition takes row 0 of the linear order first, and is its own inverse here. -/
theorem test_transpose : (transpose16 key1).toList = bytes 16 0x0004080c0105090d02060a0e03070b0f ∧
    transpose16 (transpose16 key1) = key1 := by decide +kernel

/-! ## AES -/

/-- V4, left column: round keys 1, 2 and 10. -/
theorem test_set_enc_key :
    let t := after (offered 0x00000031#32 0#32 0#32 key1.toList)
    (schedRoundKey (t.readKs 0#8) 1).toList = bytes 16 0xd6aa74fdd2af72fadaa678f1d6ab76fe ∧
    (schedRoundKey (t.readKs 0#8) 2).toList = bytes 16 0xb692cf0b643dbdf1be9bc5006830b3fe ∧
    (schedRoundKey (t.readKs 0#8) 10).toList = bytes 16 0x13111d7fe3944a17f307a78b4d2b30c5 ∧
    t.out = [.rsp 1#32, .rsp 0#32] := by decide +kernel

/-- V4, right column: round keys 0, 1, 9 and 10 on slot 1. -/
theorem test_set_dec_key :
    let t := after (offered 0x00000132#32 0#32 0#32 key1.toList)
    (schedRoundKey (t.readKs 1#8) 0) = key1 ∧
    (schedRoundKey (t.readKs 1#8) 1).toList = bytes 16 0x8c56dff0825dd3f9805ad3fc8659d7fd ∧
    (schedRoundKey (t.readKs 1#8) 9).toList = bytes 16 0x13aa29be9c8faff6f770f58000f7bf03 ∧
    (schedRoundKey (t.readKs 1#8) 10).toList = bytes 16 0x13111d7fe3944a17f307a78b4d2b30c5 := by decide +kernel

/-- V1. -/
theorem test_enc_block :
    let s := (offered 0x00000073#32 0#32 0#32 (bytes 16 0x00112233445566778899aabbccddeeff)).writeKs 0#8 (keyExpand key1)
    (after s).out = (bytes 16 0x69c4e0d86a7b0430d8cdb78070b4c55a).map PortEvent.res ++ [.rsp 1#32, .rsp 16#32] := by
  decide +kernel

/-- V1 in the other direction (R113), and the decrypt schedule of V4. -/
theorem test_dec_block :
    let s := (offered 0x00000174#32 0#32 0#32 (bytes 16 0x69c4e0d86a7b0430d8cdb78070b4c55a)).writeKs 1#8
      (decKey (keyExpand key1))
    (after s).out = (bytes 16 0x00112233445566778899aabbccddeeff).map PortEvent.res ++ [.rsp 1#32, .rsp 16#32] := by
  decide +kernel

/-- V10: a slot of zeros is used as it is. -/
theorem test_dec_block_zero_slot : (after (offered 0x00000074#32 0#32 0#32 (List.replicate 16 0#8))).out
    = (List.replicate 16 0x6a#8).map PortEvent.res ++ [.rsp 1#32, .rsp 16#32] := by decide +kernel

/-- V11: the bytes of the present operand are taken and discarded. -/
theorem test_aes_absent :
    answers (offered 0x00000063#32 0#32 0#32 (List.replicate 17 0xaa#8)) 0#32 [0xaa#8] = true ∧
    answers (offered 0x00000021#32 0#32 0#32 [0xaa#8]) 0#32 [0xaa#8] = true ∧
    answers (offered 0x00000011#32 0#32 0#32 (List.replicate 16 0xff#8)) 0#32 [] = true := by decide +kernel

/-- V11: illegal commands take nothing. -/
theorem test_aes_illegal :
    answers (offered 0x00000071#32 0#32 0#32 [0xaa#8]) 4#32 [0xaa#8] = true ∧
    answers (offered 0x00000273#32 0#32 0#32 [0xaa#8]) 4#32 [0xaa#8] = true ∧
    answers (offered 0x00000073#32 0x10#32 0#32 [0xaa#8]) 4#32 [0xaa#8] = true := by decide +kernel

/-! ## SHA-256 -/

/-- V13: the image after `SHA_INIT`. -/
theorem test_sha_init : ((after (offered 0x00000015#32 0#32 0#32 [])).readSha 0#8).image
    = bytes 32 0x6a09e667bb67ae853c6ef372a54ff53a510e527f9b05688c1f83d9ab5be0cd19 ++ List.replicate 73 0#8 := by
  decide +kernel

/-- V13, third and fourth rows in one: three bytes pending, the counter still 0. -/
theorem test_sha_update :
    let s := (offered 0x00000036#32 3#32 0#32 [0x61#8, 0x62#8, 0x63#8]).writeSha 0#8 HashSlot.initial
    (after s).ctxBytes .hash 0#8 32 73 = [0x61#8, 0x62#8, 0x63#8] ++ List.replicate 61 0#8 ++ [3#8] ++ List.replicate 8 0#8 := by
  decide +kernel

/-- V13: 64 bytes fill the buffer, which is compressed at once and not cleared. -/
theorem test_sha_update_block :
    let s := (offered 0x00000036#32 64#32 0#32 (List.replicate 64 0x61#8)).writeSha 0#8 HashSlot.initial
    ((after s).readSha 0#8).image
      = bytes 32 0xdf5bb81ce81e0626fb45a8944fd40f31b25e6816d6d499c1ab90492900635e66 ++ List.replicate 64 0x61#8 ++ [0#8] ++
        bytes 8 0x200 := by decide +kernel

/-- V3: "abc". -/
theorem test_sha_final :
    let s := (offered 0x00000037#32 0#32 0#32 []).writeSha 0#8 (HashSlot.initial.update [0x61#8, 0x62#8, 0x63#8])
    (after s).out = (bytes 32 0xba7816bf8f01cfea414140de5dae2223b00361a396177a9cb410ff61f20015ad).map PortEvent.res ++
      [.rsp 1#32, .rsp 32#32] ∧ (after s).sha = [HashSlot.zero] := by decide +kernel

/-- V14: 56 bytes leave no room for the length, so two blocks are compressed. -/
theorem test_sha_final_two_blocks : (HashSlot.initial.update (List.replicate 56 0x61#8)).digest
    = bytes 32 0xb35439a4ac6f0948b6d6f9e3c6af0f5f590ce20f1bde7090ef7970686ec6738a := by decide +kernel

/-- V16: absent operands, data required even at length 0, and a length word that must be 0. -/
theorem test_sha_failures :
    answers (offered 0x00000016#32 0#32 0#32 []) 0#32 [] = true ∧
    answers (offered 0x00000026#32 3#32 0#32 [1#8, 2#8, 3#8, 4#8]) 0#32 [4#8] = true ∧
    answers (offered 0x00000027#32 0#32 0#32 []) 0#32 [] = true ∧
    answers (offered 0x00000005#32 0#32 0#32 []) 0#32 [] = true ∧
    answers (offered 0x00000036#32 3#32 1#32 [1#8]) 4#32 [1#8] = true ∧
    answers (offered 0x00000115#32 0#32 0#32 []) 4#32 [] = true ∧
    answers (offered 0x00000036#32 0#32 0#32 []) 1#32 [] = true := by decide +kernel

/-! ## DRBG, with the stand-in sampler of 95_test_vectors.md section 2.4 -/

/-- A fixed list of test answers and of sample bytes, each returned in order; `seed` changes nothing. -/
def standIn (tests : List Bool) (samples : List Byte) : Sampler :=
  SamplerRecord.toSampler
    { init := (tests, samples)
      seed := fun sg _ => sg
      test := fun sg => ((sg.1.tail, sg.2), sg.1.headD false)
      sample := fun sg => ((sg.1, sg.2.tail), sg.2.headD 0#8) }

/-- V18. -/
theorem test_drbg_init : (seedBody (standIn [true] []) [0xde#8, 0xad#8] [0xbe#8] State.reset).out
    = [.rs (.seed 0xde#8), .rs (.seed 0xad#8), .rs (.seed 0xbe#8), .rs (.test true), .rsp 1#32, .rsp 0#32] := by decide

/-- V21: a bare self-test that fails. -/
theorem test_drbg_init_fails : (seedBody (standIn [false] []) [] [] State.reset).out
    = [.rs (.test false), .rsp 2#32, .rsp 0#32] := by decide

/-- V19. -/
theorem test_drbg_generate :
    (generateBody (standIn [true, true, true] [0xa5#8, 0x5a#8, 0xc3#8]) 3#32 [0x01#8] State.reset).out
    = [.rs (.seed 0x01#8), .rs (.test true), .rs (.sample 0xa5#8), .res 0xa5#8, .rs (.test true), .rs (.sample 0x5a#8),
       .res 0x5a#8, .rs (.test true), .rs (.sample 0xc3#8), .res 0xc3#8, .rsp 1#32, .rsp 3#32] := by decide

/-- V20. -/
theorem test_drbg_generate_fails :
    (generateBody (standIn [true, true, false] [0xa5#8, 0x5a#8, 0xc3#8]) 4#32 [] State.reset).out
    = [.rs (.test true), .rs (.sample 0xa5#8), .res 0xa5#8, .rs (.test true), .rs (.sample 0x5a#8), .res 0x5a#8,
       .rs (.test false), .rsp 3#32, .rsp 2#32] := by decide

/-- V22: reseeding folds entropy and then additional input. -/
theorem test_drbg_reseed : (after (offered 0x00000079#32 2#32 2#32 [0xca#8, 0xfe#8, 0x07#8, 0x08#8])).out.take 4
    = [.rs (.seed 0xca#8), .rs (.seed 0xfe#8), .rs (.seed 0x07#8), .rs (.seed 0x08#8)] := by decide +kernel

/-- V23. -/
theorem test_drbg_noops_and_failures :
    answers (offered 0x0000005a#32 0#32 0#32 []) 1#32 [] = true ∧
    answers (offered 0x0000001b#32 0#32 0#32 []) 1#32 [] = true ∧
    answers (offered 0x0000000b#32 0#32 0#32 []) 0#32 [] = true ∧
    answers (offered 0x00000058#32 2#32 1#32 [0xbe#8]) 0#32 [] = true ∧
    answers (offered 0x00000038#32 2#32 2#32 [0xde#8, 0xad#8]) 0#32 [] = true ∧
    answers (offered 0x0000005a#32 1#32 1#32 []) 0#32 [] = true ∧
    answers (offered 0x0000006a#32 1#32 3#32 [0x01#8]) 0#32 [] = true ∧
    answers (offered 0x00000178#32 2#32 1#32 []) 4#32 [] = true ∧
    answers (offered 0x0000001b#32 1#32 0#32 []) 4#32 [] = true := by decide +kernel

/-! ## Context access -/

/-- V24: a run from the middle of a schedule. -/
theorem test_ctx_read_schedule :
    let s := (offered 0x0000011c#32 0x10#32 0x10#32 []).writeKs 1#8 (decKey (keyExpand key1))
    (after s).out = (bytes 16 0x8c56dff0825dd3f9805ad3fc8659d7fd).map PortEvent.res ++ [.rsp 1#32, .rsp 16#32] := by decide +kernel

/-- V24: a run across `H[7]` and `BUF`. -/
theorem test_ctx_read_hash :
    let s := (offered 0x0001001c#32 31#32 3#32 []).writeSha 0#8 (HashSlot.initial.update [0x61#8, 0x62#8, 0x63#8])
    results (after s).out = [0x19#8, 0x61#8, 0x62#8] := by decide +kernel

/-- V24 and V26: nothing read at the end of the image, out absent, a run past the end. -/
theorem test_ctx_read_edges :
    answers (offered 0x0000001c#32 0xb0#32 0#32 []) 1#32 [] = true ∧
    answers (offered 0x0000000c#32 0#32 0x10#32 []) 0#32 [] = true ∧
    answers (offered 0x0000001c#32 0xa1#32 0x10#32 []) 4#32 [] = true ∧
    answers (offered 0x0000001c#32 0xffffffff#32 2#32 []) 4#32 [] = true := by decide +kernel

/-- V25: slot 0 zeroed, slot 1 untouched. -/
theorem test_ctx_zero :
    let one : KeySched := Vector.replicate 176 1#8
    let s := ((offered 0x0000001d#32 0#32 0#32 []).writeKs 0#8 one).writeKs 1#8 one
    (after s).ks = [zeroSched, one] ∧ (after s).out = [.rsp 1#32, .rsp 0#32] := by decide +kernel

/-- V25: a hash in progress abandoned; and an absent state, nothing written. -/
theorem test_ctx_zero_hash :
    (after ((offered 0x0001001d#32 0#32 0#32 []).writeSha 0#8 HashSlot.initial)).sha = [HashSlot.zero] ∧
    answers ((offered 0x0000000d#32 0#32 0#32 []).writeKs 0#8 (Vector.replicate 176 1#8)) 0#32 [] = true := by decide +kernel

/-! ## The sequencer, the ports and reset -/

/-- R31: with two words offered the block takes them and waits. -/
theorem test_waits_for_words : after { State.reset with cmd := [0x1b#32, 0#32] }
    = { State.reset with seq := .gotTwo 0x1b#32 0#32 } := by decide +kernel

/-- R199: with 2 of 3 operand bytes offered the command takes them and waits. -/
theorem test_waits_for_operands : after (offered 0x00000036#32 3#32 0#32 [0x61#8, 0x62#8])
    = { State.reset with seq := .operands (.shaUpdate true true 0#8 3#32) [0x61#8, 0x62#8] } := by decide +kernel

/-- R191: a reset after the three words and one of 16 result bytes keeps that byte, sends no response and zeroes the slots. -/
theorem test_reset_inside_command :
    let one : KeySched := Vector.replicate 176 1#8
    let s := { (offered 0x0000001c#32 0#32 16#32 []).writeKs 0#8 one with rst := .after 4 }
    (after s).out = [.res 1#8] ∧ (after s).ks = [zeroSched, zeroSched] ∧ (after s).rst = .high ∧ (after s).cmd = [] := by
  decide +kernel

/-- R191: a reset after the three words and two of three operand bytes loses those two and leaves the third with the host. -/
theorem test_reset_among_operands :
    let s := { offered 0x00000036#32 3#32 0#32 [0x61#8, 0x62#8, 0x63#8] with rst := .after 5 }
    (after s).opd = [0x63#8] ∧ (after s).out = [] ∧ (after s).seq = .idle ∧ (after s).sha = [HashSlot.zero] := by decide +kernel

/-- R30, R199: a host that takes one of two result bytes makes the block wait with the other and the response. -/
theorem test_host_takes_one_result :
    let s := { offered 0x0000001c#32 0#32 2#32 [] with takes := { Takes.all with res := .upTo 1 } }
    (after s).out = [.res 0#8] ∧ (after s).seq = .sending [.res 0#8, .rsp 1#32, .rsp 2#32] ∧
    (after s).takes.res = .upTo 0 ∧ after (after s) = after s := by decide +kernel

/-- R30: a host that takes the first word of a response and later the second gets the response, and the block is idle. -/
theorem test_host_takes_response_in_parts :
    let t := after { offered 0x0000001b#32 0#32 0#32 [] with takes := { Takes.all with rsp := .upTo 1 } }
    t.out = [.rsp 1#32] ∧ t.seq = .sending [.rsp 0#32] ∧
    after { t with takes := Takes.all } = { State.reset with out := [.rsp 1#32, .rsp 0#32] } := by decide +kernel

/-- R191: a reset between the two words of a response. -/
theorem test_reset_inside_response :
    let s := { offered 0x0000001b#32 0#32 0#32 [] with rst := .after 4 }
    (after s).out = [.rsp 1#32] ∧ (after s).seq = .idle := by decide +kernel

/-- The first step after reset runs the word placed for it. -/
theorem test_with_fetch_word : (after (State.reset.withFetchWord 32 0x00000031)).out = [.rsp 1#32, .rsp 0#32] := by decide +kernel

/-! ## Witnesses: concrete states and operands that meet the hypotheses of each statement -/

/-- The reset state with operand bytes offered. -/
def withBytes (opd : List Byte) : State := { State.reset with opd := opd }

theorem witness_EncodeOfDecodeIsTheWords : decode 0x36#32 3#32 0#32 = .ok (.shaUpdate true true 0#8 3#32) := by decide

/-- Both clauses: words that decode, and a row that accepts words. -/
theorem witness_DecoderAcceptsExactlyTheOpcodeMap : decode 0x37#32 0#32 0#32 = .ok (.shaFinal true true 0#8) ∧
    ∃ r ∈ opcodeRows, r.selects 0x37#32 = true ∧ r.format.lengthsOk 0#32 0#32 = true := by decide

theorem witness_OpcodeRowsAreDisjoint : ∃ r ∈ opcodeRows, ∃ q ∈ opcodeRows,
    r.selects 0x15#32 = true ∧ q.selects 0x15#32 = true := by decide

theorem witness_ResetInputZeroesEverySlot : ({ State.reset with rst := .high } : State).rst = .high := rfl

/-- The first clause of `ResetAbandonsTheRunningCommand`, at both ends of its range: a `CTX_READ` of 2 bytes makes 7 transactions,
3 words taken, 2 bytes and 2 response words, with the reset before the first of them and before the last. -/
theorem witness_ResetAbandonsTheRunningCommand : ∀ n ∈ [0, 6],
    let s : State := { offered 0x1c#32 0#32 2#32 [] with rst := .after n }
    ∃ v, s.rst = .after n ∧ step { s with rst := .low } = .next v ∧ s.seq.wellFormed s.nKs s.nSha ∧
      n < (s.cmd.length - v.cmd.length) + (s.opd.length - v.opd.length) + (v.out.length - s.out.length) := by
  intro n hn
  refine ⟨_, rfl, rfl, trivial, ?_⟩
  revert n
  decide +kernel

/-- Its second clause: the count that the same 7 transactions use up, and one more. -/
theorem witness_ResetAfterTheRunningCommand : ∀ n ∈ [7, 8],
    let s : State := { offered 0x1c#32 0#32 2#32 [] with rst := .after n }
    ∃ v, s.rst = .after n ∧ step { s with rst := .low } = .next v ∧ s.seq.wellFormed s.nKs s.nSha ∧
      (s.cmd.length - v.cmd.length) + (s.opd.length - v.opd.length) + (v.out.length - s.out.length) ≤ n := by
  intro n hn
  refine ⟨_, rfl, rfl, trivial, ?_⟩
  revert n
  decide +kernel

theorem witness_StepRunsTheDecodedCommand :
    let s := offered 0x15#32 0#32 0#32 []
    s.rst = .low ∧ s.seq = .idle ∧ s.cmd = 0x15#32 :: 0#32 :: 0#32 :: [] ∧
      decode 0x15#32 0#32 0#32 = .ok (.shaInit true 0#8) ∧ s.takes = Takes.all := by decide

/-- A `CTX_READ` of 2 bytes: with the first byte taken and no more, and with everything taken. -/
theorem witness_ReceiversMayTakeItemsInParts :
    let s := offered 0x1c#32 0#32 2#32 []
    (∃ u, s.rst = .low ∧ step { s with takes := Takes.all } = .next u) ∧
    (after { s with takes := { Takes.all with res := .upTo 1 } }).seq = .sending [.res 0#8, .rsp 1#32, .rsp 2#32] ∧
    (after { s with takes := { Takes.all with res := .upTo 2 } }).seq = .idle :=
  ⟨⟨_, rfl, rfl⟩, by decide +kernel, by decide +kernel⟩

theorem witness_WordsThatAreNoCommandAreAnsweredIllegal :
    let s := offered 0x0e#32 0#32 0#32 []
    s.rst = .low ∧ s.seq = .idle ∧ s.cmd = 0x0e#32 :: 0#32 :: 0#32 :: [] ∧
      decode 0x0e#32 0#32 0#32 = .error .reservedOpcode ∧ s.takes.rsp = .all := by decide

/-- Every clause of `ParameterIllegalCommandIsAnsweredIllegal`: the first slot number past the end of each kind, the first sum past
each image, and a sum that would wrap. -/
theorem witness_ParameterIllegalCommandIsAnsweredIllegal :
    State.reset.nKs = (2#8 : BitVec 8).toNat ∧ State.reset.nSha = (1#8 : BitVec 8).toNat ∧
    (176#32 : Word).toNat + (1#32 : Word).toNat = 177 ∧ (105#32 : Word).toNat + (1#32 : Word).toNat = 106 ∧
    176 < (0xffffffff#32 : Word).toNat + (2#32 : Word).toNat ∧
    Instr.wellFormed State.reset.nKs State.reset.nSha (.aesDecBlock true true true 2#8) = false := by decide

/-- The clauses of `AbsentOperandFailsWithoutEffect`: a slot of each kind, the highest there is, operand bytes just enough for each
length, data absent at length 0, optional operands absent with length 1, the longest run of each image, and a command that lacks an
operand by the tables. -/
theorem witness_AbsentOperandFailsWithoutEffect :
    let s := withBytes (List.replicate 16 0#8)
    (1#8 : BitVec 8).toNat < s.nKs ∧ (0#8 : BitVec 8).toNat < s.nSha ∧ 16 ≤ s.opd.length ∧
      (if false then (0#32 : Word).toNat else 0) ≤ s.opd.length ∧ (15#32 : Word).toNat + (1#32 : Word).toNat ≤ s.opd.length ∧
      (1#32 : Word) ≠ 0#32 ∧ (16#32 : Word).toNat ≤ s.opd.length ∧
      (175#32 : Word).toNat + (1#32 : Word).toNat ≤ 176 ∧ (105#32 : Word).toNat + (0#32 : Word).toNat ≤ 105 ∧
      Instr.wellFormed s.nKs s.nSha (.aesSetEncKey true false 1#8) = true ∧
      requiredPresent (.aesSetEncKey true false 1#8) = false ∧
      operandBytes (.aesSetEncKey true false 1#8) ≤ s.opd.length := by decide

/-- R171 and R125: data absent at length 0 fails, and so does an optional operand absent with length 1; with length 0 it does not. -/
theorem test_absent_at_the_edge :
    answers (offered 0x00000016#32 0#32 0#32 [7#8]) 0#32 [7#8] = true ∧
    answers (offered 0x0000005a#32 1#32 0#32 [7#8]) 0#32 [7#8] = true ∧
    answers (offered 0x0000005a#32 0#32 0#32 [7#8]) 1#32 [7#8] = true := by decide +kernel

theorem witness_SurplusOperandBytesAreLeft :
    let s := withBytes [1#8, 2#8, 3#8]
    let i : Instr := .shaUpdate true true 0#8 2#32
    i.wellFormed s.nKs s.nSha = true ∧ operandBytes i ≤ s.opd.length := by decide

theorem witness_OperandBytesMayArriveInParts :
    let s := withBytes [1#8]
    let i : Instr := .shaUpdate true true 0#8 2#32
    i.wellFormed s.nKs s.nSha = true ∧ s.opd.length < operandBytes i ∧ s.seq = .idle := by decide

/-- Each clause of `StarvedCommandWaitsForEver`. -/
theorem witness_StarvedCommandWaitsForEver :
    (let i : Instr := .shaUpdate true true 0#8 2#32
     let s : State := { State.reset with seq := .operands i [1#8] }
     s.rst = .low ∧ s.seq = .operands i [1#8] ∧ i.wellFormed s.nKs s.nSha = true ∧ [1#8].length < operandBytes i ∧
       s.opd = []) ∧
    (let s : State := { State.reset with seq := .sending [.res 1#8, .rsp 1#32, .rsp 1#32], takes := ⟨.all, .upTo 0, .all⟩ }
     s.rst = .low ∧ s.seq = .sending (.res 1#8 :: [.rsp 1#32, .rsp 1#32]) ∧ s.takes.res = .upTo 0) ∧
    (let s : State := { State.reset with seq := .sending [.rsp 0#32], takes := ⟨.all, .all, .upTo 0⟩ }
     s.rst = .low ∧ s.seq = .sending (.rsp 0#32 :: []) ∧ s.takes.rsp = .upTo 0) ∧
    (let s : State := { State.reset with
       seq := .sending [.rs (.test true), .rsp 1#32, .rsp 0#32], takes := ⟨.upTo 0, .all, .all⟩ }
     s.rst = .low ∧ s.seq = .sending (.rs (.test true) :: [.rsp 1#32, .rsp 0#32]) ∧ s.takes.rs = .upTo 0) := by decide

/-- No words, one word and two words in the first part. -/
theorem witness_CommandWordsMayArriveInParts : State.reset.rst = .low ∧ State.reset.seq = .idle ∧
    ([] : List Word).length < 3 ∧ [0x15#32].length < 3 ∧ [0x15#32, 0#32].length < 3 := by decide

theorem witness_EveryCommandSendsOneCountedResponse :
    let s := withBytes [1#8, 2#8]
    let i : Instr := .shaUpdate true true 0#8 2#32
    i.wellFormed s.nKs s.nSha = true → operandBytes i ≤ s.opd.length := by decide

/-- A command that is none of the DRBG's three, and its response. -/
theorem witness_SamplerFailuresBelongToTheDrbg :
    let i : Instr := .drbgUninst true
    ∃ t, exec i State.reset = .next t ∧ t.out = State.reset.out ++ [] ++ [.rsp 1#32, .rsp 0#32] ∧
      i.mnemonic ≠ "DRBG_INIT" ∧ i.mnemonic ≠ "DRBG_RESEED" ∧ i.mnemonic ≠ "DRBG_GENERATE" :=
  ⟨_, rfl, by decide, by decide, by decide, by decide⟩

theorem witness_FailureLeavesTheBlockUnchanged :
    ∃ t, exec (.shaFinal false true 0#8) State.reset = .next t ∧
      t.out = State.reset.out ++ [] ++ [.rsp 0#32, .rsp 0#32] ∧ (0#32 : Word) ≠ 1#32 :=
  ⟨_, rfl, by decide +kernel, by decide⟩

/-- Each clause of `NoOpCommandsOnlyAnswer`, the `CTX_READ` at the end of its image. -/
theorem witness_NoOpCommandsOnlyAnswer :
    Instr.wellFormed State.reset.nKs State.reset.nSha (.drbgUninst true) = true ∧
    Instr.wellFormed State.reset.nKs State.reset.nSha (.shaUpdate true true 0#8 0#32) = true ∧
    Instr.wellFormed State.reset.nKs State.reset.nSha (.drbgGenerate true false true 0#32 0#32) = true ∧
    Instr.wellFormed State.reset.nKs State.reset.nSha (.ctxRead true .hash 0#8 105#32 0#32) = true := by decide

/-- The hypotheses of `OnlyTheNamedScheduleIsWritten`: a command that writes no schedule, and one that names slot 0 beside a slot
it does not name. -/
theorem witness_OnlyTheNamedScheduleIsWritten :
    (∃ t, exec (.ctxZero true .hash 0#8) State.reset = .next t) ∧ writesKs (.ctxZero true .hash 0#8) = false ∧
    (∃ t, exec (.ctxZero true .keySched 0#8) State.reset = .next t) ∧ namedKs (.ctxZero true .keySched 0#8) ≠ some 1#8 :=
  ⟨⟨_, rfl⟩, by decide, ⟨_, rfl⟩, by decide⟩

theorem witness_OnlyTheNamedHashSlotIsWritten :
    (∃ t, exec (.ctxZero true .keySched 0#8) State.reset = .next t) ∧ writesSha (.ctxZero true .keySched 0#8) = false ∧
    (∃ t, exec (.shaInit true 0#8) State.reset = .next t) ∧ namedSha (.shaInit true 0#8) ≠ some 1#8 :=
  ⟨⟨_, rfl⟩, by decide, ⟨_, rfl⟩, by decide⟩

theorem witness_OnlySeedingAndGenerationUseTheSampler :
    (∃ t, exec (.drbgUninst true) State.reset = .next t) ∧ usesSampler (.drbgUninst true) = false :=
  ⟨⟨_, rfl⟩, rfl⟩

/-- Two states that differ in the slot not named. -/
theorem witness_ResultDependsOnlyOnTheNamedSlot :
    let i : Instr := .ctxRead true .keySched 0#8 0#32 16#32
    let s := State.reset
    let s' := State.reset.writeKs 1#8 (Vector.replicate 176 1#8)
    s ≠ s' ∧ s.nKs = s'.nKs ∧ s.nSha = s'.nSha ∧ s.opd = s'.opd ∧ rsHistory s.out = rsHistory s'.out ∧
      (∀ slot, namedKs i = some slot → s.readKs slot = s'.readKs slot) ∧
      (∀ slot, namedSha i = some slot → s.readSha slot = s'.readSha slot) := by
  refine ⟨by decide +kernel, by decide, by decide, by decide, by decide, ?_, ?_⟩
  · intro slot h
    have : slot = 0#8 := by simpa [namedKs] using h.symm
    subst this
    decide +kernel
  · intro slot h
    exact absurd h (by simp [namedSha])

/-- A state that meets the invariant and takes a step: a schedule in slot 0, a hash in progress, a command waiting. -/
theorem witness_EveryStepKeepsTheInvariant :
    let s : State := { State.reset with
      ks := [keyExpand key1, zeroSched]
      sha := [HashSlot.initial.update [1#8]]
      seq := .operands (.shaUpdate true true 0#8 2#32) [1#8] }
    s.Inv ∧ ∃ t, step s = .next t := by
  refine ⟨⟨by decide, ?_, ?_, ⟨by decide, by decide⟩⟩, ⟨_, rfl⟩⟩
  · intro k hk
    rcases List.mem_cons.mp hk with rfl | hk
    · exact .inr ⟨key1, .inl rfl⟩
    · exact .inl (List.mem_singleton.mp hk)
  · intro c hc
    rw [List.mem_singleton.mp hc]
    decide

/-- A command held up for a receiver meets the invariant too, before its last result byte and between its response words. -/
theorem witness_EveryStepKeepsTheInvariant_sending :
    (Seq.sending [.res 1#8, .rsp 1#32, .rsp 16#32]).wellFormed 2 1 ∧ (Seq.sending [.rsp 16#32]).wellFormed 2 1 :=
  ⟨.inr ⟨[.res 1#8], 1#32, 16#32, rfl, by decide⟩, .inl ⟨16#32, rfl⟩⟩

/-- The hypotheses of the four AES command statements, on the highest slot there is. -/
theorem witness_Aes_commands :
    let s := withBytes (key1.toList ++ [7#8])
    (1#8 : BitVec 8).toNat < s.nKs ∧ s.opd = key1.toList ++ [7#8] := by decide +kernel

theorem witness_AesRoundTripOfCommands :
    let s := withBytes (key1.toList ++ key1.toList ++ key1.toList)
    (0#8 : BitVec 8) ≠ 1#8 ∧ (0#8 : BitVec 8).toNat < s.nKs ∧ (1#8 : BitVec 8).toNat < s.nKs ∧
      s.opd = key1.toList ++ key1.toList ++ key1.toList := by decide +kernel

theorem witness_CipherIsInjectiveUnderAnySchedule : cipher key1 zeroSched = cipher key1 zeroSched := rfl

/-- The hypothesis of the statements about `SHA_INIT`, `SHA_FINAL`, `FinalisedSlotReadsAsZero` and `CTX_ZERO`: a slot there is. -/
theorem witness_slot_exists : (0#8 : BitVec 8).toNat < State.reset.nSha ∧ (1#8 : BitVec 8).toNat < State.reset.nKs := by decide

/-- The three clauses of `ShaUpdateAbsorbsItsData`: data of length 2 with a byte left over, `OFF` at 63, and `OFF` below it. -/
theorem witness_ShaUpdateAbsorbsItsData :
    ((0#8 : BitVec 8).toNat < (withBytes [1#8, 2#8, 3#8]).nSha ∧ (withBytes [1#8, 2#8, 3#8]).opd = [1#8, 2#8] ++ [3#8] ∧
      [1#8, 2#8].length = (2#32 : Word).toNat) ∧
    ({ HashSlot.zero with off := 63#6 } : HashSlot).off.toNat = 63 ∧
    ({ HashSlot.zero with off := 62#6 } : HashSlot).off.toNat < 63 := by decide

theorem witness_ShaUpdateMayBeSplit :
    let s := withBytes [1#8, 2#8, 3#8]
    (0#8 : BitVec 8).toNat < s.nSha ∧ s.opd = [1#8] ++ [2#8] ++ [3#8] ∧ ([1#8] ++ [2#8]).length < 2 ^ 32 := by decide

/-- Both clauses of `ShaFinalPadsAsTheStandardDoes`, at the values where they meet. -/
theorem witness_ShaFinalPadsAsTheStandardDoes :
    ({ HashSlot.zero with off := 55#6 } : HashSlot).off.toNat ≤ 55 ∧
    56 ≤ ({ HashSlot.zero with off := 56#6 } : HashSlot).off.toNat := by decide

theorem witness_StreamedHashIsSha256OfTheMessage :
    let s := withBytes [1#8, 2#8, 3#8]
    let chunks : List (List Byte) := [[1#8], [], [2#8]]
    (0#8 : BitVec 8).toNat < s.nSha ∧ (∀ c ∈ chunks, c.length < 2 ^ 32) ∧ s.opd = chunks.flatten ++ [3#8] := by decide

/-- With the personalization absent and its length 0, and with it present. -/
theorem witness_DrbgInitSeedsThenTests :
    ([1#8].length = (1#32 : Word).toNat ∧ ([] : List Byte).length = (0#32 : Word).toNat ∧
      (false = false → (0#32 : Word) = 0#32) ∧ (withBytes [1#8]).opd = [1#8] ++ [] ++ []) ∧
    ([1#8].length = (1#32 : Word).toNat ∧ [2#8].length = (1#32 : Word).toNat ∧
      (true = false → (1#32 : Word) = 0#32) ∧ (withBytes [1#8, 2#8]).opd = [1#8] ++ [2#8] ++ []) := by decide

/-- Both clauses of `DrbgReseedIsDrbgInit`, the second with the additional input absent and present. -/
theorem witness_DrbgReseedIsDrbgInit :
    operandBytes (.drbgInit true true true 1#32 1#32) ≤ (withBytes [1#8, 2#8]).opd.length ∧
    ([1#8].length = (1#32 : Word).toNat ∧ ([] : List Byte).length = (0#32 : Word).toNat ∧
      (false = false → (0#32 : Word) = 0#32) ∧ (withBytes [1#8, 3#8]).opd = [1#8] ++ [] ++ [3#8]) ∧
    ([1#8].length = (1#32 : Word).toNat ∧ [2#8].length = (1#32 : Word).toNat ∧
      (true = false → (1#32 : Word) = 0#32) ∧ (withBytes [1#8, 2#8, 3#8]).opd = [1#8] ++ [2#8] ++ [3#8]) := by decide

theorem witness_DrbgGenerateTestsBeforeEachByte :
    [1#8].length = (1#32 : Word).toNat ∧ (true = false → (1#32 : Word) = 0#32) ∧ (withBytes [1#8, 2#8]).opd = [1#8] ++ [2#8] := by
  decide

/-- A sampler with a counter for its state, and a history it gives. -/
theorem witness_AnySamplerAnswersThroughTheModel :
    let R : SamplerRecord Nat := ⟨0, fun n _ => n + 1, fun n => (n + 1, true), fun n => (n + 1, BitVec.ofNat 8 n)⟩
    let s : State := { State.reset with out := [.rs (.seed 9#8), .rs (.test true), .rs (.sample 2#8)] }
    R.gives R.init (rsHistory s.out) := by
  simp [rsHistory, SamplerRecord.gives]

/-- Both clauses of `CtxReadEmitsTheImageBytes`, at the last byte of each image. -/
theorem witness_CtxReadEmitsTheImageBytes :
    ((1#8 : BitVec 8).toNat < State.reset.nKs ∧ (175#32 : Word).toNat + (1#32 : Word).toNat ≤ 176) ∧
    ((0#8 : BitVec 8).toNat < State.reset.nSha ∧ (104#32 : Word).toNat + (1#32 : Word).toNat ≤ 105) := by decide

theorem witness_RotationMovesEveryBit : 0 < 31 ∧ 31 < 32 := by decide

theorem witness_SubstitutionTablesAreAsDefined : (0x53#8 : Byte) ≠ 0#8 := by decide

end Sys2Proof.Tests
end

section
/-! PROOF. The statements about the block's state (spec 10_state.md): what each command can do to the slots and the ports, what a
step fetches, the invariant every step keeps, and what a live hash slot holds. -/

namespace Sys2Proof.Machine

/-! ## Cleared slots (R24) -/

theorem zeroSched_getElem (n : Nat) (h : n < 176) : zeroSched[n] = 0#8 :=
  Vector.getElem_replicate ..

theorem scheduleOrZero_zero : ScheduleOrZero zeroSched := .inl rfl

theorem wholeBlocks_zero : WholeBlocks HashSlot.zero := rfl

/-! ## What absorbing does to the bit counter (R16, R125) -/

theorem wholeBlocks_absorb {c : HashSlot} (b : Byte) (h : WholeBlocks c) : WholeBlocks (c.absorb b) := by
  by_cases hoff : c.off = 63#6
  · have hbits : (c.bits + 512#64).toNat = (c.bits.toNat + 512) % 2 ^ 64 := BitVec.toNat_add ..
    simp only [WholeBlocks, c.absorb_full b hoff] at h ⊢
    omega
  · simpa only [WholeBlocks, c.absorb_more b hoff] using h

theorem wholeBlocks_update {c : HashSlot} (data : List Byte) (h : WholeBlocks c) : WholeBlocks (c.update data) := by
  induction data generalizing c with
  | nil => exact h
  | cons b data ih => exact ih (wholeBlocks_absorb b h)

theorem wholeBlocks_readSha {s : State} (slot : BitVec 8) (h : ∀ c ∈ s.sha, WholeBlocks c) :
    WholeBlocks (s.readSha slot) := by
  rw [State.readSha, List.getD_eq_getElem?_getD]
  rcases hc : s.sha[slot.toNat]? with _ | c
  · exact wholeBlocks_zero
  · exact h c (List.mem_of_getElem? hc)

/-! ## What a command sends (R58, R203) -/

/-- The transactions of a command that ends: its one response comes last (R203). -/
def EndsInResponse (made : List PortEvent) : Prop :=
  ∃ before r0 r1, made = before ++ [.rsp r0, .rsp r1] ∧ ∀ e ∈ before, e.isResponse = false

theorem EndsInResponse.sending_wellFormed {made : List PortEvent} (h : EndsInResponse made) (nKs nSha : Nat) :
    (Seq.sending made).wellFormed nKs nSha :=
  .inr h

theorem endsInResponse_response (r0 r1 : Word) : EndsInResponse [.rsp r0, .rsp r1] :=
  ⟨[], r0, r1, rfl, by simp⟩

theorem EndsInResponse.append {before made : List PortEvent} (hb : ∀ e ∈ before, e.isResponse = false)
    (h : EndsInResponse made) : EndsInResponse (before ++ made) := by
  obtain ⟨rest, r0, r1, rfl, hrest⟩ := h
  refine ⟨before ++ rest, r0, r1, (List.append_assoc ..).symm, fun e he => ?_⟩
  exact (List.mem_append.mp he).elim (hb e) (hrest e)

@[simp] theorem PortEvent.isResponse_rs (e : RsEvent) : (PortEvent.rs e).isResponse = false := rfl

@[simp] theorem PortEvent.isResponse_res (b : Byte) : (PortEvent.res b).isResponse = false := rfl

theorem isResponse_of_mem_results {bs : List Byte} : ∀ e ∈ bs.map PortEvent.res, e.isResponse = false := by
  simp

theorem isResponse_of_mem_seeds {bs : List Byte} :
    ∀ e ∈ bs.map (fun b => PortEvent.rs (.seed b)), e.isResponse = false := by
  simp

/-- Seeding (R144) only sends, and what it sends ends in its response. -/
theorem seedBody_sends (S : Sampler) (opA opB : List Byte) (s : State) :
    ∃ made, EndsInResponse made ∧ seedBody S opA opB s = { s with out := s.out ++ made } := by
  refine ⟨_, ?_, (seedBody_eq S opA opB s).trans (by rw [List.append_assoc])⟩
  exact .append isResponse_of_mem_seeds (.append (before := [_]) (by simp) (endsInResponse_response ..))

/-- Generation (R146) only sends, and what it sends ends in its response. -/
theorem generateBody_sends (S : Sampler) (lenB : Word) (opA : List Byte) (s : State) :
    ∃ made, EndsInResponse made ∧ generateBody S lenB opA s = { s with out := s.out ++ made } := by
  obtain ⟨bytes, made, -, hmade, h⟩ := generateLoop_spec S lenB.toNat 0 (s.fold opA)
  have hends : EndsInResponse made := by
    have hdraws : ∀ e ∈ bytes.flatMap (fun b => [PortEvent.rs (.test true), .rs (.sample b), .res b]),
        e.isResponse = false := by
      simp only [List.mem_flatMap]
      rintro e ⟨b, -, he⟩
      simp only [List.mem_cons, List.not_mem_nil, or_false] at he
      rcases he with rfl | rfl | rfl <;> rfl
    rw [hmade]
    refine .append hdraws ?_
    split
    · exact endsInResponse_response ..
    · exact .append (before := [_]) (by simp) (endsInResponse_response ..)
  refine ⟨opA.map (fun b => PortEvent.rs (.seed b)) ++ made, .append isResponse_of_mem_seeds hends, ?_⟩
  rw [generateBody, h, State.fold_eq, List.append_assoc]

/-- The commands that use the sampler only send, and what they send ends in their response. -/
theorem bodyOf_of_usesSampler {i : Instr} (h : usesSampler i = true) (opA opB : List Byte) (s : State) :
    ∃ made, EndsInResponse made ∧ bodyOf i opA opB s = { s with out := s.out ++ made } := by
  cases i with
  | drbgInit | drbgReseed => exact seedBody_sends ..
  | drbgGenerate => exact generateBody_sends ..
  | _ => cases h

/-- Every body sends transactions that end in its response. -/
theorem bodyOf_out (i : Instr) (opA opB : List Byte) (s : State) :
    ∃ made, EndsInResponse made ∧ (bodyOf i opA opB s).out = s.out ++ made := by
  have hdrbg (h : usesSampler i = true) : ∃ made, EndsInResponse made ∧ (bodyOf i opA opB s).out = s.out ++ made := by
    obtain ⟨made, hends, e⟩ := bodyOf_of_usesSampler h opA opB s
    exact ⟨made, hends, by rw [e]⟩
  cases i with
  | aesEncBlock | aesDecBlock | shaFinal | ctxRead =>
    exact ⟨_, .append isResponse_of_mem_results (endsInResponse_response ..), List.append_assoc ..⟩
  | drbgInit | drbgReseed | drbgGenerate => exact hdrbg rfl
  | ctxZero p0 space slot => cases space <;> exact ⟨_, endsInResponse_response .., rfl⟩
  | _ => exact ⟨_, endsInResponse_response .., rfl⟩

/-- All a command can do to the sequencer and to its outgoing ports: wait for operand bytes it lacks (R199), sending nothing; or
send transactions that end in its response (R203). -/
theorem exec_ports_cases {i : Instr} {s t : State} (h : exec i s = .next t) :
    (paramLegal s.nKs s.nSha i = true ∧ s.opd.length < operandBytes i ∧ t.seq = .operands i s.opd ∧ t.out = s.out) ∨
    (t.seq = s.seq ∧ ∃ made, EndsInResponse made ∧ t.out = s.out ++ made) := by
  obtain rfl := exec_next.mp h
  rcases runCommand_cases i (bodyOf i) s with ⟨-, e⟩ | ⟨hL, hn, e⟩ | ⟨-, -, -, e⟩ | ⟨-, -, -, e⟩ <;> rw [e]
  · exact .inr ⟨rfl, _, endsInResponse_response .., rfl⟩
  · exact .inl ⟨hL, hn, rfl, rfl⟩
  · exact .inr ⟨rfl, _, endsInResponse_response .., rfl⟩
  · obtain ⟨-, -, hseq, -⟩ := bodyOf_frame i (s.opd.take (opALen i)) ((s.opd.drop (opALen i)).take (opBLen i))
      { s with opd := s.opd.drop (operandBytes i) }
    exact .inr ⟨hseq, bodyOf_out ..⟩

/-! ## What a command can do to the slots (R14, R17) -/

/-- All a command's body can do to the key-schedule slots (R14): nothing, or one write to the slot it names, of zeros or of a
schedule. -/
theorem bodyOf_ks_cases (i : Instr) (opA opB : List Byte) (s : State) :
    (bodyOf i opA opB s).ks = s.ks ∨
    ∃ slot v, writesKs i = true ∧ namedKs i = some slot ∧ ScheduleOrZero v ∧
      (bodyOf i opA opB s).ks = s.ks.set slot.toNat v := by
  have hdrbg (h : usesSampler i = true) : (bodyOf i opA opB s).ks = s.ks := by
    obtain ⟨made, -, e⟩ := bodyOf_of_usesSampler h opA opB s
    rw [e]
  cases i with
  | aesSetEncKey p0 p1 slot => exact .inr ⟨slot, _, rfl, rfl, .inr ⟨_, .inl rfl⟩, rfl⟩
  | aesSetDecKey p0 p1 slot => exact .inr ⟨slot, _, rfl, rfl, .inr ⟨_, .inr rfl⟩, rfl⟩
  | ctxZero p0 space slot =>
    cases space with
    | keySched => exact .inr ⟨slot, _, rfl, rfl, scheduleOrZero_zero, rfl⟩
    | hash => exact .inl rfl
  | drbgInit | drbgReseed | drbgGenerate => exact .inl (hdrbg rfl)
  | _ => exact .inl rfl

/-- All a command's body can do to the hash slots (R17): nothing, or one write to the slot it names, which keeps its bit counter
a whole number of blocks. -/
theorem bodyOf_sha_cases (i : Instr) (opA opB : List Byte) (s : State) :
    (bodyOf i opA opB s).sha = s.sha ∨
    ∃ slot v, writesSha i = true ∧ namedSha i = some slot ∧ (WholeBlocks (s.readSha slot) → WholeBlocks v) ∧
      (bodyOf i opA opB s).sha = s.sha.set slot.toNat v := by
  have hdrbg (h : usesSampler i = true) : (bodyOf i opA opB s).sha = s.sha := by
    obtain ⟨made, -, e⟩ := bodyOf_of_usesSampler h opA opB s
    rw [e]
  cases i with
  | shaInit p0 slot => exact .inr ⟨slot, _, rfl, rfl, fun _ => rfl, rfl⟩
  | shaUpdate p0 p1 slot lenA => exact .inr ⟨slot, _, rfl, rfl, wholeBlocks_update opA, rfl⟩
  | shaFinal p0 p1 slot => exact .inr ⟨slot, _, rfl, rfl, fun _ => wholeBlocks_zero, rfl⟩
  | ctxZero p0 space slot =>
    cases space with
    | keySched => exact .inl rfl
    | hash => exact .inr ⟨slot, _, rfl, rfl, fun _ => wholeBlocks_zero, rfl⟩
  | drbgInit | drbgReseed | drbgGenerate => exact .inl (hdrbg rfl)
  | _ => exact .inl rfl

/-- All a command can do to the key-schedule slots (R14). -/
theorem exec_ks_cases {i : Instr} {s t : State} (h : exec i s = .next t) :
    t.ks = s.ks ∨
    ∃ slot v, writesKs i = true ∧ namedKs i = some slot ∧ ScheduleOrZero v ∧ t.ks = s.ks.set slot.toNat v := by
  obtain rfl := exec_next.mp h
  rcases runCommand_cases i (bodyOf i) s with ⟨-, e⟩ | ⟨-, -, e⟩ | ⟨-, -, -, e⟩ | ⟨-, -, -, e⟩ <;> rw [e]
  · exact .inl rfl
  · exact .inl rfl
  · exact .inl rfl
  · exact bodyOf_ks_cases ..

/-- All a command can do to the hash slots (R17). -/
theorem exec_sha_cases {i : Instr} {s t : State} (h : exec i s = .next t) :
    t.sha = s.sha ∨
    ∃ slot v, writesSha i = true ∧ namedSha i = some slot ∧ (WholeBlocks (s.readSha slot) → WholeBlocks v) ∧
      t.sha = s.sha.set slot.toNat v := by
  obtain rfl := exec_next.mp h
  rcases runCommand_cases i (bodyOf i) s with ⟨-, e⟩ | ⟨-, -, e⟩ | ⟨-, -, -, e⟩ | ⟨-, -, -, e⟩ <;> rw [e]
  · exact .inl rfl
  · exact .inl rfl
  · exact .inl rfl
  · exact bodyOf_sha_cases ..

theorem exec_nKs {i : Instr} {s t : State} (h : exec i s = .next t) : t.nKs = s.nKs := by
  rcases exec_ks_cases h with e | ⟨slot, v, -, -, -, e⟩ <;> simp [State.nKs, e]

theorem exec_nSha {i : Instr} {s t : State} (h : exec i s = .next t) : t.nSha = s.nSha := by
  rcases exec_sha_cases h with e | ⟨slot, v, -, -, -, e⟩ <;> simp [State.nSha, e]

theorem State.readKs_congr {s t : State} (slot : BitVec 8) (h : t.ks = s.ks) : t.readKs slot = s.readKs slot := by
  rw [State.readKs, State.readKs, h]

theorem State.readSha_congr {s t : State} (slot : BitVec 8) (h : t.sha = s.sha) : t.readSha slot = s.readSha slot := by
  rw [State.readSha, State.readSha, h]

/-- Settles O21: a command leaves the key-schedule slots alone or writes the one it names. -/
theorem onlyTheNamedScheduleIsWritten : Obligations.OnlyTheNamedScheduleIsWritten := by
  intro i s t h
  refine ⟨exec_nKs h, ?_⟩
  rcases exec_ks_cases h with e | ⟨named, v, hw, hn, -, e⟩
  · exact ⟨fun _ => e, fun slot _ => State.readKs_congr slot e⟩
  · refine ⟨fun hw' => absurd hw (by simp [hw']), fun slot hslot => ?_⟩
    have hne : slot ≠ named := fun hs => hslot (hs ▸ hn)
    calc t.readKs slot = (s.writeKs named v).readKs slot := State.readKs_congr slot e
      _ = s.readKs slot := State.readKs_writeKs_other s named slot v hne

/-- Settles O22: a command leaves the hash slots alone or writes the one it names. -/
theorem onlyTheNamedHashSlotIsWritten : Obligations.OnlyTheNamedHashSlotIsWritten := by
  intro i s t h
  refine ⟨exec_nSha h, ?_⟩
  rcases exec_sha_cases h with e | ⟨named, v, hw, hn, -, e⟩
  · exact ⟨fun _ => e, fun slot _ => State.readSha_congr slot e⟩
  · refine ⟨fun hw' => absurd hw (by simp [hw']), fun slot hslot => ?_⟩
    have hne : slot ≠ named := fun hs => hslot (hs ▸ hn)
    calc t.readSha slot = (s.writeSha named v).readSha slot := State.readSha_congr slot e
      _ = s.readSha slot := State.readSha_writeSha_other s named slot v hne

/-! ## What the sequencer can do next (R31) -/

/-- All that taking words can lead to: waiting for more of them, no command, or a command to run. -/
theorem fetchWords_cases (s : State) (ws : List Word) :
    (∃ q c, (∀ nKs nSha, q.wellFormed nKs nSha) ∧ fetchWords s ws = .waits { s with seq := q, cmd := c }) ∨
    (∃ c, fetchWords s ws = .rejects { s with seq := .idle, cmd := c }) ∨
    (∃ i c, fetchWords s ws = .runs i { s with seq := .idle, cmd := c }) := by
  match ws with
  | [] => exact .inl ⟨.idle, [], fun _ _ => trivial, rfl⟩
  | [w0] => exact .inl ⟨.gotOne w0, [], fun _ _ => trivial, rfl⟩
  | [w0, w1] => exact .inl ⟨.gotTwo w0 w1, [], fun _ _ => trivial, rfl⟩
  | w0 :: w1 :: w2 :: rest =>
    rcases h : decode w0 w1 w2 with e | i
    · exact .inr (.inl ⟨rest, by simp [fetchWords, h]⟩)
    · exact .inr (.inr ⟨i, rest, by simp [fetchWords, h]⟩)

/-- All the sequencer can do next: what taking words leads to, a command to run, or the end of a command's transactions. -/
theorem fetch_cases (s : State) :
    (∃ q c, (∀ nKs nSha, q.wellFormed nKs nSha) ∧ fetch s = .waits { s with seq := q, cmd := c }) ∨
    (∃ c, fetch s = .rejects { s with seq := .idle, cmd := c }) ∨
    (∃ i c o, fetch s = .runs i { s with seq := .idle, cmd := c, opd := o }) ∨
    (∃ rest, s.seq = .sending rest ∧ fetch s = .sends { s with seq := .idle, out := s.out ++ rest }) := by
  rcases hq : s.seq with _ | w0 | ⟨w0, w1⟩ | ⟨i, taken⟩ | rest
  case operands => exact .inr (.inr (.inl ⟨i, s.cmd, taken ++ s.opd, by simp [fetch, hq]⟩))
  case sending => exact .inr (.inr (.inr ⟨rest, rfl, by simp [fetch, hq]⟩))
  all_goals
    simp only [fetch, hq]
    rcases fetchWords_cases s _ with h | h | ⟨i, c, h⟩
    · exact .inl h
    · exact .inr (.inl h)
    · exact .inr (.inr (.inl ⟨i, c, s.opd, h⟩))

/-! ## The invariant -/

theorem State.inv_toReset {s : State} (h : paramsWellFormed s.nKs s.nSha = true) : s.toReset.Inv where
  params := by simpa using h
  schedules := fun k hk => List.eq_of_mem_replicate hk ▸ scheduleOrZero_zero
  counters := fun c hc => List.eq_of_mem_replicate hc ▸ wholeBlocks_zero
  sequencer := trivial

/-- Settles O25: the slots of the power-on state are cleared and its sequencer is idle. -/
theorem powerOnStateMeetsTheInvariant : Obligations.PowerOnStateMeetsTheInvariant where
  params := by decide
  schedules := fun k hk => List.eq_of_mem_replicate hk ▸ scheduleOrZero_zero
  counters := fun c hc => List.eq_of_mem_replicate hc ▸ wholeBlocks_zero
  sequencer := trivial

/-- Settles O6: the slots of the power-on state are cleared, and each other field is written out in it. -/
theorem powerOnStateIsZeroAndIdle : Obligations.PowerOnStateIsZeroAndIdle := by
  refine ⟨fun k hk n => ?_, fun c hc => ?_, rfl, rfl, rfl, rfl, rfl, rfl⟩
  · rw [List.eq_of_mem_replicate hk]
    exact zeroSched_getElem n.val n.isLt
  · rw [List.eq_of_mem_replicate hc]
    exact ⟨fun _ => Vector.getElem_replicate .., fun _ => Vector.getElem_replicate .., rfl, rfl⟩

/-- A command keeps the invariant. -/
theorem exec_keeps_inv {i : Instr} {s t : State} (hs : s.Inv) (h : exec i s = .next t) : t.Inv where
  params := by rw [exec_nKs h, exec_nSha h]; exact hs.params
  schedules := by
    rcases exec_ks_cases h with e | ⟨slot, v, -, -, hv, e⟩ <;> rw [e]
    · exact hs.schedules
    · exact fun k hk => (List.mem_or_eq_of_mem_set hk).elim (hs.schedules k) (fun hkv => hkv ▸ hv)
  counters := by
    rcases exec_sha_cases h with e | ⟨slot, v, -, -, hv, e⟩ <;> rw [e]
    · exact hs.counters
    · have hblocks : WholeBlocks v := hv (wholeBlocks_readSha slot hs.counters)
      exact fun c hc => (List.mem_or_eq_of_mem_set hc).elim (hs.counters c) (fun hcv => hcv ▸ hblocks)
  sequencer := by
    rw [exec_nKs h, exec_nSha h]
    rcases exec_ports_cases h with ⟨hlegal, hshort, e, -⟩ | ⟨e, -⟩ <;> rw [e]
    · exact ⟨hlegal, hshort⟩
    · exact hs.sequencer

/-- A state with the slots of one that meets the invariant meets it whatever stands at its ports, if its sequencer is well
formed. -/
theorem State.Inv.of_slots {s t : State} (hs : s.Inv) (hks : t.ks = s.ks) (hsha : t.sha = s.sha)
    (hseq : t.seq.wellFormed s.nKs s.nSha) : t.Inv where
  params := by simpa only [State.nKs, State.nSha, hks, hsha] using hs.params
  schedules := hks ▸ hs.schedules
  counters := hsha ▸ hs.counters
  sequencer := by simpa only [State.nKs, State.nSha, hks, hsha] using hseq

/-- A running step keeps the invariant, and sends nothing or what a sequencer may wait to send. -/
theorem stepRunning_keeps_inv {s t : State} (hs : s.Inv) (h : stepRunning s = .next t) :
    t.Inv ∧ ∃ made, t.out = s.out ++ made ∧ (made = [] ∨ (Seq.sending made).wellFormed t.nKs t.nSha) := by
  rcases fetch_cases s with ⟨q, c, hq, e⟩ | ⟨c, e⟩ | ⟨i, c, o, e⟩ | ⟨rest, hrest, e⟩ <;>
    simp only [stepRunning, e, Host.Outcome.next.injEq] at h
  · subst h
    exact ⟨hs.of_slots rfl rfl (hq ..), [], by simp, .inl rfl⟩
  · subst h
    exact ⟨hs.of_slots rfl rfl trivial, _, rfl, .inr ((endsInResponse_response ..).sending_wellFormed ..)⟩
  · have hrun : State.Inv { s with seq := .idle, cmd := c, opd := o } := hs.of_slots rfl rfl trivial
    refine ⟨exec_keeps_inv hrun h, ?_⟩
    rcases exec_ports_cases h with ⟨-, -, -, hout⟩ | ⟨-, made, hmade, hout⟩
    · exact ⟨[], by simpa using hout, .inl rfl⟩
    · exact ⟨made, hout, .inr (hmade.sending_wellFormed ..)⟩
  · subst h
    have hwf : (Seq.sending rest).wellFormed s.nKs s.nSha := hrest ▸ hs.sequencer
    exact ⟨hs.of_slots rfl rfl trivial, rest, rfl, .inr hwf⟩

/-- What is left of transactions a sequencer may wait to send, it may wait to send too. -/
theorem Seq.sending_wellFormed_right {nKs nSha : Nat} {sent left : List PortEvent} (hne : left ≠ [])
    (h : (Seq.sending (sent ++ left)).wellFormed nKs nSha) : (Seq.sending left).wellFormed nKs nSha := by
  induction sent with
  | nil => exact h
  | cons e sent ih =>
    apply ih
    rcases h with ⟨r1, h⟩ | ⟨_ | ⟨e', before⟩, r0, r1, h, hbefore⟩
    · exact absurd (List.append_eq_nil_iff.mp (List.cons.inj h).2).2 hne
    · exact .inl ⟨r1, (List.cons.inj h).2⟩
    · exact .inr ⟨before, r0, r1, (List.cons.inj h).2, fun e he => hbefore e (List.mem_cons_of_mem _ he)⟩

/-- The receivers keep the invariant, wherever they hold a step up: the sequencer waits as the step leaves it, or with what is left
of the step's transactions. -/
theorem State.deliver_keeps_inv {s t : State} {made : List PortEvent} (ht : t.Inv) (hout : t.out = s.out ++ made)
    (hmade : made = [] ∨ (Seq.sending made).wellFormed t.nKs t.nSha) (n : Nat) : (s.deliver t n).Inv := by
  refine ht.of_slots rfl rfl ?_
  simp only [State.deliver, hout, List.drop_left]
  split
  · exact ht.sequencer
  next e rest hleft =>
    have hwf : (Seq.sending (made.take n ++ made.drop n)).wellFormed t.nKs t.nSha := by
      rw [List.take_append_drop]
      exact hmade.resolve_left (by rintro rfl; simp at hleft)
    exact hleft ▸ Seq.sending_wellFormed_right (by simp [hleft]) hwf

/-- The ports keep the invariant, the receivers as `deliver_keeps_inv` says and a reset by clearing every slot. -/
theorem State.meetPorts_keeps_inv {s t : State} (ht : t.Inv) (hdeliver : ∀ n, (s.deliver t n).Inv) :
    (s.meetPorts t).Inv := by
  rcases hr : s.rst with _ | _ | n
  · simpa only [State.meetPorts, hr] using hdeliver _
  · simpa only [State.meetPorts, hr] using hdeliver _
  · rcases State.meetPorts_after t hr with ⟨-, e⟩ | ⟨-, e⟩ <;> rw [e]
    · exact State.inv_toReset ht.params
    · exact (hdeliver _).of_slots rfl rfl (hdeliver _).sequencer

/-- Settles O26: a reset clears the slots, and a running step keeps the invariant as far as the ports let it. -/
theorem everyStepKeepsTheInvariant : Obligations.EveryStepKeepsTheInvariant := by
  intro s t hs hstep
  rcases step_cases s with ⟨-, e⟩ | ⟨-, u, hu, e⟩ <;> obtain rfl := Host.Outcome.next.inj (e.symm.trans hstep)
  · exact State.inv_toReset hs.params
  · obtain ⟨hinv, made, hout, hmade⟩ := stepRunning_keeps_inv hs hu
    exact State.meetPorts_keeps_inv hinv (State.deliver_keeps_inv hinv hout hmade)

/-! ## What a live hash slot holds (R16, R125) -/

/-- One more block compressed, seen from the end of the byte string. -/
theorem hashBlocks_succ (n : Nat) (h : HashWords) (bs : List Byte) :
    hashBlocks (n + 1) h bs = compress (hashBlocks n h bs) (copyN 64 ((bs.drop (64 * n)).take 64)) := by
  induction n generalizing h bs with
  | zero => rfl
  | succ n ih =>
    have hdrop : (bs.drop 64).drop (64 * n) = bs.drop (64 * (n + 1)) := by
      rw [List.drop_drop]
      congr 1
      omega
    rw [hashBlocks, ih, hdrop]
    rfl

/-- Compressions read no further than the blocks they take. -/
theorem hashBlocks_append (n : Nat) (h : HashWords) (a b : List Byte) (hn : 64 * n ≤ a.length) :
    hashBlocks n h (a ++ b) = hashBlocks n h a := by
  induction n generalizing h a with
  | zero => rfl
  | succ n ih =>
    have hlen : 64 ≤ a.length := by omega
    rw [hashBlocks, hashBlocks, List.take_append_of_le_length hlen, List.drop_append_of_le_length hlen]
    exact ih _ _ (by rw [List.length_drop]; omega)

/-- The pending bytes after one more is put behind them. -/
theorem HashSlot.take_putByte (c : HashSlot) (i : BitVec 6) (b : Byte) :
    (c.putByte i b).toList.take (i.toNat + 1) = c.buf.toList.take i.toNat ++ [b] := by
  have hi := i.isLt
  rw [HashSlot.putByte, Vector.toList_set, List.take_add_one, List.take_set_of_le (Nat.le_refl _)]
  simp [hi]

/-- `c` describes the message `m`: the clauses of R16, with the running hash of the whole blocks. -/
structure HashSlot.Describes (c : HashSlot) (m : List Byte) : Prop where
  off : c.off.toNat = m.length % 64
  bits : c.bits = BitVec.ofNat 64 (512 * (m.length / 64))
  buf : c.buf.toList.take (m.length % 64) = m.drop (64 * (m.length / 64))
  hash : c.h = hashBlocks (m.length / 64) hInit m

theorem HashSlot.describes_initial : HashSlot.initial.Describes [] where
  off := rfl
  bits := rfl
  buf := rfl
  hash := rfl

/-- The pending bytes of a slot that describes `m`, with one byte more behind them. -/
theorem HashSlot.Describes.take_putByte {c : HashSlot} {m : List Byte} (hc : c.Describes m) (b : Byte) :
    (c.putByte c.off b).toList.take (m.length % 64 + 1) = (m ++ [b]).drop (64 * (m.length / 64)) := by
  rw [← hc.off, c.take_putByte, hc.off, hc.buf, List.drop_append_of_le_length (Nat.mul_div_le ..)]

/-- A byte that fills the block (R125): the block is compressed and counted. -/
theorem HashSlot.Describes.absorb_full {c : HashSlot} {m : List Byte} (hc : c.Describes m) (b : Byte)
    (hoff : c.off = 63#6) : (c.absorb b).Describes (m ++ [b]) := by
  have hmod : m.length % 64 = 63 := by rw [← hc.off, hoff]; rfl
  have hlen : (m ++ [b]).length = 64 * (m.length / 64 + 1) := by rw [List.length_append, List.length_singleton]; omega
  have hdiv : (m ++ [b]).length / 64 = m.length / 64 + 1 := by omega
  have hrest : (m ++ [b]).length % 64 = 0 := by omega
  have hblock : (m ++ [b]).drop (64 * (m.length / 64)) = (c.putByte c.off b).toList := by
    rw [← hc.take_putByte b, hmod]
    exact List.take_of_length_le (by simp)
  rw [c.absorb_full b hoff]
  refine ⟨by rw [hrest]; rfl, ?_, ?_, ?_⟩
  · rw [hdiv, hc.bits, Nat.mul_add, BitVec.ofNat_add]
  · rw [hdiv, hrest, ← hlen, List.drop_length, List.take_zero]
  · have htake : (c.putByte c.off b).toList.take 64 = (c.putByte c.off b).toList :=
      List.take_of_length_le (by simp)
    rw [hdiv, hashBlocks_succ, hashBlocks_append _ _ _ _ (Nat.mul_div_le ..), hblock, htake, copyN_toList, hc.hash]

/-- Any other byte (R125): it is one more pending byte. -/
theorem HashSlot.Describes.absorb_more {c : HashSlot} {m : List Byte} (hc : c.Describes m) (b : Byte)
    (hoff : c.off ≠ 63#6) : (c.absorb b).Describes (m ++ [b]) := by
  have hmod : m.length % 64 ≠ 63 := fun h => hoff (BitVec.eq_of_toNat_eq (hc.off.trans h))
  have hlen : (m ++ [b]).length = m.length + 1 := by simp
  have hdiv : (m ++ [b]).length / 64 = m.length / 64 := by omega
  have hrest : (m ++ [b]).length % 64 = m.length % 64 + 1 := by omega
  have hnext : (c.absorb b).off.toNat = (m ++ [b]).length % 64 := by rw [c.absorb_off, hc.off, hrest]; omega
  refine ⟨hnext, ?_, ?_, ?_⟩ <;> rw [c.absorb_more b hoff]
  · rw [hdiv, hc.bits]
  · rw [hdiv, hrest, hc.take_putByte]
  · rw [hdiv, hashBlocks_append _ _ _ _ (Nat.mul_div_le ..), hc.hash]

/-- A slot that has absorbed `m` after `SHA_INIT` describes it. -/
theorem HashSlot.describes_foldl_absorb (m : List Byte) : (m.foldl HashSlot.absorb HashSlot.initial).Describes m := by
  induction m using List.reverseRecOn with
  | nil => exact HashSlot.describes_initial
  | append_singleton m b hm =>
    rw [List.foldl_append, List.foldl_cons, List.foldl_nil]
    by_cases hoff : (m.foldl HashSlot.absorb HashSlot.initial).off = 63#6
    · exact hm.absorb_full b hoff
    · exact hm.absorb_more b hoff

/-- Settles O41, by induction on the message from its end. -/
theorem liveHashSlotDescribesItsMessage : Obligations.LiveHashSlotDescribesItsMessage := by
  intro m
  obtain ⟨hoff, hbits, hbuf, hhash⟩ := HashSlot.describes_foldl_absorb m
  exact ⟨hoff, hbits, hbuf, hhash⟩

end Sys2Proof.Machine
end

section
/-! PROOF. The statements about the life of a command at the ports (spec 20_memory.md): what a step does where `rst` is low, what
the `rst` input and the receivers cannot change in it, the waits for words, operand bytes and receivers, and the bytes of a
context image. -/

namespace Sys2Proof.Machine

/-! ## What a running step sends (R31, R203) -/

/-- A command leaves CMD, the `rst` input and the receivers alone. -/
theorem exec_frame {i : Instr} {s t : State} (h : exec i s = .next t) :
    t.cmd = s.cmd ∧ t.rst = s.rst ∧ t.takes = s.takes := by
  obtain rfl := exec_next.mp h
  rcases runCommand_cases i (bodyOf i) s with ⟨-, e⟩ | ⟨-, -, e⟩ | ⟨-, -, -, e⟩ | ⟨-, -, -, e⟩ <;> rw [e]
  · exact ⟨rfl, rfl, rfl⟩
  · exact ⟨rfl, rfl, rfl⟩
  · exact ⟨rfl, rfl, rfl⟩
  · obtain ⟨hcmd, -, -, hrst, htakes, -⟩ := bodyOf_frame i (s.opd.take (opALen i))
      ((s.opd.drop (opALen i)).take (opBLen i)) { s with opd := s.opd.drop (operandBytes i) }
    exact ⟨hcmd, hrst, htakes⟩

/-- A running step leaves the `rst` input and the receivers alone, and where it sends anything it ends with the sequencer idle. -/
theorem stepRunning_sends {s t : State} (h : stepRunning s = .next t) :
    t.rst = s.rst ∧ t.takes = s.takes ∧ ∃ made, t.out = s.out ++ made ∧ (made = [] ∨ t.seq = .idle) := by
  rcases fetch_cases s with ⟨q, c, -, e⟩ | ⟨c, e⟩ | ⟨i, c, o, e⟩ | ⟨rest, -, e⟩ <;>
    simp only [stepRunning, e, Host.Outcome.next.injEq] at h
  · subst h
    exact ⟨rfl, rfl, [], (List.append_nil _).symm, .inl rfl⟩
  · subst h
    exact ⟨rfl, rfl, _, rfl, .inr rfl⟩
  · obtain ⟨-, hrst, htakes⟩ := exec_frame h
    refine ⟨hrst, htakes, ?_⟩
    rcases exec_ports_cases h with ⟨-, -, -, hout⟩ | ⟨hseq, made, -, hout⟩
    · exact ⟨[], by rw [hout, List.append_nil], .inl rfl⟩
    · exact ⟨made, hout, .inr hseq⟩
  · subst h
    exact ⟨rfl, rfl, rest, rfl, .inr rfl⟩

/-! ## Where `rst` is low, a step is the running step as far as the receivers let it (R30) -/

theorem step_low {s t : State} (hr : s.rst = .low) (h : stepRunning s = .next t) :
    step s = .next (s.deliver t (passed s.takes (t.out.drop s.out.length))) := by
  simp [step, hr, h, State.meetPorts_low]

/-- Where every receiver is ready, nothing holds the running step up. -/
theorem step_ready {s t : State} (hr : s.rst = .low) (hk : s.takes = Takes.all) (h : stepRunning s = .next t) :
    step s = .next t := by
  obtain ⟨-, htakes, made, hout, -⟩ := stepRunning_sends h
  simp [step, hr, h, State.meetPorts_ready hr hk (htakes.trans hk) hout]

/-- A running step that sends nothing is not held up by any receiver. -/
theorem step_silent {s t : State} (hr : s.rst = .low) (h : stepRunning s = .next t) (hout : t.out = s.out) :
    step s = .next t := by
  obtain ⟨-, htakes, -⟩ := stepRunning_sends h
  have hwhole : s.deliver t 0 = t := by
    refine (State.deliver_whole (made := []) (hout.trans (List.append_nil _).symm)).trans ?_
    rw [List.foldl_nil, ← htakes]
  rw [step_low hr h, hout, List.drop_length, passed_nil, hwhole]

/-! ## What the `rst` input and the receivers cannot change -/

/-- A state with other values at what the environment sets: the `rst` input and the readiness of the receivers. -/
def State.withInputs (r : Rst) (k : Takes) (s : State) : State := { s with rst := r, takes := k }

/-- What the sequencer does next, from states changed by `f`. -/
def Fetch.map (f : State → State) : Fetch → Fetch
  | .waits s => .waits (f s)
  | .rejects s => .rejects (f s)
  | .sends s => .sends (f s)
  | .runs i s => .runs i (f s)

theorem generateLoop_withInputs (S : Sampler) (r : Rst) (k : Takes) (n j : Nat) (s : State) :
    generateLoop S n j (s.withInputs r k) = (generateLoop S n j s).withInputs r k := by
  induction n generalizing j s with
  | zero => rfl
  | succ n ih =>
    have htest : (s.withInputs r k).rsTest S = ((s.rsTest S).1, (s.rsTest S).2.withInputs r k) := rfl
    simp only [generateLoop, htest]
    split
    · exact ih (j + 1) (((s.rsTest S).2.rsSample S).2.emit [((s.rsTest S).2.rsSample S).1])
    · rfl

theorem bodyOf_withInputs (i : Instr) (opA opB : List Byte) (r : Rst) (k : Takes) (s : State) :
    bodyOf i opA opB (s.withInputs r k) = (bodyOf i opA opB s).withInputs r k := by
  cases i with
  | drbgInit | drbgReseed => simp only [bodyOf, seedBody_eq]; rfl
  | drbgGenerate p0 p1 p2 lenA lenB =>
    have hfold : (s.withInputs r k).fold opA = (s.fold opA).withInputs r k := by rw [State.fold_eq, State.fold_eq]; rfl
    simp only [bodyOf, generateBody, hfold, generateLoop_withInputs]
  | ctxZero p0 space slot => cases space <;> rfl
  | _ => rfl

theorem exec_withInputs {i : Instr} {s t : State} (r : Rst) (k : Takes) (h : exec i s = .next t) :
    exec i (s.withInputs r k) = .next (t.withInputs r k) := by
  obtain rfl := exec_next.mp h
  rw [exec_next]
  rcases runCommand_cases i (bodyOf i) s with ⟨hL, e⟩ | ⟨hL, hn, e⟩ | ⟨hL, hn, hp, e⟩ | ⟨hL, hn, hp, e⟩ <;> rw [e]
  · exact runCommand_illegal (s := s.withInputs r k) _ hL
  · exact runCommand_waits (s := s.withInputs r k) _ hL hn
  · exact runCommand_absent (s := s.withInputs r k) _ hL hn hp
  · exact (runCommand_runs (s := s.withInputs r k) _ hL hn hp).trans
      (bodyOf_withInputs i _ _ r k { s with opd := s.opd.drop (operandBytes i) })

theorem fetchWords_withInputs (r : Rst) (k : Takes) (s : State) (ws : List Word) :
    fetchWords (s.withInputs r k) ws = (fetchWords s ws).map (State.withInputs r k) := by
  match ws with
  | [] | [_] | [_, _] => rfl
  | w0 :: w1 :: w2 :: rest =>
    simp only [fetchWords]
    cases decode w0 w1 w2 <;> rfl

theorem fetch_withInputs (r : Rst) (k : Takes) (s : State) :
    fetch (s.withInputs r k) = (fetch s).map (State.withInputs r k) := by
  have hseq : (s.withInputs r k).seq = s.seq := rfl
  rw [fetch, fetch, hseq]
  cases s.seq with
  | operands | sending => rfl
  | _ => exact fetchWords_withInputs ..

/-- A running step does the same whatever stands at `rst` and at the receivers. -/
theorem stepRunning_withInputs {s t : State} (r : Rst) (k : Takes) (h : stepRunning s = .next t) :
    stepRunning (s.withInputs r k) = .next (t.withInputs r k) := by
  rw [stepRunning] at h
  rw [stepRunning, fetch_withInputs]
  cases hf : fetch s with
  | runs i u => exact exec_withInputs r k (by simpa only [hf] using h)
  | _ =>
    rw [hf] at h
    cases h
    rfl

/-! ## The wait for operand bytes (R199) -/

/-- A legal command that lacks operand bytes keeps those there and waits. -/
theorem exec_waits {i : Instr} {s : State} (h : i.wellFormed s.nKs s.nSha = true) (hn : s.opd.length < operandBytes i) :
    exec i s = .next { s with seq := .operands i s.opd, opd := [] } :=
  exec_next.mpr (runCommand_waits _ h hn)

theorem stepRunning_operands {s : State} {i : Instr} {taken : List Byte} (hq : s.seq = .operands i taken) :
    stepRunning s = exec i { s with seq := .idle, opd := taken ++ s.opd } := by
  simp only [stepRunning, fetch, hq]

/-- Settles O14: the wait keeps the bytes there, and the sequencer goes on with them and those offered since. -/
theorem operandBytesMayArriveInParts : Obligations.OperandBytesMayArriveInParts := by
  intro i s hlegal hshort hidle
  refine ⟨_, exec_waits hlegal hshort, rfl, rfl, rfl, fun more => ?_⟩
  rw [stepRunning_operands rfl, ← hidle]

/-! ## The wait for words (R31, R193) -/

/-- Taking words overwrites the sequencer and CMD, whatever they held. -/
theorem fetchWords_seq_cmd (s : State) (q : Seq) (c ws : List Word) :
    fetchWords { s with seq := q, cmd := c } ws = fetchWords s ws := by
  match ws with
  | [] | [_] | [_, _] | _ :: _ :: _ :: _ => rfl

/-- Fewer than three words are kept by the sequencer, which goes on as if they stood before those offered next. -/
theorem fetch_first_words (s : State) (first : List Word) (h : first.length < 3) :
    ∃ q, fetch { s with seq := .idle, cmd := first } = .waits { s with seq := q, cmd := [] } ∧
      ∀ more, fetch { s with seq := q, cmd := more } = fetch { s with seq := .idle, cmd := first ++ more } := by
  have hwords (q q' : Seq) (c c' ws : List Word) :
      fetchWords { s with seq := q, cmd := c } ws = fetchWords { s with seq := q', cmd := c' } ws := by
    rw [fetchWords_seq_cmd s q, fetchWords_seq_cmd s q']
  match first with
  | [] => exact ⟨.idle, rfl, fun _ => rfl⟩
  | [w0] => exact ⟨.gotOne w0, rfl, fun _ => hwords ..⟩
  | [w0, w1] => exact ⟨.gotTwo w0 w1, rfl, fun _ => hwords ..⟩
  | _ :: _ :: _ :: rest =>
    simp only [List.length_cons] at h
    omega

/-- Settles O16: the sequencer keeps the words of the first part, and no receiver is asked before the last word is there. -/
theorem commandWordsMayArriveInParts : Obligations.CommandWordsMayArriveInParts := by
  intro s first more hr hidle hfirst
  obtain ⟨q, hwait, hgoesOn⟩ := fetch_first_words s first hfirst
  rw [← hidle] at hwait hgoesOn
  have hfirstStep : stepRunning { s with cmd := first } = .next { s with seq := q, cmd := [] } := by
    rw [stepRunning, hwait]
  refine ⟨_, step_silent hr hfirstStep rfl, rfl, rfl, rfl, rfl, ?_⟩
  have hsame : stepRunning { s with seq := q, cmd := more } = stepRunning { s with cmd := first ++ more } := by
    rw [stepRunning, stepRunning, hgoesOn]
  obtain ⟨u, hu⟩ := stepRunning_next { s with cmd := first ++ more }
  exact (step_low (s := { s with seq := q, cmd := more }) hr (hsame.trans hu)).trans
    (step_low (s := { s with cmd := first ++ more }) hr hu).symm

/-- Settles O9: the sequencer takes the three words and runs the command they decode to. -/
theorem stepRunsTheDecodedCommand : Obligations.StepRunsTheDecodedCommand := by
  intro s w0 w1 w2 rest i hr hidle hcmd hdecode
  have hrun : stepRunning s = exec i { s with cmd := rest } := by
    simp only [stepRunning, fetch, hidle, hcmd, fetchWords, hdecode]
  obtain ⟨t, ht⟩ := stepRunning_next s
  exact ⟨fun hk => (step_ready hr hk ht).trans (ht.symm.trans hrun), t, hrun.symm.trans ht, step_low hr ht⟩

/-! ## The wait for a receiver (R30) -/

theorem stepRunning_sending {s : State} {left : List PortEvent} (hq : s.seq = .sending left) :
    stepRunning s = .next { s with seq := .idle, out := s.out ++ left } := by
  simp only [stepRunning, fetch, hq]

/-- A command whose next transaction is not taken waits: the step changes nothing. -/
theorem step_sending_not_ready {s : State} {e : PortEvent} {rest : List PortEvent} (hr : s.rst = .low)
    (hq : s.seq = .sending (e :: rest)) (hk : s.takes.ready e = false) : step s = .next s := by
  have hpart := State.deliver_part (s := s) (t := { s with seq := .idle, out := s.out ++ e :: rest }) (sent := [])
    (by rw [List.append_nil])
  rw [step_low hr (stepRunning_sending hq), List.drop_left, passed, hk]
  simpa [← hq] using hpart

/-- Settles O15: a wait for operand bytes sends nothing and takes nothing, and a wait for a receiver sends nothing. -/
theorem starvedCommandWaitsForEver : Obligations.StarvedCommandWaitsForEver := by
  refine ⟨fun s i taken hr hq hlegal hshort hopd => ?_, fun s b rest hr hq hk => ?_, fun s w rest hr hq hk => ?_,
    fun s r rest hr hq hk => ?_⟩
  · refine step_silent hr ?_ rfl
    rw [stepRunning_operands hq, hopd, List.append_nil,
      exec_waits (s := { s with seq := .idle, opd := taken }) hlegal hshort, ← hq, ← hopd]
  · exact step_sending_not_ready hr hq (by rw [Takes.ready, hk]; rfl)
  · exact step_sending_not_ready hr hq (by rw [Takes.ready, hk]; rfl)
  · exact step_sending_not_ready hr hq (by rw [Takes.ready, hk]; rfl)

/-- A receiver that is not ready after `m` items, having been ready for at least as many, has taken all it was ready for. -/
theorem Take.eq_upTo_of_less_not_ready {k : Take} {m : Nat} (h : (k.less m).ready = false)
    (hle : ∀ n, k = .upTo n → m ≤ n) : k = .upTo m := by
  cases k with
  | all => cases h
  | upTo n =>
    have hzero : n - m = 0 := by simpa [Take.less, Take.ready] using h
    have := hle n rfl
    congr 1
    omega

/-- Where a transaction is not taken, as many as its receiver was ready for have been made on its port. -/
theorem Takes.not_ready_port {k : Takes} {sent : List PortEvent} {e : PortEvent}
    (h : (sent.foldl Takes.after k).ready e = false)
    (hrs : ∀ n, k.rs = .upTo n → sent.countP PortEvent.isSampler ≤ n)
    (hres : ∀ n, k.res = .upTo n → sent.countP PortEvent.isResult ≤ n)
    (hrsp : ∀ n, k.rsp = .upTo n → sent.countP PortEvent.isResponse ≤ n) :
    (e.isSampler = true ∧ k.rs = .upTo (sent.countP PortEvent.isSampler)) ∨
      (e.isResult = true ∧ k.res = .upTo (sent.countP PortEvent.isResult)) ∨
      (e.isResponse = true ∧ k.rsp = .upTo (sent.countP PortEvent.isResponse)) := by
  rw [Takes.foldl_after] at h
  cases e with
  | rs => exact .inl ⟨rfl, Take.eq_upTo_of_less_not_ready h hrs⟩
  | res => exact .inr (.inl ⟨rfl, Take.eq_upTo_of_less_not_ready h hres⟩)
  | rsp => exact .inr (.inr ⟨rfl, Take.eq_upTo_of_less_not_ready h hrsp⟩)

/-- The sequencer of a step that would leave it at `q`, with `left` of its transactions still to be made. -/
def Seq.holding (q : Seq) : List PortEvent → Seq
  | [] => q
  | e :: rest => .sending (e :: rest)

/-- A step whose transactions are made up to `left`. -/
theorem State.deliver_split {s t : State} {sent left : List PortEvent} (h : t.out = s.out ++ sent ++ left) :
    s.deliver t sent.length =
      { t with seq := t.seq.holding left, takes := sent.foldl Takes.after s.takes, out := s.out ++ sent } := by
  cases left with
  | nil =>
    rw [List.append_nil] at h
    rw [State.deliver_whole h, ← h]
    rfl
  | cons e rest => exact State.deliver_part h

/-- All that the receivers do to a step where `rst` is low: its transactions are made up to the first that is not taken, the
sequencer keeps those left, and no receiver has taken more than it was ready to. -/
theorem step_low_split {s t : State} (hr : s.rst = .low) (h : stepRunning s = .next t) :
    ∃ sent left, t.out = s.out ++ sent ++ left ∧ (left = [] ∨ t.seq = .idle) ∧
      step s = .next
        { t with seq := t.seq.holding left, takes := sent.foldl Takes.after s.takes, out := s.out ++ sent } ∧
      (∀ e rest, left = e :: rest → (sent.foldl Takes.after s.takes).ready e = false) ∧
      (∀ n, s.takes.rs = .upTo n → sent.countP PortEvent.isSampler ≤ n) ∧
      (∀ n, s.takes.res = .upTo n → sent.countP PortEvent.isResult ≤ n) ∧
      (∀ n, s.takes.rsp = .upTo n → sent.countP PortEvent.isResponse ≤ n) := by
  obtain ⟨-, -, made, hout, hidle⟩ := stepRunning_sends h
  obtain ⟨sent, left, rfl, hpassed, hbounds⟩ := passed_spec s.takes made
  have hsplit : t.out = s.out ++ sent ++ left := hout.trans (List.append_assoc ..).symm
  refine ⟨sent, left, hsplit, hidle.imp_left fun e => (List.append_eq_nil_iff.mp e).2, ?_, hbounds⟩
  rw [step_low hr h, hout, List.drop_left, hpassed, State.deliver_split hsplit]

/-- Settles O60: the running step is that of receivers that are ready, and what the receivers do to it is `step_low_split`. -/
theorem receiversMayTakeItemsInParts : Obligations.ReceiversMayTakeItemsInParts := by
  intro s u k hr hready
  obtain ⟨v, hv⟩ := stepRunning_next s
  have hall : step (s.withInputs s.rst Takes.all) = .next (v.withInputs s.rst Takes.all) :=
    step_ready hr rfl (stepRunning_withInputs _ _ hv)
  obtain rfl : v.withInputs s.rst Takes.all = u := Host.Outcome.next.inj (hall.symm.trans hready)
  obtain ⟨sent, left, hout, hidle, hstep, hheld, hrs, hres, hrsp⟩ :=
    step_low_split (s := s.withInputs s.rst k) hr (stepRunning_withInputs s.rst k hv)
  refine ⟨_, sent, left, hstep, hout, rfl, rfl, rfl, rfl, rfl, hrs, hres, hrsp, hr, Takes.foldl_after k sent, ?_, ?_⟩
  · rintro rfl
    rfl
  · rintro e rest rfl
    refine ⟨rfl, Takes.not_ready_port (hheld e rest rfl) hrs hres hrsp, ?_⟩
    have hend : v.seq = .idle := hidle.resolve_left (List.cons_ne_nil e rest)
    refine step_ready hr rfl (Eq.trans (stepRunning_sending rfl) ?_)
    rw [← hout, ← hend]
    rfl

/-! ## Context images (R36, R37) -/

/-- Bytes of a word, most significant first (R86). -/
theorem toBe32_getElem? (w : Word) (k : Nat) (h : k < 4) :
    (toBe32 w)[k]? = some ((w >>> (8 * (3 - k))).setWidth 8) := by
  interval_cases k <;> rfl

/-- Bytes of a dword, most significant first (R87). -/
theorem toBe64_getElem? (d : Dword) (k : Nat) (h : k < 8) :
    (toBe64 d)[k]? = some ((d >>> (8 * (7 - k))).setWidth 8) := by
  interval_cases k <;> rfl

/-- Bytes of words serialised one after another, each most significant byte first (R34). -/
theorem flatMap_toBe32_getElem? (ws : List Word) (k : Nat) :
    (ws.flatMap toBe32)[k]? = ws[k / 4]?.map fun w : Word => (w >>> (8 * (3 - k % 4))).setWidth 8 := by
  induction ws generalizing k with
  | nil => simp
  | cons w ws ih =>
    rw [List.flatMap_cons]
    rcases Nat.lt_or_ge k 4 with hk | hk
    · rw [List.getElem?_append_left (by simpa using hk), toBe32_getElem? w k hk, Nat.div_eq_of_lt hk,
        Nat.mod_eq_of_lt hk]
      rfl
    · obtain ⟨j, rfl⟩ := Nat.exists_eq_add_of_le' hk
      rw [List.getElem?_append_right (by simp), toBe32_length, Nat.add_sub_cancel, ih, Nat.add_mod_right,
        Nat.add_div_right j (by decide), List.getElem?_cons_succ]

/-- The image of a hash slot is R37's table, region by region: the words of `H`, `BUF`, `OFF`, and `BITS`. -/
theorem HashSlot.image_getElem? (c : HashSlot) (off : Fin 105) : c.image[off.val]? = some (hashImageByte c off) := by
  have hoff := off.isLt
  have hH : (c.h.toList.flatMap toBe32).length = 32 := by simp
  have hBuf : (c.h.toList.flatMap toBe32 ++ c.buf.toList).length = 96 := by simp
  have hOff : (c.h.toList.flatMap toBe32 ++ c.buf.toList ++ [c.off.setWidth 8]).length = 97 := by simp
  simp only [HashSlot.image, hashImageByte]
  split_ifs with h h' h''
  · rw [List.getElem?_append_left (by omega), List.getElem?_append_left (by omega),
      List.getElem?_append_left (by omega), flatMap_toBe32_getElem?, Vector.getElem?_toList,
      Vector.getElem?_eq_getElem (by omega), Option.map_some]
  · rw [List.getElem?_append_left (by omega), List.getElem?_append_left (by omega),
      List.getElem?_append_right (by omega), hH, Vector.getElem?_toList, Vector.getElem?_eq_getElem]
  · have hbyte : c.off.setWidth 8 = 0#2 ++ c.off := BitVec.setWidth_eq_append (by decide)
    rw [List.getElem?_append_left (by omega), List.getElem?_append_right (by omega), hBuf, h'', hbyte]
    rfl
  · rw [List.getElem?_append_right (by omega), hOff, toBe64_getElem? _ _ (by omega)]
    have hshift : 7 - (off.val - 97) = 104 - off.val := by omega
    rw [hshift]

theorem State.image_keySched (s : State) (slot : BitVec 8) :
    s.image slot .keySched = (List.finRange 176).map fun off => (s.readKs slot)[off] := by
  rw [← List.ofFn_eq_map, ← Vector.toList_ofFn]
  exact congrArg Vector.toList (Vector.ofFn_getElem ..).symm

theorem State.image_hash (s : State) (slot : BitVec 8) :
    s.image slot .hash = (List.finRange 105).map fun off => hashImageByte (s.readSha slot) off := by
  refine List.ext_getElem (by simp [imageSize]) fun k hk hk' => ?_
  rw [List.getElem_map, List.getElem_finRange, ← Option.some_inj, ← HashSlot.image_getElem?]
  exact (List.getElem?_eq_getElem hk).symm

/-- `CTX_READ` (R160) of a run inside the image of a slot that exists. -/
theorem exec_ctxRead {s : State} {space : Space} {slot : BitVec 8} {lenA lenB : Word}
    (h : (Instr.ctxRead true space slot lenA lenB).wellFormed s.nKs s.nSha = true) :
    exec (.ctxRead true space slot lenA lenB) s = .next
      { s with out := s.out ++ (s.ctxBytes space slot lenA.toNat lenB.toNat).map PortEvent.res ++
          [.rsp 0x1#32, .rsp lenB] } := by
  have hlen : responseLength lenB.toNat = lenB := BitVec.ofNat_toNat ..
  rw [exec_next, runCommand_runs _ h (Nat.zero_le _) rfl]
  simp only [bodyOf, State.respond, hlen]
  rfl

/-- A run of an image whose bytes are those `f` gives, in order. -/
theorem ctxBytes_map_res {s : State} {space : Space} {slot : BitVec 8} {n : Nat} {f : Fin n → Byte}
    (h : s.image slot space = (List.finRange n).map f) (off len : Nat) :
    (s.ctxBytes space slot off len).map PortEvent.res =
      (((List.finRange n).drop off).take len).map (fun k => PortEvent.res (f k)) := by
  rw [State.ctxBytes, h, ← List.map_drop, ← List.map_take, List.map_map]
  rfl

/-- Settles O50: `CTX_READ` emits a run of the image, whose bytes are those of R37's tables. -/
theorem ctxReadEmitsTheImageBytes : Obligations.CtxReadEmitsTheImageBytes := by
  intro s slot lenA lenB
  refine ⟨fun hslot hrun => ?_, fun hslot hrun => ?_⟩
  · rw [exec_ctxRead (by simp [paramLegal, slotCount, imageSize, hslot, hrun]),
      ctxBytes_map_res (s.image_keySched slot)]
  · rw [exec_ctxRead (by simp [paramLegal, slotCount, imageSize, hslot, hrun]),
      ctxBytes_map_res (s.image_hash slot)]

end Sys2Proof.Machine
end

section
/-! PROOF. The statements about the encoding of commands (spec 30_encoding.md): the header word and its fields, the decoder against
the encoder and against the rows of R54, and what R56 to R59 say every command takes and answers. -/

namespace Sys2Proof

open Machine

/-! ## The header word and its fields (R51) -/

/-- The fields of a header made of fields are those fields. The widths of the concatenation must stay sums for the library's
lemmas to see it, hence `-Nat.reduceAdd`. -/
@[simp] theorem headerOf_headerWord (op : BitVec 4) (p0 p1 p2 : Bool) (slot : BitVec 8) (space : BitVec 2) :
    headerOf (headerWord op p0 p1 p2 slot space) = ⟨op, p0, p1, p2, false, slot, space, 0#14⟩ := by
  simp [headerOf, headerWord, BitVec.extractLsb'_append_eq_ite, BitVec.getLsbD_append, -Nat.reduceAdd,
    -BitVec.getLsbD_eq_getElem]

theorem ofBool_getLsbD_eq_extractLsb' (w : Word) (k : Nat) : BitVec.ofBool (w.getLsbD k) = w.extractLsb' k 1 := by
  ext i hi
  obtain rfl : i = 0 := by omega
  simp

/-- A header whose reserved bits are 0 is the word its fields make: the fields lie side by side and leave out no bit. -/
theorem headerWord_headerOf {w : Word} (h7 : (headerOf w).reserved7 = false) (h31 : (headerOf w).reserved31 = 0#14) :
    headerWord (headerOf w).op (headerOf w).p0 (headerOf w).p1 (headerOf w).p2 (headerOf w).slot (headerOf w).space
      = w := by
  have h7' : 0#1 = BitVec.ofBool (headerOf w).reserved7 := by rw [h7]; rfl
  rw [headerWord, ← h31, h7']
  simp only [headerOf, ofBool_getLsbD_eq_extractLsb', BitVec.extractLsb'_append_extractLsb'_eq_extractLsb',
    -Nat.reduceAdd]
  exact BitVec.extractLsb'_eq_self

/-! ## What the decoder checks (R57) -/

theorem ite_some_eq_none_iff {α : Type} {c : Prop} [Decidable c] {a : α} {o : Option α} :
    (if c then some a else o) = none ↔ ¬c ∧ o = none := by
  split <;> simp [*]

/-- Two and three are the numbers of no space (R57 condition 4). -/
theorem spaceBits_spaceOf_eq_iff {b : BitVec 2} : spaceBits (spaceOf b) = b ↔ b ≠ 2#2 ∧ b ≠ 3#2 := by
  revert b
  decide

/-- Words pass the checks of a shape where none of R57's conditions (2) to (5) and (7) holds. -/
theorem checkShape_eq_none_iff {sh : Shape} {h : Header} {w1 w2 : Word} :
    checkShape sh h w1 w2 = none ↔
      (h.reserved7 = false ∧ h.reserved31 = 0#14) ∧
      ((sh.usesP1 = false → h.p1 = false) ∧ (sh.usesP2 = false → h.p2 = false)) ∧
      (if sh.usesSpace then spaceBits (spaceOf h.space) = h.space else h.space = 0#2) ∧
      (sh.usesSlot = false → h.slot = 0#8) ∧ sh.format.lengthsOk w1 w2 = true := by
  simp only [checkShape, ite_some_eq_none_iff, spaceBits_spaceOf_eq_iff]
  cases sh.usesSpace <;> simp

/-- The decoder accepts words as the command of their opcode where they pass the checks of its shape. -/
theorem decode_eq_ok_iff {w0 w1 w2 : Word} {i : Instr} :
    decode w0 w1 w2 = .ok i ↔
      ∃ sh, commandOf (headerOf w0) w1 w2 = some (sh, i) ∧ checkShape sh (headerOf w0) w1 w2 = none := by
  rw [decode]
  rcases commandOf (headerOf w0) w1 w2 with _ | ⟨sh, j⟩
  · simp
  · simp only [Option.some.injEq, Prod.mk.injEq]
    cases h : checkShape sh (headerOf w0) w1 w2 with
    | none => simp [h]
    | some e => simp +contextual [h]

/-! ## The decoder against the encoder -/

/-- Settles O2: the decoder reads the fields the encoder wrote, and the fields it does not use were written 0. -/
theorem decodeOfEncodeIsTheCommand : Obligations.DecodeOfEncodeIsTheCommand := by
  intro i
  rw [decode_eq_ok_iff]
  cases i with
  | ctxRead p0 space | ctxZero p0 space =>
    simp only [encode, headerOf_headerWord]
    cases space <;> exact ⟨_, rfl, rfl⟩
  | _ =>
    simp only [encode, headerOf_headerWord]
    exact ⟨_, rfl, rfl⟩

/-- Words that pass the checks of their command are its words: every field the command leaves out is one the checks find 0. -/
theorem encode_of_commandOf {h : Header} {w1 w2 : Word} {sh : Shape} {i : Instr}
    (hc : commandOf h w1 w2 = some (sh, i)) (hcheck : checkShape sh h w1 w2 = none) :
    encode i = ⟨headerWord h.op h.p0 h.p1 h.p2 h.slot h.space, w1, w2⟩ := by
  obtain ⟨-, hpresence, hspace, hslot, hlengths⟩ := checkShape_eq_none_iff.mp hcheck
  have hop : BitVec.ofNat 4 h.op.toNat = h.op := BitVec.ofNat_toNat ..
  simp only [commandOf] at hc
  split at hc <;> cases hc
  all_goals
    next heq =>
      rw [heq] at hop
      simp_all [encode, Format.lengthsOk]

/-- Settles O3: the words are those of the command they decode to, since a header without reserved bits is made of its fields. -/
theorem encodeOfDecodeIsTheWords : Obligations.EncodeOfDecodeIsTheWords := by
  intro w0 w1 w2 i h
  obtain ⟨sh, hc, hcheck⟩ := decode_eq_ok_iff.mp h
  obtain ⟨⟨h7, h31⟩, -⟩ := checkShape_eq_none_iff.mp hcheck
  rw [encode_of_commandOf hc hcheck, headerWord_headerOf h7 h31]

/-! ## The rows of R54 -/

/-- The bits two headers both have. -/
def Header.and (a b : Header) : Header where
  op := a.op &&& b.op
  p0 := a.p0 && b.p0
  p1 := a.p1 && b.p1
  p2 := a.p2 && b.p2
  reserved7 := a.reserved7 && b.reserved7
  slot := a.slot &&& b.slot
  space := a.space &&& b.space
  reserved31 := a.reserved31 &&& b.reserved31

theorem headerOf_and (a b : Word) : headerOf (a &&& b) = (headerOf a).and (headerOf b) := by
  simp only [headerOf, Header.and, BitVec.extractLsb'_and, BitVec.getLsbD_and]

/-- The header bits fixed for commands of a shape: those of the opcode, of reserved and of unused fields, and the high bit
of a space. -/
def Shape.mask (sh : Shape) : Header where
  op := BitVec.allOnes 4
  p0 := false
  p1 := !sh.usesP1
  p2 := !sh.usesP2
  reserved7 := true
  slot := if sh.usesSlot then 0#8 else BitVec.allOnes 8
  space := if sh.usesSpace then 2#2 else BitVec.allOnes 2
  reserved31 := BitVec.allOnes 14

/-- Every row of R54 is the row of one opcode: its pattern is that opcode, its mask and its format those of the opcode's shape. -/
theorem opcodeRows_shape : ∀ r ∈ opcodeRows, ∃ op sh,
    headerOf r.pattern = ⟨op, false, false, false, false, 0#8, 0#2, 0#14⟩ ∧
      (∀ h w1 w2, h.op = op → ∃ i, commandOf h w1 w2 = some (sh, i)) ∧
      headerOf r.mask = sh.mask ∧ r.format = sh.format := by
  simp only [opcodeRows, List.cons_append, List.nil_append, List.forall_mem_cons]
  refine ⟨?_, ?_, ?_, ?_, ?_, ?_, ?_, ?_, ?_, ?_, ?_, ?_, ?_, by simp⟩
  all_goals exact ⟨_, _, rfl, fun h w1 w2 hop => ⟨_, by rw [commandOf, hop]; rfl⟩, rfl, rfl⟩

/-- The fixed bits of a header that selects a row are the row's pattern. -/
theorem and_headerOf_mask_of_selects {r : OpcodeRow} {w0 : Word} (h : r.selects w0 = true) :
    (headerOf w0).and (headerOf r.mask) = headerOf r.pattern := by
  rw [← headerOf_and, eq_of_beq h]

theorem spaceBits_spaceOf_of_and_two {b : BitVec 2} (h : b &&& 2#2 = 0#2) : spaceBits (spaceOf b) = b := by
  revert b
  decide

/-- A header whose fixed bits are those of an opcode has that opcode and passes the header's checks. -/
theorem op_and_checkShape_of_and_mask {sh : Shape} {h : Header} {op : BitVec 4}
    (hmask : h.and sh.mask = ⟨op, false, false, false, false, 0#8, 0#2, 0#14⟩) :
    h.op = op ∧ ∀ w1 w2, sh.format.lengthsOk w1 w2 = true → checkShape sh h w1 w2 = none := by
  simp only [Header.and, Shape.mask, Header.mk.injEq, BitVec.and_allOnes, Bool.and_true] at hmask
  obtain ⟨hop, -, h1, h2, h7, hs, hsp, h31⟩ := hmask
  refine ⟨hop, fun w1 w2 hlengths => checkShape_eq_none_iff.mpr ⟨⟨h7, h31⟩,
    ⟨fun hu => by simpa [hu] using h1, fun hu => by simpa [hu] using h2⟩, ?_, fun hu => ?_, hlengths⟩⟩
  · cases hu : sh.usesSpace with
    | false => simpa only [hu, Bool.false_eq_true, ite_false, BitVec.and_allOnes] using hsp
    | true => exact spaceBits_spaceOf_of_and_two (by simpa only [hu, ite_true] using hsp)
  · simpa only [hu, Bool.false_eq_true, ite_false, BitVec.and_allOnes] using hs

/-- A header that selects a row of R54 has the row's opcode, makes a command, and passes the checks of the command's shape, whose
format is the row's. -/
theorem OpcodeRow.spec_of_selects {r : OpcodeRow} {w0 : Word} (hr : r ∈ opcodeRows) (h : r.selects w0 = true) :
    (headerOf w0).op = (headerOf r.pattern).op ∧ ∃ sh, (∀ w1 w2, ∃ i, commandOf (headerOf w0) w1 w2 = some (sh, i)) ∧
      ∀ w1 w2, r.format.lengthsOk w1 w2 = true → checkShape sh (headerOf w0) w1 w2 = none := by
  obtain ⟨op, sh, hpattern, hcommand, hmask, hformat⟩ := opcodeRows_shape r hr
  have hand := and_headerOf_mask_of_selects h
  rw [hmask, hpattern] at hand
  obtain ⟨hop, hcheck⟩ := op_and_checkShape_of_and_mask hand
  rw [hpattern, hformat]
  exact ⟨hop, sh, fun w1 w2 => hcommand _ w1 w2 hop, hcheck⟩

theorem opcodeRows_op_injective :
    ∀ r ∈ opcodeRows, ∀ q ∈ opcodeRows, (headerOf r.pattern).op = (headerOf q.pattern).op → r = q := by
  decide

/-- Settles O5: a header that selects a row has its opcode, and no two rows have the same. -/
theorem opcodeRowsAreDisjoint : Obligations.OpcodeRowsAreDisjoint := by
  intro w0 r hr q hq hselr hselq
  exact opcodeRows_op_injective r hr q hq
    ((OpcodeRow.spec_of_selects hr hselr).1.symm.trans (OpcodeRow.spec_of_selects hq hselq).1)

/-! ## The words of a command, field by field (R51, R55) -/

section

variable (op : BitVec 4) (p0 p1 p2 : Bool) (slot : BitVec 8) (space : BitVec 2)

theorem headerWord_p0 : (headerWord op p0 p1 p2 slot space).getLsbD 4 = p0 :=
  congrArg Header.p0 (headerOf_headerWord ..)

theorem headerWord_p1 : (headerWord op p0 p1 p2 slot space).getLsbD 5 = p1 :=
  congrArg Header.p1 (headerOf_headerWord ..)

theorem headerWord_p2 : (headerWord op p0 p1 p2 slot space).getLsbD 6 = p2 :=
  congrArg Header.p2 (headerOf_headerWord ..)

theorem headerWord_slot : (headerWord op p0 p1 p2 slot space).extractLsb' 8 8 = slot :=
  congrArg Header.slot (headerOf_headerWord ..)

theorem headerWord_space_low : (headerWord op p0 p1 p2 slot space).getLsbD 16 = space.getLsbD 0 := by
  have h := congrArg (fun h : Header => h.space.getLsbD 0) (headerOf_headerWord op p0 p1 p2 slot space)
  simpa [headerOf] using h

end

/-- The words of every command say its fields. -/
theorem fieldsFrom_encode (i : Instr) : fieldsFrom (encode i).w0 (encode i).w1 (encode i).w2 i := by
  cases i with
  | ctxRead p0 space | ctxZero p0 space =>
    cases space <;>
      simp [fieldsFrom, encode, headerWord_p0, headerWord_slot, headerWord_space_low, spaceBits, -BitVec.getLsbD_eq_getElem]
  | _ => simp only [fieldsFrom, encode, headerWord_p0, headerWord_p1, headerWord_p2, headerWord_slot, and_self]

/-- The words of every command select its row of R54. -/
theorem encode_selects_row (i : Instr) : Laws.EncodeSelectsRow.Statement i := by
  cases i with
  | aesSetEncKey => exact Laws.EncodeSelectsRow.aesSetEncKey ..
  | aesSetDecKey => exact Laws.EncodeSelectsRow.aesSetDecKey ..
  | aesEncBlock => exact Laws.EncodeSelectsRow.aesEncBlock ..
  | aesDecBlock => exact Laws.EncodeSelectsRow.aesDecBlock ..
  | shaInit => exact Laws.EncodeSelectsRow.shaInit ..
  | shaUpdate => exact Laws.EncodeSelectsRow.shaUpdate ..
  | shaFinal => exact Laws.EncodeSelectsRow.shaFinal ..
  | drbgInit => exact Laws.EncodeSelectsRow.drbgInit ..
  | drbgReseed => exact Laws.EncodeSelectsRow.drbgReseed ..
  | drbgGenerate => exact Laws.EncodeSelectsRow.drbgGenerate ..
  | drbgUninst => exact Laws.EncodeSelectsRow.drbgUninst ..
  | ctxRead => exact Laws.EncodeSelectsRow.ctxRead ..
  | ctxZero => exact Laws.EncodeSelectsRow.ctxZero ..

/-- The decoder accepts words whose header selects a row and whose unused length words are 0. -/
theorem decode_of_selects {r : OpcodeRow} {w0 w1 w2 : Word} (hr : r ∈ opcodeRows) (hsel : r.selects w0 = true)
    (hlengths : r.format.lengthsOk w1 w2 = true) : ∃ i, decode w0 w1 w2 = .ok i := by
  obtain ⟨-, sh, hcommand, hcheck⟩ := OpcodeRow.spec_of_selects hr hsel
  obtain ⟨i, hi⟩ := hcommand w1 w2
  exact ⟨i, decode_eq_ok_iff.mpr ⟨sh, hi, hcheck w1 w2 hlengths⟩⟩

/-- Settles O4: words that decode are the words of their command, whose fields and row `fieldsFrom_encode` and
`encode_selects_row` give; and words a row accepts pass every check of the decoder. -/
theorem decoderAcceptsExactlyTheOpcodeMap : Obligations.DecoderAcceptsExactlyTheOpcodeMap := by
  intro w0 w1 w2
  refine ⟨fun i hi => ?_, fun r hr hsel hlengths => decode_of_selects hr hsel hlengths⟩
  have hwords : encode i = ⟨w0, w1, w2⟩ := encodeOfDecodeIsTheWords w0 w1 w2 i hi
  have hfields := fieldsFrom_encode i
  have hrow := encode_selects_row i
  rw [Laws.EncodeSelectsRow.Statement] at hrow
  rw [hwords] at hfields hrow
  exact ⟨hfields, hrow⟩

/-- Settles O1, by running the decoder. -/
theorem exampleWordsDecode : Obligations.ExampleWordsDecode := by
  unfold Obligations.ExampleWordsDecode
  decide

end Sys2Proof

namespace Sys2Proof.Machine

/-! ## Commands that are answered `ST_ILLEGAL` (R57) -/

/-- A command that is not legal only answers. -/
theorem exec_illegal {i : Instr} {s : State} (h : i.wellFormed s.nKs s.nSha = false) :
    exec i s = .next { s with out := s.out ++ [.rsp 0x4#32, .rsp 0#32] } :=
  exec_next.mpr (runCommand_illegal _ h)

/-- `CTX_READ` of a slot that does not exist, or of a run that leaves the image (R57 conditions 6 and 8), is not legal. -/
theorem ctxRead_not_wellFormed {nKs nSha : Nat} {p0 : Bool} {space : Space} {slot : BitVec 8} {lenA lenB : Word}
    (h : slotCount nKs nSha space ≤ slot.toNat ∨ imageSize space < lenA.toNat + lenB.toNat) :
    (Instr.ctxRead p0 space slot lenA lenB).wellFormed nKs nSha = false := by
  rw [Instr.wellFormed, paramLegal, Bool.and_eq_false_iff, decide_eq_false_iff_not, decide_eq_false_iff_not, Nat.not_lt,
    Nat.not_le]
  exact h

/-- Settles O11: each condition written out is one that `paramLegal` checks. -/
theorem parameterIllegalCommandIsAnsweredIllegal : Obligations.ParameterIllegalCommandIsAnsweredIllegal := by
  intro s p0 p1 p2 slot lenA lenB
  refine ⟨fun hslot => ?_, fun hslot => ?_, fun hrun => exec_illegal (ctxRead_not_wellFormed (.inr hrun)),
    fun hrun => exec_illegal (ctxRead_not_wellFormed (.inr hrun)), fun i hi => exec_illegal hi⟩
  · have hnone : decide (slot.toNat < s.nKs) = false := decide_eq_false (Nat.not_lt.mpr hslot)
    exact ⟨exec_illegal hnone, exec_illegal hnone, exec_illegal hnone, exec_illegal hnone,
      exec_illegal (ctxRead_not_wellFormed (.inl hslot)), exec_illegal hnone⟩
  · have hnone : decide (slot.toNat < s.nSha) = false := decide_eq_false (Nat.not_lt.mpr hslot)
    exact ⟨exec_illegal hnone, exec_illegal hnone, exec_illegal hnone,
      exec_illegal (ctxRead_not_wellFormed (.inl hslot)), exec_illegal hnone⟩

/-- A host that takes every response word takes a response whole, and the receivers are as ready after it. -/
theorem Takes.takes_response {k : Takes} (hk : k.rsp = .all) (r0 r1 : Word) :
    passed k [.rsp r0, .rsp r1] = 2 ∧ [PortEvent.rsp r0, .rsp r1].foldl Takes.after k = k := by
  obtain ⟨rs, res, rsp⟩ := k
  obtain rfl : rsp = .all := hk
  exact ⟨rfl, rfl⟩

/-- Where the host takes every response word, a running step that sends one response is not held up. -/
theorem step_of_response {s t : State} {r0 r1 : Word} (hr : s.rst = .low) (hk : s.takes.rsp = .all)
    (h : stepRunning s = .next t) (hout : t.out = s.out ++ [.rsp r0, .rsp r1]) : step s = .next t := by
  obtain ⟨hpassed, hafter⟩ := Takes.takes_response hk r0 r1
  obtain ⟨-, htakes, -⟩ := stepRunning_sends h
  have hwhole := State.deliver_whole hout
  rw [hafter, ← htakes] at hwhole
  rw [step_low hr h, hout, List.drop_left, hpassed]
  exact congrArg _ hwhole

/-- Settles O10: the sequencer takes the words and the response is all the step sends. -/
theorem wordsThatAreNoCommandAreAnsweredIllegal : Obligations.WordsThatAreNoCommandAreAnsweredIllegal := by
  intro s w0 w1 w2 rest e hr hidle hcmd hdecode hk
  refine step_of_response hr hk ?_ rfl
  simp only [stepRunning, fetch, hidle, hcmd, fetchWords, hdecode]
  rfl

/-! ## The operand bytes a command takes (R32, R56) -/

/-- Settles O13: the bytes are taken before the presence check, and neither a failure nor a body touches what is left. -/
theorem surplusOperandBytesAreLeft : Obligations.SurplusOperandBytesAreLeft := by
  intro i s hlegal hbytes
  have hrun := exec_eq_runCommand i s
  refine ⟨_, hrun, ?_, (exec_frame hrun).1⟩
  cases hp : requiredPresent i with
  | false => rw [runCommand_absent _ hlegal hbytes hp]; rfl
  | true =>
    rw [runCommand_runs _ hlegal hbytes hp]
    obtain ⟨-, hopd, -⟩ := bodyOf_frame i (s.opd.take (opALen i)) ((s.opd.drop (opALen i)).take (opBLen i))
      { s with opd := s.opd.drop (operandBytes i) }
    exact hopd

/-! ## The no-ops (R59) -/

/-- Writing back what a slot holds changes nothing. -/
theorem State.writeSha_readSha (s : State) (slot : BitVec 8) : s.writeSha slot (s.readSha slot) = s := by
  have hset : s.sha.set slot.toNat (s.readSha slot) = s.sha := by
    rcases Nat.lt_or_ge slot.toNat s.sha.length with h | h
    · rw [State.readSha, List.getD_eq_getElem _ _ h, List.set_getElem_self]
    · exact List.set_eq_of_length_le h
  rw [State.writeSha, hset]

/-- A legal command that takes no operand bytes and whose body only answers, only answers. -/
theorem exec_only_answers {i : Instr} {s : State} (hlegal : i.wellFormed s.nKs s.nSha = true)
    (hp : requiredPresent i = true) (hn : operandBytes i = 0)
    (hbody : bodyOf i [] [] s = s.respond .ok 0) :
    exec i s = .next { s with out := s.out ++ [.rsp 0x1#32, .rsp 0#32] } := by
  obtain ⟨hA, hB⟩ : opALen i = 0 ∧ opBLen i = 0 := Nat.add_eq_zero_iff.mp hn
  rw [exec_next, runCommand_runs _ hlegal (by omega) hp, hA, hB, hn]
  exact hbody

/-- Settles O18: the four commands take no operand bytes, and the body of each does nothing before the response. -/
theorem noOpCommandsOnlyAnswer : Obligations.NoOpCommandsOnlyAnswer := by
  intro s i hlegal hnoop
  rcases hnoop with rfl | ⟨slot, rfl⟩ | ⟨p1, rfl⟩ | ⟨space, slot, lenA, rfl⟩
  · exact exec_only_answers hlegal rfl rfl rfl
  · refine exec_only_answers hlegal rfl rfl ?_
    simp only [bodyOf, HashSlot.update_nil, State.writeSha_readSha]
  · cases p1 <;> exact exec_only_answers hlegal rfl rfl rfl
  · refine exec_only_answers hlegal rfl rfl ?_
    simp [bodyOf, State.ctxBytes, State.emit]

/-! ## The one response of a command (R58, R170, R203) -/

theorem responseStatus_le (st : Status) : (responseStatus st).toNat ≤ 4 := by
  cases st <;> decide

/-- Transactions that end in a response, its status one of R170's and its length the number of result bytes before it. -/
def EndsInCount (made : List PortEvent) : Prop :=
  ∃ before st n, made = before ++ [.rsp (responseStatus st), .rsp (responseLength n)] ∧
    before.countP PortEvent.isResult = n ∧ n < 2 ^ 32

@[simp] theorem PortEvent.isResult_rs (e : RsEvent) : (PortEvent.rs e).isResult = false := rfl

@[simp] theorem PortEvent.isResult_res (b : Byte) : (PortEvent.res b).isResult = true := rfl

@[simp] theorem countP_isResult_results (bs : List Byte) :
    (bs.map PortEvent.res).countP PortEvent.isResult = bs.length := by
  simp [List.countP_map, Function.comp_def]

@[simp] theorem countP_isResult_seeds (bs : List Byte) :
    (bs.map fun b => PortEvent.rs (.seed b)).countP PortEvent.isResult = 0 := by
  simp [List.countP_map, Function.comp_def]

/-- Each byte generation draws (R146) is one result byte. -/
@[simp] theorem countP_isResult_draws (bs : List Byte) :
    (bs.flatMap fun b => [PortEvent.rs (.test true), .rs (.sample b), .res b]).countP PortEvent.isResult = bs.length := by
  simp [List.countP_flatMap, Function.comp_def]

theorem endsInCount_response (st : Status) : EndsInCount [.rsp (responseStatus st), .rsp (responseLength 0)] :=
  ⟨[], st, 0, rfl, rfl, by decide⟩

theorem endsInCount_results (st : Status) {bs : List Byte} {n : Nat} (hn : bs.length = n) (h : n < 2 ^ 32) :
    EndsInCount (bs.map PortEvent.res ++ [.rsp (responseStatus st), .rsp (responseLength n)]) :=
  ⟨_, st, n, rfl, (countP_isResult_results bs).trans hn, h⟩

/-- Transactions that are no result bytes do not change the count. -/
theorem EndsInCount.append {before made : List PortEvent} (hb : before.countP PortEvent.isResult = 0)
    (h : EndsInCount made) : EndsInCount (before ++ made) := by
  obtain ⟨rest, st, n, rfl, hn, hlt⟩ := h
  exact ⟨before ++ rest, st, n, (List.append_assoc ..).symm, by rw [List.countP_append, hb, hn, Nat.zero_add], hlt⟩

/-- Seeding (R144) emits no result byte. -/
theorem seedBody_counts (S : Sampler) (opA opB : List Byte) (s : State) :
    ∃ made, EndsInCount made ∧ (seedBody S opA opB s).out = s.out ++ made := by
  refine ⟨_, ?_, (congrArg State.out (seedBody_eq S opA opB s)).trans (List.append_assoc ..)⟩
  exact .append (countP_isResult_seeds _) (.append (before := [_]) rfl (endsInCount_response _))

/-- Generation (R146) counts the bytes it draws, whether or not a test fails. -/
theorem generateBody_counts (S : Sampler) (lenB : Word) (opA : List Byte) (s : State) :
    ∃ made, EndsInCount made ∧ (generateBody S lenB opA s).out = s.out ++ made := by
  obtain ⟨bytes, made, hlen, hmade, h⟩ := generateLoop_spec S lenB.toNat 0 (s.fold opA)
  have hlt : bytes.length < 2 ^ 32 := Nat.lt_of_le_of_lt hlen lenB.isLt
  refine ⟨opA.map (fun b => PortEvent.rs (.seed b)) ++ made, .append (countP_isResult_seeds _) ?_, ?_⟩
  · rw [hmade]
    split
    next hall => exact ⟨_, .ok, _, rfl, by simpa using hall, by omega⟩
    next =>
      refine ⟨_ ++ [.rs (.test false)], .failGenerate, _, (List.append_assoc _ [_] _).symm, ?_, by omega⟩
      simp [List.countP_append]
  · rw [generateBody, h, State.fold_eq, List.append_assoc]

/-- A run that stays inside the image has as many bytes as are asked for. -/
theorem State.ctxBytes_length {s : State} {space : Space} {slot : BitVec 8} {off n : Nat}
    (h : off + n ≤ imageSize space) : (s.ctxBytes space slot off n).length = n := by
  rw [State.ctxBytes, List.length_take, List.length_drop, State.image_length]
  omega

/-- The body of a legal command answers with the number of result bytes it sends; that a `CTX_READ` run stays inside the image
makes it `LEN_B`. -/
theorem bodyOf_counts {i : Instr} {s : State} (opA opB : List Byte) (h : i.wellFormed s.nKs s.nSha = true) :
    ∃ made, EndsInCount made ∧ (bodyOf i opA opB s).out = s.out ++ made := by
  cases i with
  | aesEncBlock | aesDecBlock =>
    exact ⟨_, endsInCount_results .ok (Vector.length_toList ..) (by decide), List.append_assoc ..⟩
  | shaFinal => exact ⟨_, endsInCount_results .ok (HashSlot.digest_length ..) (by decide), List.append_assoc ..⟩
  | ctxRead p0 space slot lenA lenB =>
    have hrun : lenA.toNat + lenB.toNat ≤ imageSize space := of_decide_eq_true (Bool.and_eq_true_iff.mp h).2
    exact ⟨_, endsInCount_results .ok (State.ctxBytes_length hrun) lenB.isLt, List.append_assoc ..⟩
  | drbgInit | drbgReseed => exact seedBody_counts ..
  | drbgGenerate => exact generateBody_counts ..
  | ctxZero p0 space slot => cases space <;> exact ⟨_, endsInCount_response .ok, rfl⟩
  | _ => exact ⟨_, endsInCount_response .ok, rfl⟩

theorem EndsInResponse.isResponse_before {before : List PortEvent} {r0 r1 : Word}
    (h : EndsInResponse (before ++ [.rsp r0, .rsp r1])) : ∀ e ∈ before, e.isResponse = false := by
  obtain ⟨before', r0', r1', heq, h⟩ := h
  rwa [(List.append_inj' heq rfl).1]

/-- A command that does not wait answers with its count: an illegal or absent answer with none, a body with its own. -/
theorem exec_counts {i : Instr} {s t : State} (h : exec i s = .next t)
    (hbytes : i.wellFormed s.nKs s.nSha = true → operandBytes i ≤ s.opd.length) :
    ∃ made, EndsInCount made ∧ t.out = s.out ++ made := by
  obtain rfl := exec_next.mp h
  rcases runCommand_cases i (bodyOf i) s with ⟨-, e⟩ | ⟨hlegal, hn, -⟩ | ⟨-, -, -, e⟩ | ⟨hlegal, -, -, e⟩
  · exact ⟨_, endsInCount_response .illegal, by rw [e]; rfl⟩
  · exact absurd (hbytes hlegal) (Nat.not_le.mpr hn)
  · exact ⟨_, endsInCount_response .failAbsent, by rw [e]; rfl⟩
  · rw [e]
    exact bodyOf_counts (s := { s with opd := s.opd.drop (operandBytes i) }) _ _ hlegal

/-- Settles O17: `exec_counts` gives the status and the count, and `exec_ports_cases` that no other response word is sent. -/
theorem everyCommandSendsOneCountedResponse : Obligations.EveryCommandSendsOneCountedResponse := by
  intro i s hbytes
  have hrun := exec_eq_runCommand i s
  obtain ⟨made, ⟨before, st, n, rfl, hn, hlt⟩, hout⟩ := exec_counts hrun hbytes
  have hbefore : ∀ e ∈ before, e.isResponse = false := by
    rcases exec_ports_cases hrun with ⟨-, -, -, hsilent⟩ | ⟨-, made, hends, hout'⟩
    · simp [hout] at hsilent
    · rw [List.append_cancel_left (hout'.symm.trans hout)] at hends
      exact hends.isResponse_before
  refine ⟨_, before, _, _, hrun, hout.trans (List.append_assoc ..).symm, hbefore, responseStatus_le st, ?_⟩
  rw [hn, responseLength, BitVec.toNat_ofNat, Nat.mod_eq_of_lt hlt]

end Sys2Proof.Machine
end

section
/-! PROOF. The statements about the primitives (spec 40_primitives.md): GMUL as the product of a field, the substitution tables and
the round constants over it, the bits of the word functions, the byte orders and the SHA-256 constants. -/

namespace Sys2Proof.Machine

/-! ## Doubling (R72) -/

theorem xor_xor_xor_cancel (a b c : Byte) : a ^^^ c ^^^ (b ^^^ c) = a ^^^ b := by
  calc a ^^^ c ^^^ (b ^^^ c) = a ^^^ b ^^^ (c ^^^ c) := by ac_rfl
    _ = a ^^^ b := by simp

theorem xtime_xor (a b : Byte) : xtime (a ^^^ b) = xtime a ^^^ xtime b := by
  simp only [xtime, BitVec.msb_xor, BitVec.shiftLeft_xor_distrib]
  cases a.msb <;> cases b.msb
  case false.false => rfl
  case true.true => exact (xor_xor_xor_cancel ..).symm
  all_goals simp; ac_rfl

/-- Where the double has a ninth bit, the highest bit of 0x11B clears it, as the shift of a byte loses it. -/
theorem xtime_toNat (a : Byte) :
    (xtime a).toNat = if a.toNat < 128 then 2 * a.toNat else (2 * a.toNat) ^^^ 0x11B := by
  have hlt : a.toNat < 256 := a.isLt
  have hmsb : a.msb = decide (128 ≤ a.toNat) := BitVec.msb_eq_decide a
  have hshift : (a <<< 1).toNat = 2 * a.toNat % 2 ^ 8 := by
    rw [BitVec.toNat_shiftLeft, Nat.shiftLeft_eq, pow_one, Nat.mul_comm]
  rw [xtime, hmsb]
  by_cases h : a.toNat < 128
  · rw [if_neg (by simpa using h), if_pos h, hshift, Nat.mod_eq_of_lt (by omega)]
  · have hreduced : (2 * a.toNat ^^^ 0x11B) < 2 ^ 8 := by
      rw [← Nat.div_eq_zero_iff_lt (by decide), Nat.xor_div_two_pow, show 2 * a.toNat / 2 ^ 8 = 1 by omega]
      rfl
    rw [if_pos (by simpa using h), if_neg h, BitVec.toNat_xor, hshift]
    calc 2 * a.toNat % 2 ^ 8 ^^^ 0x1B = (2 * a.toNat ^^^ 0x11B) % 2 ^ 8 := (Nat.xor_mod_two_pow (b := 0x11B)).symm
      _ = 2 * a.toNat ^^^ 0x11B := Nat.mod_eq_of_lt hreduced

theorem xtime_eq_formula (a : Byte) :
    xtime a = if a.getLsbD 7 then ((a <<< 1) &&& 0xFF#8) ^^^ 0x1B#8 else (a <<< 1) &&& 0xFF#8 := by
  have hmask (x : Byte) : x &&& 0xFF#8 = x := BitVec.and_allOnes
  rw [hmask]
  rfl

/-- A byte is the double of its upper seven bits with its lowest bit added: Horner's rule, one bit at a time. -/
theorem xtime_ushiftRight_xor_lowBit (b : Byte) :
    xtime (b >>> 1) ^^^ (if b.getLsbD 0 then 1#8 else 0#8) = b := by
  have hmsb : (b >>> 1).msb = false := by simp [BitVec.msb_ushiftRight]
  ext i hi
  cases i with
  | zero => cases h : b.getLsbD 0 <;> simp_all [xtime]
  | succ i => cases b.getLsbD 0 <;> simp [xtime, hmsb, Nat.add_comm 1, BitVec.getElem_one, BitVec.getLsbD_eq_getElem hi]

/-- Every byte is made from 1 by doubling and exclusive-or, so what 1 has and these two keep, every byte has. -/
theorem byte_induction {P : Byte → Prop} (one : P 1#8) (double : ∀ b, P b → P (xtime b))
    (xor : ∀ a b, P a → P b → P (a ^^^ b)) (b : Byte) : P b := by
  have zero : P 0#8 := xor 1#8 1#8 one one
  by_cases hb : b = 0#8
  · exact hb ▸ zero
  · have upper : P (xtime (b >>> 1)) := double _ (byte_induction one double xor (b >>> 1))
    have lowBit : P (if b.getLsbD 0 then 1#8 else 0#8) := by
      split
      · exact one
      · exact zero
    exact xtime_ushiftRight_xor_lowBit b ▸ xor _ _ upper lowBit
termination_by b.toNat
decreasing_by
  have hpos : b.toNat ≠ 0 := fun h => hb (BitVec.eq_of_toNat_eq h)
  rw [BitVec.toNat_ushiftRight]
  omega

/-! ## The product (R73) -/

/-- The loop is linear in the operand it doubles, the running sum going along. -/
theorem gmulLoop_xor_left (n : Nat) (a a' b p p' : Byte) :
    gmulLoop n (a ^^^ a') b (p ^^^ p') = gmulLoop n a b p ^^^ gmulLoop n a' b p' := by
  induction n generalizing a a' b p p' with
  | zero => rfl
  | succ n ih =>
    simp only [gmulLoop, xtime_xor]
    split
    · rw [← ih]; congr 1; ac_rfl
    · exact ih ..

theorem gmulLoop_xor_right (n : Nat) (a b b' p p' : Byte) :
    gmulLoop n a (b ^^^ b') (p ^^^ p') = gmulLoop n a b p ^^^ gmulLoop n a b' p' := by
  induction n generalizing a b b' p p' with
  | zero => rfl
  | succ n ih =>
    simp only [gmulLoop, BitVec.ushiftRight_xor_distrib, BitVec.getLsbD_xor, ← ih]
    congr 1
    cases b.getLsbD 0 <;> cases b'.getLsbD 0
    case false.false => rfl
    case true.true => exact (xor_xor_xor_cancel ..).symm
    all_goals simp; ac_rfl

theorem gmulLoop_xtime_left (n : Nat) (a b p : Byte) : gmulLoop n (xtime a) b (xtime p) = xtime (gmulLoop n a b p) := by
  induction n generalizing a b p with
  | zero => rfl
  | succ n ih =>
    rw [gmulLoop, gmulLoop, ← ih, apply_ite xtime, xtime_xor]

@[simp] theorem gmulLoop_zero_right (n : Nat) (a p : Byte) : gmulLoop n a 0#8 p = p := by
  induction n generalizing a with
  | zero => rfl
  | succ n ih => exact ih _

/-- The loop is the sum, over the bits of its second operand, of the first doubled as often as the bit's number says. -/
theorem gmulLoop_eq_foldl (n : Nat) (a b p : Byte) :
    gmulLoop n a b p = (List.range n).foldl (fun p i => if b.getLsbD i then p ^^^ (xtime^[i]) a else p) p := by
  induction n generalizing a b p with
  | zero => rfl
  | succ n ih =>
    rw [gmulLoop, ih, List.range_succ_eq_map, List.foldl_cons, List.foldl_map]
    simp [Nat.add_comm 1]

theorem gmul_xor_left (a a' b : Byte) : gmul (a ^^^ a') b = gmul a b ^^^ gmul a' b :=
  gmulLoop_xor_left 8 a a' b 0#8 0#8

theorem gmul_xor_right (a b b' : Byte) : gmul a (b ^^^ b') = gmul a b ^^^ gmul a b' :=
  gmulLoop_xor_right 8 a b b' 0#8 0#8

theorem gmul_xtime_left (a b : Byte) : gmul (xtime a) b = xtime (gmul a b) :=
  gmulLoop_xtime_left 8 a b 0#8

@[simp] theorem gmul_zero (a : Byte) : gmul a 0#8 = 0#8 :=
  gmulLoop_zero_right 8 a 0#8

@[simp] theorem gmul_one (a : Byte) : gmul a 1#8 = a :=
  (gmulLoop_zero_right 7 (xtime a) (0#8 ^^^ a)).trans BitVec.zero_xor

/-- The bits of a byte weigh as the repeated doubles of 1: the one law of the product that is read off its values. -/
@[simp] theorem one_gmul : ∀ b : Byte, gmul 1#8 b = b := by
  decide

/-- Doubling the second operand doubles the product: so it does where the first is 1, and the product is linear in the first. -/
theorem gmul_xtime_right (a b : Byte) : gmul a (xtime b) = xtime (gmul a b) := by
  induction a using byte_induction with
  | one => simp
  | double a ih => rw [gmul_xtime_left, ih, gmul_xtime_left]
  | xor a a' ih ih' => rw [gmul_xor_left, ih, ih', ← xtime_xor, gmul_xor_left]

theorem gmul_comm (a b : Byte) : gmul a b = gmul b a := by
  induction b using byte_induction with
  | one => simp
  | double b ih => rw [gmul_xtime_right, ih, gmul_xtime_left]
  | xor b b' ih ih' => rw [gmul_xor_right, ih, ih', gmul_xor_left]

theorem gmul_assoc (a b c : Byte) : gmul (gmul a b) c = gmul a (gmul b c) := by
  induction c using byte_induction with
  | one => simp
  | double c ih => simp only [gmul_xtime_right, ih]
  | xor c c' ih ih' => simp only [gmul_xor_right, ih, ih']

/-- Settles O53: the product is linear in both operands, and `byte_induction` reaches every byte from 1. -/
theorem gmulIsTheFieldProduct : Obligations.GmulIsTheFieldProduct :=
  fun a b c => ⟨gmul_comm a b, gmul_xor_left a b c, gmul_one a, gmul_zero a, gmul_xtime_right a b⟩

theorem gmul_two (a : Byte) : gmul a 2#8 = xtime a :=
  (gmul_xtime_right a 1#8).trans (congrArg xtime (gmul_one a))

/-- Settles O52: 2 is the double of 1, and 3 is 2 with 1 added. -/
theorem xtimeIsReducedDoubling : Obligations.XtimeIsReducedDoubling := by
  refine ⟨fun a => ⟨xtime_toNat a, xtime_eq_formula a⟩, fun a b => ⟨gmul_comm a b, gmulLoop_eq_foldl 8 a b 0#8⟩,
    fun a => ⟨gmul_zero a, gmul_one a, gmul_two a, ?_⟩⟩
  calc gmul a 3#8 = gmul a (2#8 ^^^ 1#8) := rfl
    _ = xtime a ^^^ a := by rw [gmul_xor_right, gmul_two, gmul_one]

/-! ## The field inverse and the substitution tables (R74 to R76) -/

/-- An inverse is the only one, the product being associative and commutative. -/
theorem gmul_eq_one_unique {a x y : Byte} (hx : gmul a x = 1#8) (hy : gmul a y = 1#8) : x = y := by
  calc x = gmul x (gmul a y) := by rw [hy, gmul_one]
    _ = gmul (gmul a x) y := by rw [← gmul_assoc, gmul_comm x a]
    _ = y := by rw [hx, one_gmul]

/-- GINV finds the inverse of a byte that has one. -/
theorem gmul_ginv_of_gmul_eq_one {a x : Byte} (h : gmul a x = 1#8) : gmul a (ginv a) = 1#8 := by
  rw [ginv]
  cases hfound : (List.range 256).find? fun n => gmul a (BitVec.ofNat 8 n) == 1#8 with
  | none =>
    have hmiss := List.find?_eq_none.mp hfound x.toNat (List.mem_range.mpr x.isLt)
    simp [h] at hmiss
  | some n => simpa using List.find?_some hfound

theorem ginv_eq_of_gmul_eq_one {a x : Byte} (h : gmul a x = 1#8) : ginv a = x :=
  gmul_eq_one_unique (gmul_ginv_of_gmul_eq_one h) h

/-- No byte times 0 is 1, so the search of GINV ends without one. -/
@[simp] theorem ginv_zero : ginv 0#8 = 0#8 := by
  have hnone : (List.range 256).find? (fun n => gmul 0#8 (BitVec.ofNat 8 n) == 1#8) = none :=
    List.find?_eq_none.mpr fun n _ => by simp [gmul_comm 0#8]
  rw [ginv, hnone]
  rfl

/-- The affine map of R75, with its constant. -/
def sboxAffine (x : Byte) : Byte :=
  x ^^^ x.rotateLeft 1 ^^^ x.rotateLeft 2 ^^^ x.rotateLeft 3 ^^^ x.rotateLeft 4 ^^^ 0x63#8

theorem sboxFormula_eq_sboxAffine_ginv (a : Byte) : sboxFormula a = sboxAffine (ginv a) := rfl

/-- The map `sboxAffine` undone: the inverse of each byte, read back from the printed table. -/
def sboxAffineInv (y : Byte) : Byte :=
  y.rotateLeft 1 ^^^ y.rotateLeft 3 ^^^ y.rotateLeft 6 ^^^ 0x05#8

theorem sboxAffine_sboxAffineInv : ∀ y : Byte, sboxAffine (sboxAffineInv y) = y := by
  decide

/-- The printed table holds an inverse of every byte that is not 0, as a field asks. -/
theorem gmul_sboxAffineInv_sbox : ∀ a : Byte, a ≠ 0#8 → gmul a (sboxAffineInv (sbox a)) = 1#8 := by
  decide

theorem ginv_eq_sboxAffineInv_sbox (a : Byte) : ginv a = sboxAffineInv (sbox a) := by
  by_cases h : a = 0#8
  · subst h
    exact ginv_zero
  · exact ginv_eq_of_gmul_eq_one (gmul_sboxAffineInv_sbox a h)

theorem gmul_ginv {a : Byte} (h : a ≠ 0#8) : gmul a (ginv a) = 1#8 :=
  gmul_ginv_of_gmul_eq_one (gmul_sboxAffineInv_sbox a h)

theorem sbox_eq_sboxFormula (a : Byte) : sbox a = sboxFormula a := by
  rw [sboxFormula_eq_sboxAffine_ginv, ginv_eq_sboxAffineInv_sbox, sboxAffine_sboxAffineInv]

theorem sbox_ne_self : ∀ a : Byte, sbox a ≠ a := by
  decide

theorem invSbox_sbox : ∀ a : Byte, invSbox (sbox a) = a := by
  decide

theorem sbox_invSbox : ∀ a : Byte, sbox (invSbox a) = a := by
  decide

/-- Settles O54: the table is the formula's since it holds an inverse of every byte, and inverses are unique. -/
theorem substitutionTablesAreAsDefined : Obligations.SubstitutionTablesAreAsDefined :=
  fun a => ⟨sbox_eq_sboxFormula a, sbox_ne_self a, invSbox_sbox a, sbox_invSbox a, gmul_ginv⟩

/-! ## The round constants (R77) -/

theorem rcon_succ_succ (i : Nat) : rcon (i + 2) = xtime (rcon (i + 1)) := rfl

/-- Settles O55: the ten bytes by evaluation, the doubling by the definition of RCON. -/
theorem roundConstantsAreTheDoublings : Obligations.RoundConstantsAreTheDoublings :=
  ⟨by decide, rcon_succ_succ⟩

/-! ## The bits of words (R80 to R84) -/

/-- The two shifts of ROTR32 fill the result side by side: the bits from `n` up go down, the lower ones come in at the top. -/
theorem rotr32_getLsbD (x : Word) {n i : Nat} (hn : 0 < n) (hn' : n < 32) (hi : i < 32) :
    (rotr32 x n).getLsbD i = x.getLsbD ((i + n) % 32) := by
  rw [rotr32, BitVec.getLsbD_or, BitVec.getLsbD_ushiftRight, BitVec.getLsbD_shiftLeft, Nat.add_comm n i]
  by_cases h : i + n < 32
  · rw [Nat.mod_eq_of_lt h]
    simp [show i < 32 - n by omega]
  · rw [BitVec.getLsbD_of_ge x (i + n) (by omega), show (i + n) % 32 = i - (32 - n) by omega]
    simp [hi, show ¬ i < 32 - n by omega]

theorem shr32_getLsbD (x : Word) (n i : Nat) :
    (shr32 x n).getLsbD i = (decide (i + n < 32) && x.getLsbD ((i + n) % 32)) := by
  rw [shr32, BitVec.getLsbD_ushiftRight, Nat.add_comm n i]
  by_cases h : i + n < 32
  · simp [h, Nat.mod_eq_of_lt h]
  · simp [h, BitVec.getLsbD_of_ge x (i + n) (by omega)]

/-- Settles O56: the sigma functions are exclusive-ors of rotations and shifts, whose bits `rotr32_getLsbD` and `shr32_getLsbD`
give. -/
theorem rotationMovesEveryBit : Obligations.RotationMovesEveryBit := by
  refine ⟨fun x n hn hn' i => rotr32_getLsbD x hn hn' i.isLt, fun x i => ?_⟩
  have hrot (n : Nat) (hn : 0 < n) (hn' : n < 32) := rotr32_getLsbD x hn hn' i.isLt
  refine ⟨shr32_getLsbD .., shr32_getLsbD .., ?_, ?_, ?_, ?_⟩ <;>
    simp [bsig0, bsig1, ssig0, ssig1, hrot, shr32_getLsbD, -BitVec.getLsbD_eq_getElem]

theorem bmix_ch_getLsbD (a b c : Word) {i : Nat} (hi : i < 32) :
    (bmix a b c .ch).getLsbD i = if a.getLsbD i then b.getLsbD i else c.getLsbD i := by
  simp only [bmix, BitVec.getLsbD_xor, BitVec.getLsbD_and, BitVec.getLsbD_not, hi]
  cases a.getLsbD i <;> simp

theorem bmix_maj_getLsbD (a b c : Word) (i : Nat) :
    (bmix a b c .maj).getLsbD i = decide (2 ≤ (a.getLsbD i).toNat + (b.getLsbD i).toNat + (c.getLsbD i).toNat) := by
  simp only [bmix, BitVec.getLsbD_xor, BitVec.getLsbD_and]
  cases a.getLsbD i <;> cases b.getLsbD i <;> cases c.getLsbD i <;> rfl

/-- Settles O57: each mode by the truth table of its bit. -/
theorem mixingIsChoiceAndMajority : Obligations.MixingIsChoiceAndMajority :=
  fun a b c i => ⟨bmix_ch_getLsbD a b c i.isLt, bmix_maj_getLsbD a b c i.val⟩

/-! ## Byte order (R85 to R87) -/

theorem append_toNat {m n : Nat} (x : BitVec m) (y : BitVec n) : (x ++ y).toNat = x.toNat * 2 ^ n + y.toNat := by
  rw [BitVec.toNat_append, ← Nat.shiftLeft_add_eq_or_of_lt y.isLt, Nat.shiftLeft_eq]

theorem be32_toNat (b0 b1 b2 b3 : Byte) :
    (be32 b0 b1 b2 b3).toNat = b0.toNat * 2 ^ 24 + b1.toNat * 2 ^ 16 + b2.toNat * 2 ^ 8 + b3.toNat := by
  simp only [be32, append_toNat]
  omega

theorem toBe32_be32 (b0 b1 b2 b3 : Byte) : toBe32 (be32 b0 b1 b2 b3) = [b0, b1, b2, b3] := by
  simp [toBe32, be32, BitVec.extractLsb'_append_eq_ite, -Nat.reduceAdd]

/-- TOBE64 cuts the number into its eight digits to the base 256. -/
theorem toBe64_foldl (d : Dword) : (toBe64 d).foldl (fun n b => 256 * n + b.toNat) 0 = d.toNat := by
  have hd : d.toNat < 2 ^ 64 := d.isLt
  simp only [toBe64, List.foldl_cons, List.foldl_nil, BitVec.extractLsb'_toNat, Nat.shiftRight_eq_div_pow]
  omega

/-- Settles O58: a word is its bytes side by side, and a dword its digits to the base 256. -/
theorem endianConversionsAreBigEndian : Obligations.EndianConversionsAreBigEndian :=
  ⟨fun b0 b1 b2 b3 => ⟨be32_toNat b0 b1 b2 b3, toBe32_be32 b0 b1 b2 b3⟩, fun d => ⟨toBe64_foldl d, rfl⟩⟩

/-! ## The SHA-256 constants (R88, R89) -/

/-- The primes R88 and R89 count through: the first 64. -/
def firstPrimes : List Nat := [
  2, 3, 5, 7, 11, 13, 17, 19, 23, 29, 31, 37, 41, 43, 47, 53,
  59, 61, 67, 71, 73, 79, 83, 89, 97, 101, 103, 107, 109, 113, 127, 131,
  137, 139, 149, 151, 157, 163, 167, 173, 179, 181, 191, 193, 197, 199, 211, 223,
  227, 229, 233, 239, 241, 251, 257, 263, 269, 271, 277, 281, 283, 293, 307, 311]

/-- They are what trial division leaves of the numbers below 312. -/
theorem filter_trialDivision_eq_firstPrimes :
    (List.range 312).filter (fun p => 2 ≤ p && (List.range p).all fun d => d < 2 || p % d != 0) = firstPrimes := by
  decide +kernel

/-- `w` is the first 32 bits of the fraction of the `k`-th root of `p`, a root below 8: the whole number that the root's whole
part and `w` make side by side is the root of `p` times `2 ^ (32 * k)`, rounded down. -/
def IsRootFraction (k p : Nat) (w : Word) : Prop :=
  ∃ whole < 8, (whole * 2 ^ 32 + w.toNat) ^ k ≤ p * 2 ^ (32 * k) ∧ p * 2 ^ (32 * k) < (whole * 2 ^ 32 + w.toNat + 1) ^ k

theorem hInit_isRootFraction : ∀ t : Fin 8, IsRootFraction 2 (firstPrimes.getD t.val 0) hInit[t] := by
  unfold IsRootFraction
  decide

theorem k256_isRootFraction : ∀ t : Fin 64, IsRootFraction 3 (firstPrimes.getD t.val 0) (k256.getD t.val 0#32) := by
  unfold IsRootFraction
  decide

/-- Settles O59: the primes below 312 are `firstPrimes`, whose roots have the constants as their fractions. -/
theorem hashConstantsComeFromThePrimes : Obligations.HashConstantsComeFromThePrimes := by
  unfold Obligations.HashConstantsComeFromThePrimes
  rw [filter_trialDivision_eq_firstPrimes]
  exact ⟨rfl, rfl, hInit_isRootFraction, k256_isRootFraction⟩

end Sys2Proof.Machine
end

section
/-! PROOF. The statements about the AES engine (spec 41_aes.md): the algebra of its round functions, INVCIPHER undoing CIPHER
under any schedule, the schedules and transforms byte by byte, and the four commands. -/

namespace Sys2Proof.Machine

/-! ## MIXCOL and INVMIXCOL (R105, R106) -/

/-- Two columns with the same rows are the same. -/
theorem Col.ext_row {a b : Col} (h : ∀ r : Fin 4, a[r] = b[r]) : a = b :=
  Vector.ext fun j hj => h ⟨j, hj⟩

theorem xorCol_row (a b : Col) (r : Fin 4) : (xorCol a b)[r] = a[r] ^^^ b[r] :=
  xorCol_getElem a b r.val r.isLt

theorem mixCol_row (a : Col) (r : Fin 4) :
    (mixCol a)[r] = gmul a[r] 2#8 ^^^ gmul a[r + 1] 3#8 ^^^ a[r + 2] ^^^ a[r + 3] := by
  fin_cases r <;> simp [mixCol] <;> ac_rfl

theorem invMixCol_row (a : Col) (r : Fin 4) :
    (invMixCol a)[r] = gmul a[r] 14#8 ^^^ gmul a[r + 1] 11#8 ^^^ gmul a[r + 2] 13#8 ^^^ gmul a[r + 3] 9#8 := by
  fin_cases r <;> simp [invMixCol] <;> ac_rfl

/-- Row `r` of INVMIXCOL after MIXCOL, of a column with the bytes `x`, `y`, `z`, `w` from row `r` on: the product of the two
weights' polynomials is 1. -/
theorem invMix_mix_row (x y z w : Byte) :
    gmul (gmul x 2#8 ^^^ gmul y 3#8 ^^^ z ^^^ w) 14#8 ^^^ gmul (gmul y 2#8 ^^^ gmul z 3#8 ^^^ w ^^^ x) 11#8 ^^^
      gmul (gmul z 2#8 ^^^ gmul w 3#8 ^^^ x ^^^ y) 13#8 ^^^ gmul (gmul w 2#8 ^^^ gmul x 3#8 ^^^ y ^^^ z) 9#8 = x := by
  have weights :
      gmul 2#8 14#8 ^^^ 11#8 ^^^ 13#8 ^^^ gmul 3#8 9#8 = 1#8 ∧
      gmul 3#8 14#8 ^^^ gmul 2#8 11#8 ^^^ 13#8 ^^^ 9#8 = 0#8 ∧
      14#8 ^^^ gmul 3#8 11#8 ^^^ gmul 2#8 13#8 ^^^ 9#8 = 0#8 ∧
      14#8 ^^^ 11#8 ^^^ gmul 3#8 13#8 ^^^ gmul 2#8 9#8 = 0#8 := by decide
  obtain ⟨hx, hy, hz, hw⟩ := weights
  calc _ = gmul x (gmul 2#8 14#8 ^^^ 11#8 ^^^ 13#8 ^^^ gmul 3#8 9#8) ^^^
        gmul y (gmul 3#8 14#8 ^^^ gmul 2#8 11#8 ^^^ 13#8 ^^^ 9#8) ^^^
        gmul z (14#8 ^^^ gmul 3#8 11#8 ^^^ gmul 2#8 13#8 ^^^ 9#8) ^^^
        gmul w (14#8 ^^^ 11#8 ^^^ gmul 3#8 13#8 ^^^ gmul 2#8 9#8) := by
        simp only [gmul_xor_left, gmul_xor_right, gmul_assoc]; ac_rfl
    _ = x := by rw [hx, hy, hz, hw]; simp

theorem invMixCol_mixCol (a : Col) : invMixCol (mixCol a) = a := by
  refine Col.ext_row fun r => ?_
  have hrows : r + 1 + 1 = r + 2 ∧ r + 1 + 2 = r + 3 ∧ r + 1 + 3 = r ∧ r + 2 + 1 = r + 3 ∧ r + 2 + 2 = r ∧
      r + 2 + 3 = r + 1 ∧ r + 3 + 1 = r ∧ r + 3 + 2 = r + 1 ∧ r + 3 + 3 = r + 2 := by omega
  simp only [invMixCol_row, mixCol_row, hrows]
  exact invMix_mix_row ..

theorem mixCol_xorCol (a b : Col) : mixCol (xorCol a b) = xorCol (mixCol a) (mixCol b) := by
  refine Col.ext_row fun r => ?_
  simp only [xorCol_row, mixCol_row, gmul_xor_left]
  ac_rfl

theorem invMixCol_xorCol (a b : Col) : invMixCol (xorCol a b) = xorCol (invMixCol a) (invMixCol b) := by
  refine Col.ext_row fun r => ?_
  simp only [xorCol_row, invMixCol_row, gmul_xor_left]
  ac_rfl

/-- Settles O34: the rows of both maps, from which the inverse and the linearity follow row by row. -/
theorem invMixColUndoesMixColAndIsLinear : Obligations.InvMixColUndoesMixColAndIsLinear :=
  ⟨fun a r => ⟨mixCol_row a r, invMixCol_row a r⟩, fun s c => ⟨column_mixColumns s c, column_invMixColumns s c⟩,
    invMixCol_mixCol, invMixCol_xorCol, mixCol_xorCol⟩

/-! ## Byte substitution and row shift (R103, R104) -/

theorem invSubBytes_subBytes (s : Block) : invSubBytes (subBytes s) = s := by
  refine Vector.ext fun k hk => ?_
  rw [invSubBytes_getElem, subBytes_getElem, invSbox_sbox]

theorem subBytes_invSubBytes (s : Block) : subBytes (invSubBytes s) = s := by
  refine Vector.ext fun k hk => ?_
  rw [subBytes_getElem, invSubBytes_getElem, sbox_invSbox]

theorem invShiftRows_shiftRows (s : Block) : invShiftRows (shiftRows s) = s := by
  refine Vector.ext fun k hk => ?_
  rw [invShiftRows_getElem, shiftRows_getElem]
  congr 1
  omega

theorem shiftRows_invShiftRows (s : Block) : shiftRows (invShiftRows s) = s := by
  refine Vector.ext fun k hk => ?_
  rw [shiftRows_getElem, invShiftRows_getElem]
  congr 1
  omega

/-- The inverse steps commute: one moves the bytes, the other changes each where it is. -/
theorem invShiftRows_invSubBytes (s : Block) : invShiftRows (invSubBytes s) = invSubBytes (invShiftRows s) := by
  refine Vector.ext fun k hk => ?_
  simp only [invShiftRows_getElem, invSubBytes_getElem]

theorem shiftRows_toList (s : Block) :
    (shiftRows s).toList = ([0, 5, 10, 15, 4, 9, 14, 3, 8, 13, 2, 7, 12, 1, 6, 11] : List (Fin 16)).map (fun k => s[k]) :=
  Vector.toList_ofFn

theorem invShiftRows_toList (s : Block) :
    (invShiftRows s).toList =
      ([0, 13, 10, 7, 4, 1, 14, 11, 8, 5, 2, 15, 12, 9, 6, 3] : List (Fin 16)).map (fun k => s[k]) :=
  Vector.toList_ofFn

/-- Settles O35: the tables are inverse to each other, and so are the two index maps. -/
theorem substitutionAndRowShiftAreInvertible : Obligations.SubstitutionAndRowShiftAreInvertible :=
  ⟨fun s k => ⟨subBytes_getElem s k.val k.isLt, invSubBytes_getElem s k.val k.isLt⟩,
    fun s => ⟨shiftRows_toList s, invShiftRows_toList s⟩,
    fun s => ⟨invSubBytes_subBytes s, subBytes_invSubBytes s, invShiftRows_shiftRows s, shiftRows_invShiftRows s,
      invShiftRows_invSubBytes s⟩⟩

/-! ## The decrypt schedule (R102) -/

/-- A block is fixed by its columns. -/
theorem Block.ext_column {s t : Block} (h : ∀ c, column s c = column t c) : s = t := by
  rw [← ofColumns_column s, ← ofColumns_column t, funext h]

/-- Round keys 0 and 10 of a decrypt schedule are those of the schedule it is made from. -/
theorem schedRoundKey_decKey_outer (ks : KeySched) {i : Fin 11} (hi : i = 0 ∨ i = 10) :
    schedRoundKey (decKey ks) i = schedRoundKey ks i := by
  refine Vector.ext fun k hk => ?_
  rw [schedRoundKey_getElem, schedRoundKey_getElem, decKey_getElem, if_neg (by omega)]

/-- Round keys 1 to 9 of a decrypt schedule are put through INVMIXCOLUMNS. -/
theorem schedRoundKey_decKey_inner (ks : KeySched) {i : Fin 11} (h1 : 1 ≤ i.val) (h9 : i.val ≤ 9) :
    schedRoundKey (decKey ks) i = invMixColumns (schedRoundKey ks i) := by
  refine Vector.ext fun k hk => ?_
  have hword : schedWord ks ⟨(16 * i.val + k) / 4, by omega⟩ = column (schedRoundKey ks i) ⟨k / 4, by omega⟩ := by
    refine Vector.ext fun j hj => ?_
    rw [schedWord_getElem, column_getElem, schedRoundKey_getElem]
    congr 1
    dsimp only
    omega
  have hrow : (16 * i.val + k) % 4 = k % 4 := by omega
  rw [schedRoundKey_getElem, decKey_getElem, if_pos (by omega), invMixColumns, ofColumns_getElem, hword]
  simp only [hrow]

theorem isDecSchedule_decKey (ks : KeySched) : IsDecSchedule ks (decKey ks) := by
  refine ⟨schedRoundKey_decKey_outer ks (.inl rfl), schedRoundKey_decKey_outer ks (.inr rfl), fun i h1 h9 c => ?_⟩
  rw [schedRoundKey_decKey_inner ks h1 h9, column_invMixColumns]

/-! ## INVCIPHER undoes CIPHER (R108, R109, R114) -/

theorem column_addRk (s : Block) (ks : KeySched) (i : Fin 11) (c : Fin 4) :
    column (addRk s ks i) c = xorCol (column s c) (column (schedRoundKey ks i) c) := by
  refine Vector.ext fun j hj => ?_
  rw [xorCol_getElem, column_getElem, addRk_getElem, column_getElem, column_getElem]

/-- Adding the same round key twice is adding none. -/
theorem addRk_addRk_of_eq {ks dks : KeySched} {i : Fin 11} (h : schedRoundKey dks i = schedRoundKey ks i) (s : Block) :
    addRk (addRk s ks i) dks i = s := by
  refine Vector.ext fun k hk => ?_
  rw [addRk_getElem, addRk_getElem, h, BitVec.xor_assoc, BitVec.xor_self, BitVec.xor_zero]

/-- INVMIXCOLUMNS undoes MIXCOLUMNS through the round key, being linear, where the decrypt schedule holds the key's image. -/
theorem addRk_invMixColumns_encRound {ks dks : KeySched} {i : Fin 11}
    (h : schedRoundKey dks i = invMixColumns (schedRoundKey ks i)) (s : Block) :
    addRk (invMixColumns (encRound ks s i)) dks i = shiftRows (subBytes s) := by
  refine Block.ext_column fun c => ?_
  rw [column_addRk, column_invMixColumns, encRound, column_addRk, column_mixColumns, h, column_invMixColumns,
    invMixCol_xorCol, invMixCol_mixCol]
  refine Col.ext_row fun r => ?_
  rw [xorCol_row, xorCol_row, BitVec.xor_assoc, BitVec.xor_self, BitVec.xor_zero]

theorem invSteps_steps (s : Block) : invShiftRows (invSubBytes (shiftRows (subBytes s))) = s := by
  rw [invShiftRows_invSubBytes, invShiftRows_shiftRows, invSubBytes_subBytes]

/-- An inverse round undoes a full round, each between the forward steps before it and those after it. -/
theorem decRound_steps_encRound {ks dks : KeySched} {i : Fin 11}
    (h : schedRoundKey dks i = invMixColumns (schedRoundKey ks i)) (s : Block) :
    decRound dks (shiftRows (subBytes (encRound ks s i))) i = shiftRows (subBytes s) := by
  rw [decRound, invSteps_steps, addRk_invMixColumns_encRound h]

/-- Inverse rounds in the reverse order undo full rounds. -/
theorem foldl_decRound_foldl_encRound {ks dks : KeySched} (rounds : List (Fin 11))
    (h : ∀ i ∈ rounds, schedRoundKey dks i = invMixColumns (schedRoundKey ks i)) (s : Block) :
    rounds.reverse.foldl (decRound dks) (shiftRows (subBytes (rounds.foldl (encRound ks) s))) =
      shiftRows (subBytes s) := by
  induction rounds generalizing s with
  | nil => rfl
  | cons i rounds ih =>
    obtain ⟨hi, hrounds⟩ := List.forall_mem_cons.mp h
    simp only [List.reverse_cons, List.foldl_append, List.foldl_cons, List.foldl_nil, ih hrounds,
      decRound_steps_encRound hi]

/-- INVCIPHER under the decrypt schedule of any 176 bytes undoes CIPHER under those bytes. -/
theorem invCipher_cipher (p : Block) (ks : KeySched) : invCipher (cipher p ks) (decKey ks) = p := by
  have hfull : ∀ i ∈ ([1, 2, 3, 4, 5, 6, 7, 8, 9] : List (Fin 11)), 1 ≤ i.val ∧ i.val ≤ 9 := by decide
  have hinner (i) (hi : i ∈ ([1, 2, 3, 4, 5, 6, 7, 8, 9] : List (Fin 11))) :
      schedRoundKey (decKey ks) i = invMixColumns (schedRoundKey ks i) :=
    schedRoundKey_decKey_inner ks (hfull i hi).1 (hfull i hi).2
  have hreverse : ([9, 8, 7, 6, 5, 4, 3, 2, 1] : List (Fin 11)) = [1, 2, 3, 4, 5, 6, 7, 8, 9].reverse := rfl
  rw [invCipher, cipher, addRk_addRk_of_eq (schedRoundKey_decKey_outer ks (.inr rfl)), hreverse,
    foldl_decRound_foldl_encRound _ hinner, invSteps_steps, addRk_addRk_of_eq (schedRoundKey_decKey_outer ks (.inl rfl))]

/-- Settles O31: what `invCipher_cipher` says of any 176 bytes, of the encrypt schedule of the key. -/
theorem aesDecryptionInvertsEncryption : Obligations.AesDecryptionInvertsEncryption :=
  fun key p => invCipher_cipher p (keyExpand key)

/-- Settles O33: a map that another undoes is injective. -/
theorem cipherIsInjectiveUnderAnySchedule : Obligations.CipherIsInjectiveUnderAnySchedule := by
  intro ks p q h
  calc p = invCipher (cipher p ks) (decKey ks) := (invCipher_cipher p ks).symm
    _ = invCipher (cipher q ks) (decKey ks) := by rw [h]
    _ = q := invCipher_cipher q ks

/-! ## The encrypt schedule byte by byte (R101) -/

theorem keyTemp_bytes (prev : Block) (i : Nat) :
    (keyTemp prev i)[0] = sbox prev[13] ^^^ rcon i ∧ (keyTemp prev i)[1] = sbox prev[14] ∧
    (keyTemp prev i)[2] = sbox prev[15] ∧ (keyTemp prev i)[3] = sbox prev[12] := by
  simp [keyTemp, xorCol_getElem, subWord, rotWord, column_getElem]

theorem isEncSchedule_keyExpand (key : Block) : IsEncSchedule key (keyExpand key) := by
  refine ⟨schedRoundKey_keyExpand key 0, fun i => ?_⟩
  have hnew : schedRoundKey (keyExpand key) i.succ = nextRoundKey (schedRoundKey (keyExpand key) i.castSucc) (i.val + 1) := by
    rw [schedRoundKey_keyExpand, schedRoundKey_keyExpand]
    rfl
  generalize schedRoundKey (keyExpand key) i.castSucc = prev at hnew
  obtain ⟨h0, h1, h2, h3⟩ := keyTemp_bytes prev (i.val + 1)
  rw [hnew]
  refine ⟨?_, ?_, ?_, ?_, fun k => nextRoundKey_later prev (i.val + 1) k.val k.isLt⟩
  · rw [nextRoundKey_first _ _ _ (by decide), h0, BitVec.xor_assoc]
  · rw [nextRoundKey_first _ _ _ (by decide), h1]
  · rw [nextRoundKey_first _ _ _ (by decide), h2]
  · rw [nextRoundKey_first _ _ _ (by decide), h3]

/-! ## CIPHER and INVCIPHER byte by byte (R108, R109) -/

/-- Row `r` of column `c` of a block (R33). -/
theorem getElem_row_column (s : Block) (r c : Fin 4) : s[r.val + 4 * c.val] = (column s c)[r] := by
  simp only [Fin.getElem_fin, column_getElem, Nat.add_comm]

theorem column_shiftRows_subBytes_row (s : Block) (r c : Fin 4) :
    (column (shiftRows (subBytes s)) c)[r] = subShifted s r c := by
  have hindex : (4 * c.val + r.val) % 4 + 4 * (((4 * c.val + r.val) / 4 + (4 * c.val + r.val) % 4) % 4) =
      r.val + 4 * ((c.val + r.val) % 4) := by omega
  simp only [Fin.getElem_fin, column_getElem, shiftRows_getElem, subBytes_getElem, subShifted, hindex]

theorem column_invShiftRows_invSubBytes_row (s : Block) (r c : Fin 4) :
    (column (invShiftRows (invSubBytes s)) c)[r] = invSubShifted s r c := by
  have hindex : (4 * c.val + r.val) % 4 + 4 * (((4 * c.val + r.val) / 4 + 4 - (4 * c.val + r.val) % 4) % 4) =
      r.val + 4 * ((c.val + 4 - r.val) % 4) := by omega
  simp only [Fin.getElem_fin, column_getElem, invShiftRows_getElem, invSubBytes_getElem, invSubShifted, hindex]

theorem addRk_row (s : Block) (ks : KeySched) (i : Fin 11) (r c : Fin 4) :
    (addRk s ks i)[r.val + 4 * c.val] = (column s c)[r] ^^^ ks[16 * i.val + (r.val + 4 * c.val)] := by
  rw [addRk_getElem, schedRoundKey_getElem, getElem_row_column]

theorem encRound_row (ks : KeySched) (s : Block) (i : Fin 11) (r c : Fin 4) :
    (encRound ks s i)[r.val + 4 * c.val] =
      gmul (subShifted s r c) 2#8 ^^^ gmul (subShifted s (r + 1) c) 3#8 ^^^ subShifted s (r + 2) c ^^^
        subShifted s (r + 3) c ^^^ ks[16 * i.val + (r.val + 4 * c.val)] := by
  rw [encRound, addRk_row, column_mixColumns, mixCol_row]
  simp only [column_shiftRows_subBytes_row]

theorem decRound_row (dks : KeySched) (s : Block) (i : Fin 11) (r c : Fin 4) :
    (decRound dks s i)[r.val + 4 * c.val] =
      gmul (invSubShifted s r c) 14#8 ^^^ gmul (invSubShifted s (r + 1) c) 11#8 ^^^ gmul (invSubShifted s (r + 2) c) 13#8 ^^^
        gmul (invSubShifted s (r + 3) c) 9#8 ^^^ dks[16 * i.val + (r.val + 4 * c.val)] := by
  rw [decRound, addRk_row, column_invMixColumns, invMixCol_row]
  simp only [column_invShiftRows_invSubBytes_row]

/-- The state of CIPHER after round key `n` is added: after nine full rounds, the last one. -/
def cipherState (inp : Block) (ks : KeySched) : Nat → Block
  | 0 => addRk inp ks 0
  | n + 1 =>
    if n < 9 then encRound ks (cipherState inp ks n) (Fin.ofNat 11 (n + 1))
    else addRk (shiftRows (subBytes (cipherState inp ks n))) ks 10

theorem cipher_eq_cipherState (inp : Block) (ks : KeySched) : cipher inp ks = cipherState inp ks 10 := rfl

/-- The state of INVCIPHER after `n` rounds, in which it has come down from round key 10 to round key `10 - n`. -/
def invCipherState (inp : Block) (dks : KeySched) : Nat → Block
  | 0 => addRk inp dks 10
  | n + 1 =>
    if n < 9 then decRound dks (invCipherState inp dks n) (Fin.ofNat 11 (9 - n))
    else addRk (invShiftRows (invSubBytes (invCipherState inp dks n))) dks 0

theorem invCipher_eq_invCipherState (inp : Block) (dks : KeySched) : invCipher inp dks = invCipherState inp dks 10 := rfl

theorem isCipher_cipher (inp : Block) (ks : KeySched) : IsCipher inp ks (cipher inp ks) := by
  refine ⟨fun i => cipherState inp ks i.val, fun k => ?_, fun i r c => ?_, fun r c => ?_, cipher_eq_cipherState inp ks⟩
  · exact (addRk_getElem ..).trans (by simp [schedRoundKey_getElem])
  · have hkey : (Fin.ofNat 11 (i.val + 1)).val = i.val + 1 := Nat.mod_eq_of_lt (by omega)
    have hround : cipherState inp ks (i.val + 1) = encRound ks (cipherState inp ks i.val) (Fin.ofNat 11 (i.val + 1)) :=
      if_pos i.isLt
    simp only [Fin.val_castSucc, Fin.val_succ, hround, encRound_row, hkey]
  · exact (addRk_row ..).trans (by rw [column_shiftRows_subBytes_row]; rfl)

theorem isInvCipher_invCipher (inp : Block) (dks : KeySched) : IsInvCipher inp dks (invCipher inp dks) := by
  refine ⟨fun i => invCipherState inp dks (10 - i.val), fun k => ?_, fun i r c => ?_, fun r c => ?_,
    invCipher_eq_invCipherState inp dks⟩
  · exact (addRk_getElem ..).trans (by simp [schedRoundKey_getElem])
  · have hbefore : 10 - (i.val + 1 + 1) = 8 - i.val := by omega
    have hafter : 10 - (i.val + 1) = 8 - i.val + 1 := by omega
    have hkey : (Fin.ofNat 11 (9 - (8 - i.val))).val = i.val + 1 :=
      (Nat.mod_eq_of_lt (by omega)).trans (by omega)
    have hround : invCipherState inp dks (8 - i.val + 1) =
        decRound dks (invCipherState inp dks (8 - i.val)) (Fin.ofNat 11 (9 - (8 - i.val))) :=
      if_pos (by omega)
    simp only [Fin.val_castSucc, Fin.val_succ, hbefore, hafter, hround, decRound_row, hkey]
  · exact (addRk_row ..).trans (by rw [column_invShiftRows_invSubBytes_row]; simp)

/-! ## The four commands (R110 to R113) -/

/-- A legal command whose required operands are present, with its operand bytes offered, runs its body on them. -/
theorem exec_of_operands {i : Instr} {s : State} {opA opB rest : List Byte} (hlegal : i.wellFormed s.nKs s.nSha = true)
    (hp : requiredPresent i = true) (hA : opA.length = opALen i) (hB : opB.length = opBLen i)
    (hopd : s.opd = opA ++ opB ++ rest) : exec i s = .next (bodyOf i opA opB { s with opd := rest }) := by
  have hlen : operandBytes i = (opA ++ opB).length := by rw [operandBytes, ← hA, ← hB, List.length_append]
  rw [exec_next, runCommand_runs _ hlegal (by rw [hopd, hlen]; simp) hp, hlen, ← hA, ← hB, hopd, List.drop_left]
  simp

section
variable {i : Instr} {s : State} {slot : BitVec 8} {block : Block} {ks : KeySched} {rest : List Byte}

/-- A legal command whose only operand bytes are a block runs its body on the block. -/
theorem exec_of_block (hlegal : i.wellFormed s.nKs s.nSha = true) (hp : requiredPresent i = true) (hA : opALen i = 16)
    (hB : opBLen i = 0) (hopd : s.opd = block.toList ++ rest) :
    exec i s = .next (bodyOf i block.toList [] { s with opd := rest }) :=
  exec_of_operands hlegal hp (by simp [hA]) hB.symm (by simp [hopd])

theorem exec_aesSetEncKey (hslot : slot.toNat < s.nKs) (hopd : s.opd = block.toList ++ rest) :
    exec (.aesSetEncKey true true slot) s = .next
      { s with ks := s.ks.set slot.toNat (keyExpand block), opd := rest, out := s.out ++ [.rsp 0x1#32, .rsp 0#32] } := by
  rw [exec_of_block (i := .aesSetEncKey true true slot) (decide_eq_true hslot) rfl rfl rfl hopd]
  simp only [bodyOf, copyN_toList]
  rfl

theorem exec_aesSetDecKey (hslot : slot.toNat < s.nKs) (hopd : s.opd = block.toList ++ rest) :
    exec (.aesSetDecKey true true slot) s = .next
      { s with ks := s.ks.set slot.toNat (decKey (keyExpand block)), opd := rest,
               out := s.out ++ [.rsp 0x1#32, .rsp 0#32] } := by
  rw [exec_of_block (i := .aesSetDecKey true true slot) (decide_eq_true hslot) rfl rfl rfl hopd]
  simp only [bodyOf, copyN_toList]
  rfl

theorem exec_aesEncBlock (hslot : slot.toNat < s.nKs) (hks : s.readKs slot = ks) (hopd : s.opd = block.toList ++ rest) :
    exec (.aesEncBlock true true true slot) s = .next
      { s with opd := rest,
               out := s.out ++ (cipher block ks).toList.map PortEvent.res ++ [.rsp 0x1#32, .rsp 16#32] } := by
  subst hks
  rw [exec_of_block (i := .aesEncBlock true true true slot) (decide_eq_true hslot) rfl rfl rfl hopd]
  simp only [bodyOf, copyN_toList]
  rfl

theorem exec_aesDecBlock (hslot : slot.toNat < s.nKs) (hks : s.readKs slot = ks) (hopd : s.opd = block.toList ++ rest) :
    exec (.aesDecBlock true true true slot) s = .next
      { s with opd := rest,
               out := s.out ++ (invCipher block ks).toList.map PortEvent.res ++ [.rsp 0x1#32, .rsp 16#32] } := by
  subst hks
  rw [exec_of_block (i := .aesDecBlock true true true slot) (decide_eq_true hslot) rfl rfl rfl hopd]
  simp only [bodyOf, copyN_toList]
  rfl

end

/-- Settles O27: the schedule written is KEYEXPAND's, which is R101's. -/
theorem aesSetEncKeyWritesTheSchedule : Obligations.AesSetEncKeyWritesTheSchedule :=
  fun _ _ key _ hslot hopd => ⟨keyExpand key, isEncSchedule_keyExpand key, exec_aesSetEncKey hslot hopd⟩

/-- Settles O28: the schedule written is DECKEY's of KEYEXPAND's, which is R102's. -/
theorem aesSetDecKeyWritesTheSchedule : Obligations.AesSetDecKeyWritesTheSchedule :=
  fun _ _ key _ hslot hopd => ⟨keyExpand key, decKey (keyExpand key), isEncSchedule_keyExpand key,
    isDecSchedule_decKey _, exec_aesSetDecKey hslot hopd⟩

/-- Settles O29: CIPHER is R108's state by state, and the example by evaluation. -/
theorem aesEncBlockEmitsTheCipher : Obligations.AesEncBlockEmitsTheCipher :=
  ⟨fun _ _ inp _ hslot hopd => ⟨isCipher_cipher inp _, exec_aesEncBlock hslot rfl hopd⟩, by decide +kernel⟩

/-- Settles O30: INVCIPHER is R109's state by state, and its example is that of CIPHER turned round. -/
theorem aesDecBlockEmitsTheInverseCipher : Obligations.AesDecBlockEmitsTheInverseCipher :=
  ⟨fun _ _ inp _ hslot hopd => ⟨isInvCipher_invCipher inp _, exec_aesDecBlock hslot rfl hopd⟩,
    aesEncBlockEmitsTheCipher.2 ▸ invCipher_cipher ..⟩

/-! ## The round trip as commands (R114) -/

theorem runCommands_cons {i : Instr} {s t : State} (h : exec i s = .next t) (rest : List Instr) :
    runCommands (i :: rest) s = runCommands rest t := by
  rw [runCommands, h]

/-- Where two slots are given the schedules of a key and a block is encrypted with the first, the second holds the decrypt
schedule after it. -/
theorem runCommands_setKeys_encBlock {s : State} {e d : BitVec 8} {key p : Block} (hne : e ≠ d) (he : e.toNat < s.nKs)
    (hd : d.toNat < s.nKs) (hopd : s.opd = key.toList ++ key.toList ++ p.toList) :
    ∃ t, runCommands [.aesSetEncKey true true e, .aesSetDecKey true true d, .aesEncBlock true true true e] s = .next t ∧
      t.nKs = s.nKs ∧ t.readKs d = decKey (keyExpand key) ∧
      t.out = s.out ++ [.rsp 0x1#32, .rsp 0#32, .rsp 0x1#32, .rsp 0#32] ++
        (cipher p (keyExpand key)).toList.map PortEvent.res ++ [.rsp 0x1#32, .rsp 16#32] := by
  have hcountE : (s.writeKs e (keyExpand key)).nKs = s.nKs := State.nKs_writeKs ..
  have hcount : ((s.writeKs e (keyExpand key)).writeKs d (decKey (keyExpand key))).nKs = s.nKs := by
    rw [State.nKs_writeKs, hcountE]
  have hreadE : ((s.writeKs e (keyExpand key)).writeKs d (decKey (keyExpand key))).readKs e = keyExpand key := by
    rw [State.readKs_writeKs_other _ _ _ _ hne, State.readKs_writeKs_same _ _ _ he]
  have hreadD := State.readKs_writeKs_same (s.writeKs e (keyExpand key)) d (decKey (keyExpand key)) (hcountE ▸ hd)
  refine ⟨_, .trans (runCommands_cons (exec_aesSetEncKey he (hopd.trans (List.append_assoc ..))) _)
    (.trans (runCommands_cons (exec_aesSetDecKey (hcountE ▸ hd) rfl) _)
      (runCommands_cons (exec_aesEncBlock (hcount ▸ he) (by exact hreadE) (List.append_nil _).symm) [])), hcount, hreadD, ?_⟩
  rw [List.append_assoc s.out]
  rfl

/-- Settles O32: the second slot holds the decrypt schedule of the key, under which INVCIPHER undoes CIPHER. -/
theorem aesRoundTripOfCommands : Obligations.AesRoundTripOfCommands := by
  intro s e d key p hne he hd hopd
  obtain ⟨t, hrun, hcount, hread, hout⟩ := runCommands_setKeys_encBlock hne he hd hopd
  refine ⟨t, (cipher p (keyExpand key)).toList, hrun, Vector.length_toList, hout, ?_⟩
  have hdec := exec_aesDecBlock (s := { t with opd := (cipher p (keyExpand key)).toList }) (hcount ▸ hd) hread
    (List.append_nil _).symm
  rw [invCipher_cipher] at hdec
  exact hdec

end Sys2Proof.Machine
end

section
/-! PROOF. The statements about the SHA-256 engine (spec 42_sha256.md): the compression function against R120 to R122, the three
commands, the padding of `SHA_FINAL` against R127, and the streamed hash against SHA-256 of the whole message. -/

namespace Sys2Proof.Machine

/-! ## The message schedule (R121) -/

/-- Extending a message schedule puts words behind those it has. -/
theorem extendSchedule_eq_append (n : Nat) (ws : List Word) : ∃ later, extendSchedule n ws = ws ++ later := by
  induction n generalizing ws with
  | zero => exact ⟨[], (List.append_nil ws).symm⟩
  | succ n ih =>
    obtain ⟨later, hlater⟩ := ih (ws ++ [nextScheduleWord ws])
    exact ⟨[nextScheduleWord ws] ++ later, by rw [extendSchedule, hlater, List.append_assoc]⟩

theorem extendSchedule_length (n : Nat) (ws : List Word) : (extendSchedule n ws).length = ws.length + n := by
  induction n generalizing ws with
  | zero => rfl
  | succ n ih =>
    rw [extendSchedule, ih, List.length_append, List.length_singleton]
    omega

/-- Every word put behind the first ones is made from those before it. -/
theorem extendSchedule_getD (n : Nat) (ws : List Word) {t : Nat} (hlo : ws.length ≤ t) (hhi : t < ws.length + n) :
    (extendSchedule n ws).getD t 0#32 = nextScheduleWord ((extendSchedule n ws).take t) := by
  induction n generalizing ws with
  | zero => omega
  | succ n ih =>
    rw [extendSchedule]
    rcases Nat.eq_or_lt_of_le hlo with rfl | hlt
    · obtain ⟨later, hlater⟩ := extendSchedule_eq_append n (ws ++ [nextScheduleWord ws])
      rw [hlater, List.append_assoc, List.take_left]
      simp
    · refine ih _ ?_ ?_ <;> rw [List.length_append, List.length_singleton] <;> omega

theorem schedule_length (B : HashBlock) : (schedule B).length = 64 := by
  simp [schedule, extendSchedule_length, blockWords]

/-- The first sixteen words of the schedule are the block's. -/
theorem schedule_getD_block (B : HashBlock) (t : Fin 16) :
    (schedule B).getD t.val 0#32 =
      be32 (B[4 * t.val]) (B[4 * t.val + 1]) (B[4 * t.val + 2]) (B[4 * t.val + 3]) := by
  obtain ⟨later, hlater⟩ := extendSchedule_eq_append 48 (blockWords B)
  have ht : t.val < (blockWords B).length := by simp [blockWords]
  rw [schedule, hlater, List.getD_append _ _ _ _ ht, List.getD_eq_getElem _ _ ht]
  exact List.getElem_ofFn ..

/-- Each further word of the schedule, from the words 2, 7, 15 and 16 before it. -/
theorem schedule_getD_derived (B : HashBlock) (t : Fin 48) :
    (schedule B).getD (t.val + 16) 0#32 =
      ssig1 ((schedule B).getD (t.val + 14) 0#32) + (schedule B).getD (t.val + 9) 0#32 +
        ssig0 ((schedule B).getD (t.val + 1) 0#32) + (schedule B).getD t.val 0#32 := by
  have hlen : ((schedule B).take (t.val + 16)).length = t.val + 16 := by
    rw [List.length_take, schedule_length]
    omega
  have hbefore : ∀ k < t.val + 16, ((schedule B).take (t.val + 16)).getD k 0#32 = (schedule B).getD k 0#32 := by
    intro k hk
    simp [List.getD, List.getElem?_take_of_lt hk]
  have hblock : (blockWords B).length = 16 := by simp [blockWords]
  have hnext := extendSchedule_getD 48 (blockWords B) (t := t.val + 16) (by omega) (by omega)
  rw [← schedule] at hnext
  rw [hnext, nextScheduleWord, hlen, hbefore _ (by omega), hbefore _ (by omega), hbefore _ (by omega),
    hbefore _ (by omega)]
  rfl

/-! ## The rounds (R120, R122) -/

/-- The working variables of COMPRESS after `t` rounds. -/
def workAfter (h : HashWords) (B : HashBlock) (t : Nat) : Work :=
  ((List.zip k256 (schedule B)).take t).foldl (fun v kw => shaRound v kw.1 kw.2) (Work.ofHash h)

theorem workAfter_zero_words (h : HashWords) (B : HashBlock) : (workAfter h B 0).words = h := by
  ext i hi
  interval_cases i <;> rfl

/-- One round more takes the round's constant and the round's schedule word. -/
theorem workAfter_succ (h : HashWords) (B : HashBlock) {t : Nat} (ht : t < 64) :
    workAfter h B (t + 1) = shaRound (workAfter h B t) (k256.getD t 0#32) ((schedule B).getD t 0#32) := by
  have hk : t < k256.length := ht
  have hw : t < (schedule B).length := by rwa [schedule_length]
  rw [workAfter, List.take_add_one, List.getElem?_eq_getElem (by rw [List.length_zip]; omega), List.foldl_append,
    List.getElem_zip, List.getD_eq_getElem _ _ hk, List.getD_eq_getElem _ _ hw]
  rfl

/-- COMPRESS adds the working variables after all 64 rounds to the running hash. -/
theorem compress_eq_workAfter (h : HashWords) (B : HashBlock) :
    compress h B = Vector.zipWith (· + ·) h (workAfter h B 64).words := by
  have hall : (List.zip k256 (schedule B)).take 64 = List.zip k256 (schedule B) :=
    List.take_of_length_le (by rw [List.length_zip, schedule_length]; omega)
  rw [workAfter, hall]
  rfl

theorem isCompress_compress (h : HashWords) (B : HashBlock) : IsCompress h B (compress h B) := by
  refine ⟨fun t => (schedule B).getD t.val 0#32, fun t => (workAfter h B t.val).words, schedule_getD_block B,
    schedule_getD_derived B, workAfter_zero_words h B, fun t => ?_, fun i => ?_⟩
  · exact congrArg Work.words (workAfter_succ h B t.isLt)
  · rw [compress_eq_workAfter]
    exact Vector.getElem_zipWith ..

/-! ## The three commands (R124 to R126) -/

section
variable {s : State} {slot : BitVec 8} {lenA : Word} {c : HashSlot} {data rest : List Byte}

theorem exec_shaInit (hslot : slot.toNat < s.nSha) :
    exec (.shaInit true slot) s = .next
      { s with sha := s.sha.set slot.toNat HashSlot.initial, out := s.out ++ [.rsp 0x1#32, .rsp 0#32] } :=
  exec_of_operands (i := .shaInit true slot) (opA := []) (opB := []) (rest := s.opd) (decide_eq_true hslot) rfl rfl rfl rfl

theorem exec_shaUpdate (hslot : slot.toNat < s.nSha) (hopd : s.opd = data ++ rest) (hlen : data.length = lenA.toNat) :
    exec (.shaUpdate true true slot lenA) s = .next
      { s with sha := s.sha.set slot.toNat ((s.readSha slot).update data), opd := rest,
               out := s.out ++ [.rsp 0x1#32, .rsp 0#32] } :=
  exec_of_operands (i := .shaUpdate true true slot lenA) (opB := []) (rest := rest) (decide_eq_true hslot) rfl hlen rfl
    (by rw [hopd, List.append_nil])

theorem exec_shaFinal (hslot : slot.toNat < s.nSha) (hread : s.readSha slot = c) :
    exec (.shaFinal true true slot) s = .next
      { s with sha := s.sha.set slot.toNat HashSlot.zero,
               out := s.out ++ c.digest.map PortEvent.res ++ [.rsp 0x1#32, .rsp 32#32] } := by
  subst hread
  exact exec_of_operands (i := .shaFinal true true slot) (opA := []) (opB := []) (rest := s.opd) (decide_eq_true hslot)
    rfl rfl rfl rfl

/-- A `SHA_UPDATE` whose length word is the length of the data offered. -/
theorem exec_shaUpdate_ofNat (hslot : slot.toNat < s.nSha) (hopd : s.opd = data ++ rest) (hlen : data.length < 2 ^ 32) :
    exec (.shaUpdate true true slot (BitVec.ofNat 32 data.length)) s = .next
      { s with sha := s.sha.set slot.toNat ((s.readSha slot).update data), opd := rest,
               out := s.out ++ [.rsp 0x1#32, .rsp 0#32] } :=
  exec_shaUpdate hslot hopd (by rw [BitVec.toNat_ofNat, Nat.mod_eq_of_lt hlen])

end

/-- Settles O36: the slot written is the initial one. -/
theorem shaInitLoadsTheInitialHash : Obligations.ShaInitLoadsTheInitialHash :=
  fun _ _ hslot => exec_shaInit hslot

/-- Settles O37: the slot written is the old one with the data absorbed, and COMPRESS is R120's round by round. -/
theorem shaUpdateAbsorbsItsData : Obligations.ShaUpdateAbsorbsItsData := by
  refine ⟨fun _ _ _ _ _ hslot hopd hlen => exec_shaUpdate hslot hopd hlen, fun c b hoff => ?_, fun c b hoff => ?_,
    isCompress_compress⟩
  · have hput : c.putByte c.off b = c.buf.set 63 b := by simp only [HashSlot.putByte, hoff]
    rw [c.absorb_full b (BitVec.eq_of_toNat_eq hoff), hput]
  · have hne : c.off ≠ 63#6 := fun h => by rw [h] at hoff; exact absurd hoff (by decide)
    have hnext : (c.absorb b).off.toNat = c.off.toNat + 1 := by rw [c.absorb_off, Nat.mod_eq_of_lt (by omega)]
    refine ⟨?_, ?_, hnext, ?_⟩ <;> rw [c.absorb_more b hne]
    rfl

/-- Settles O39: the slot written is the zero one. -/
theorem shaFinalEmitsTheDigestAndWipes : Obligations.ShaFinalEmitsTheDigestAndWipes :=
  fun _ _ hslot => exec_shaFinal hslot rfl

/-! ## Updates one after another (R128) -/

theorem State.readSha_of_sha_eq_set {s t : State} {slot : BitVec 8} {v : HashSlot} (hslot : slot.toNat < s.nSha)
    (h : t.sha = s.sha.set slot.toNat v) : t.readSha slot = v :=
  (State.readSha_congr (s := s.writeSha slot v) slot h).trans (s.readSha_writeSha_same slot v hslot)

/-- The updates of a list of chunks absorb their concatenation, with one response each. -/
theorem runCommands_updates {s : State} {slot : BitVec 8} {h : HashSlot} {rest : List Byte} {chunks : List (List Byte)}
    (hslot : slot.toNat < s.nSha) (hread : s.readSha slot = h) (hchunks : ∀ c ∈ chunks, c.length < 2 ^ 32)
    (hopd : s.opd = chunks.flatten ++ rest) (later : List Instr) :
    runCommands (chunks.map (fun c => .shaUpdate true true slot (BitVec.ofNat 32 c.length)) ++ later) s =
      runCommands later
        { s with sha := s.sha.set slot.toNat (h.update chunks.flatten), opd := rest,
                 out := s.out ++ (List.replicate chunks.length [.rsp 0x1#32, .rsp 0#32]).flatten } := by
  induction chunks generalizing s h with
  | nil =>
    have hsame : s.sha.set slot.toNat h = s.sha := by rw [← hread]; exact congrArg State.sha (s.writeSha_readSha slot)
    have hrest : s.opd = rest := hopd
    simp [hsame, ← hrest]
  | cons c chunks ih =>
    subst hread
    rw [List.map_cons, List.cons_append,
      runCommands_cons (exec_shaUpdate_ofNat hslot (hopd.trans (List.append_assoc ..)) (hchunks c List.mem_cons_self)),
      ih (by simpa [State.nSha] using hslot) (State.readSha_of_sha_eq_set hslot rfl)
        (fun d hd => hchunks d (List.mem_cons_of_mem c hd)) rfl]
    simp [HashSlot.update_append, List.replicate_succ]

/-- Settles O38: both absorb the same bytes. -/
theorem shaUpdateMayBeSplit : Obligations.ShaUpdateMayBeSplit := by
  intro s slot a b rest hslot hopd hlen
  have hab : a.length < 2 ^ 32 ∧ b.length < 2 ^ 32 := by rw [List.length_append] at hlen; omega
  have hsplit := runCommands_updates (chunks := [a, b]) hslot rfl (by simpa using hab) (by simpa using hopd) []
  exact ⟨_, _, exec_shaUpdate_ofNat hslot hopd hlen, hsplit, by simp, rfl, rfl, rfl⟩

/-! ## The wiped slot (R126, R160) -/

theorem HashSlot.image_zero : HashSlot.zero.image = List.replicate 105 0#8 := rfl

/-- `CTX_READ` (R160) of the whole image of a hash slot that holds zeros. -/
theorem exec_ctxRead_of_zero {s : State} {slot : BitVec 8} (hslot : slot.toNat < s.nSha)
    (hread : s.readSha slot = HashSlot.zero) :
    exec (.ctxRead true .hash slot 0#32 105#32) s = .next
      { s with out := s.out ++ List.replicate 105 (PortEvent.res 0#8) ++ [.rsp 0x1#32, .rsp 105#32] } := by
  rw [exec_ctxRead (by simp [paramLegal, slotCount, imageSize, hslot]), State.ctxBytes, State.image, hread,
    HashSlot.image_zero]
  rfl

/-- Settles O43: the slot read is the zero one. -/
theorem finalisedSlotReadsAsZero : Obligations.FinalisedSlotReadsAsZero := by
  intro s slot hslot
  have hfinal := exec_shaFinal hslot rfl
  exact ⟨_, hfinal, exec_ctxRead_of_zero (exec_nSha hfinal ▸ hslot) (State.readSha_of_sha_eq_set hslot rfl)⟩

/-! ## The padding (R126, R127) -/

theorem HashSlot.padded_of_le (c : HashSlot) (h : c.off.toNat ≤ 55) :
    c.padded = (c.h, zeroRange (c.putByte c.off 0x80#8) (c.off.toNat + 1) 56) := by
  rw [HashSlot.padded]
  exact if_neg (by omega)

theorem HashSlot.padded_of_ge (c : HashSlot) (h : 56 ≤ c.off.toNat) :
    c.padded = (compress c.h (zeroRange (c.putByte c.off 0x80#8) (c.off.toNat + 1) 64),
      zeroRange (zeroRange (c.putByte c.off 0x80#8) (c.off.toNat + 1) 64) 0 56) := by
  rw [HashSlot.padded]
  exact if_pos (by omega)

/-- The bytes of a buffer with a length written into it, the eight bytes of the length given as a vector. -/
theorem putLength_getElem_of_toList (buf : HashBlock) {bits : Dword} {len : Vector Byte 8} (hlen : len.toList = toBe64 bits)
    (k : Fin 64) :
    (putLength buf bits)[k] = if h : k.val < 56 then buf[k] else len[k.val - 56]'(by have := k.isLt; omega) := by
  have hk := k.isLt
  refine (putLength_getElem buf bits k.val hk).trans ?_
  split_ifs with h h' h'
  · omega
  · rw [← hlen, List.getD_eq_getElem _ _ (by rw [Vector.length_toList]; omega), Vector.getElem_toList]
  · rfl
  · omega

/-- The pending bytes, the byte put behind them, and zeros up to `hi`. -/
theorem HashSlot.zeroRange_putByte_getElem (c : HashSlot) (b : Byte) (hi : Nat) (k : Fin 64) (hk : k.val < hi) :
    (zeroRange (c.putByte c.off b) (c.off.toNat + 1) hi)[k] =
      if k.val < c.off.toNat then c.buf[k] else if k.val = c.off.toNat then b else 0#8 := by
  refine (zeroRange_getElem _ _ _ k.val k.isLt).trans ?_
  rw [HashSlot.putByte_getElem]
  rcases Nat.lt_trichotomy k.val c.off.toNat with h | h | h
  · rw [if_neg (by omega), if_neg (by omega), if_pos h]
    rfl
  · rw [if_neg (by omega), if_pos h.symm, if_neg (by omega), if_pos h]
  · rw [if_pos (by omega), if_neg (by omega), if_neg (by omega)]

/-- Settles O40: the two forms of the padded buffer, byte by byte. -/
theorem shaFinalPadsAsTheStandardDoes : Obligations.ShaFinalPadsAsTheStandardDoes := by
  intro c
  have hlen : (⟨(toBe64 c.totalBits).toArray, rfl⟩ : Vector Byte 8).toList = toBe64 c.totalBits := rfl
  rw [← c.totalBits_eq]
  refine ⟨_, hlen, fun hoff => ?_, fun hoff => ?_⟩
  · refine ⟨_, by rw [HashSlot.finalWords, c.padded_of_le hoff], fun k => ?_⟩
    rw [putLength_getElem_of_toList _ hlen]
    by_cases hk : k.val < 56
    · simp only [hk, dite_true]
      exact c.zeroRange_putByte_getElem _ _ _ hk
    · rw [dif_neg hk, if_neg (by omega), if_neg (by omega), dif_neg hk]
  · refine ⟨_, _, by rw [HashSlot.finalWords, c.padded_of_ge hoff], fun k => ?_, fun k => ?_⟩
    · exact c.zeroRange_putByte_getElem _ _ _ k.isLt
    · rw [putLength_getElem_of_toList _ hlen]
      split_ifs with hk
      · exact (zeroRange_getElem _ _ _ k.val k.isLt).trans (if_pos ⟨Nat.zero_le _, hk⟩)
      · rfl

/-- Settles O44, by evaluation. -/
theorem requiredDigests : Obligations.RequiredDigests := by
  unfold Obligations.RequiredDigests
  decide +kernel

/-! ## The streamed hash (R128) -/

theorem zeroRange_toList (buf : HashBlock) {lo hi : Nat} (hle : lo ≤ hi) (hhi : hi ≤ 64) :
    (zeroRange buf lo hi).toList = buf.toList.take lo ++ List.replicate (hi - lo) 0#8 ++ buf.toList.drop hi := by
  refine List.ext_getElem (by simp; omega) fun k hk _ => ?_
  rw [Vector.length_toList] at hk
  rw [Vector.getElem_toList, zeroRange_getElem _ _ _ _ hk]
  have hlen : (buf.toList.take lo ++ List.replicate (hi - lo) 0#8).length = hi := by simp; omega
  rcases Nat.lt_or_ge k hi with hkhi | hkhi
  · rw [List.getElem_append_left (by omega)]
    rcases Nat.lt_or_ge k lo with hklo | hklo
    · rw [if_neg (by omega), List.getElem_append_left (by simp; omega), List.getElem_take, Vector.getElem_toList]
    · rw [if_pos ⟨hklo, hkhi⟩, List.getElem_append_right (by simp; omega), List.getElem_replicate]
  · rw [if_neg (by omega), List.getElem_append_right (by omega), List.getElem_drop, Vector.getElem_toList]
    simp only [hlen, Nat.add_sub_cancel' hkhi]

theorem putLength_toList (buf : HashBlock) (bits : Dword) :
    (putLength buf bits).toList = buf.toList.take 56 ++ toBe64 bits := by
  refine List.ext_getElem (by simp) fun k hk _ => ?_
  rw [Vector.length_toList] at hk
  rw [Vector.getElem_toList, putLength_getElem _ _ _ hk]
  rcases Nat.lt_or_ge k 56 with h | h
  · rw [if_neg (by omega), List.getElem_append_left (by simpa using h)]
    simp
  · rw [if_pos h, List.getElem_append_right (by simpa using h), List.getD_eq_getElem _ _ (by rw [toBe64_length]; omega)]
    simp

/-- What R127 has `SHA_FINAL` compress: the pending bytes, 0x80, zeros to 8 bytes short of a whole block, and the length. -/
def HashSlot.paddedTail (c : HashSlot) : List Byte :=
  c.buf.toList.take c.off.toNat ++ [0x80#8] ++ List.replicate ((119 - c.off.toNat) % 64) 0#8 ++ toBe64 c.totalBits

/-- Compressions of the blocks of two parts, one part after the other. -/
theorem hashBlocks_add (m n : Nat) (h : HashWords) (bs : List Byte) :
    hashBlocks (m + n) h bs = hashBlocks n (hashBlocks m h bs) (bs.drop (64 * m)) := by
  induction m generalizing h bs with
  | zero => rw [Nat.zero_add, Nat.mul_zero, List.drop_zero, hashBlocks]
  | succ m ih =>
    rw [Nat.succ_add, hashBlocks, hashBlocks, ih, List.drop_drop]
    congr 2
    omega

/-- A block at the front of a byte string is compressed first. -/
theorem hashBlocks_block_append (n : Nat) (h : HashWords) (B : HashBlock) (bs : List Byte) :
    hashBlocks (n + 1) h (B.toList ++ bs) = hashBlocks n (compress h B) bs := by
  rw [hashBlocks, List.take_left' Vector.length_toList, List.drop_left' Vector.length_toList, copyN_toList]

/-- The last block of `SHA_FINAL`: what the buffer holds before the length, and the length. -/
theorem putLength_zeroRange_toList (buf : HashBlock) {lo : Nat} (hlo : lo ≤ 56) (bits : Dword) :
    (putLength (zeroRange buf lo 56) bits).toList = buf.toList.take lo ++ List.replicate (56 - lo) 0#8 ++ toBe64 bits := by
  have hlen : (buf.toList.take lo ++ List.replicate (56 - lo) 0#8).length = 56 := by simp; omega
  rw [putLength_toList, zeroRange_toList _ hlo (by decide), List.take_left' hlen]

/-- With at most 55 bytes pending the padded tail is one block. -/
theorem HashSlot.paddedTail_of_le (c : HashSlot) (h : c.off.toNat ≤ 55) :
    c.paddedTail = (putLength (zeroRange (c.putByte c.off 0x80#8) (c.off.toNat + 1) 56) c.totalBits).toList := by
  have hzeros : (119 - c.off.toNat) % 64 = 56 - (c.off.toNat + 1) := by omega
  rw [putLength_zeroRange_toList _ (by omega), c.take_putByte, HashSlot.paddedTail, hzeros]

/-- With 56 bytes or more pending the padded tail is two blocks. -/
theorem HashSlot.paddedTail_of_ge (c : HashSlot) (h : 56 ≤ c.off.toNat) :
    c.paddedTail = (zeroRange (c.putByte c.off 0x80#8) (c.off.toNat + 1) 64).toList ++
      (putLength (zeroRange (zeroRange (c.putByte c.off 0x80#8) (c.off.toNat + 1) 64) 0 56) c.totalBits).toList := by
  have hoff := c.off.isLt
  have hzeros : List.replicate ((119 - c.off.toNat) % 64) 0#8 =
      List.replicate (64 - (c.off.toNat + 1)) 0#8 ++ List.replicate 56 0#8 := by
    rw [List.replicate_append_replicate]
    congr 1
    omega
  rw [putLength_zeroRange_toList _ (by decide), zeroRange_toList _ (by omega) (by decide), c.take_putByte,
    HashSlot.paddedTail, hzeros]
  simp

/-- The compressions of `SHA_FINAL` are those of the padded tail of its message, one block or two. -/
theorem HashSlot.finalWords_eq_hashBlocks (c : HashSlot) :
    c.finalWords = hashBlocks (c.paddedTail.length / 64) c.h c.paddedTail := by
  rcases Nat.lt_or_ge c.off.toNat 56 with h | h
  · have htail := c.paddedTail_of_le (by omega)
    have hcount : c.paddedTail.length / 64 = 0 + 1 := by rw [htail, Vector.length_toList]
    rw [hcount, htail, ← List.append_nil (Vector.toList _), hashBlocks_block_append, hashBlocks, HashSlot.finalWords,
      c.padded_of_le (by omega)]
  · have htail := c.paddedTail_of_ge h
    have hcount : c.paddedTail.length / 64 = 1 + 1 := by
      rw [htail, List.length_append, Vector.length_toList, Vector.length_toList]
    rw [hcount, htail, hashBlocks_block_append, ← List.append_nil (Vector.toList (putLength _ _)), hashBlocks_block_append,
      hashBlocks, HashSlot.finalWords, c.padded_of_ge h]

/-- The padded message from its last whole block on is the padded tail of a slot that describes the message. -/
theorem HashSlot.Describes.paddedMessage_eq {c : HashSlot} {m : List Byte} (hc : c.Describes m) :
    paddedMessage m = m.take (64 * (m.length / 64)) ++ c.paddedTail := by
  have hbits : c.totalBits = BitVec.ofNat 64 (8 * m.length) := by
    rw [c.totalBits_eq, hc.bits, hc.off, ← BitVec.ofNat_add]
    congr 1
    omega
  rw [HashSlot.paddedTail, hbits, hc.off, hc.buf, paddedMessage]
  simp only [← List.append_assoc, List.take_append_drop]

/-- The digest of a slot that describes a message is SHA-256 of the message. -/
theorem HashSlot.Describes.digest_eq {c : HashSlot} {m : List Byte} (hc : c.Describes m) : c.digest = sha256 m := by
  have hwhole : (m.take (64 * (m.length / 64))).length = 64 * (m.length / 64) :=
    List.length_take_of_le (Nat.mul_div_le ..)
  have hblocks : (paddedMessage m).length / 64 = m.length / 64 + c.paddedTail.length / 64 := by
    rw [hc.paddedMessage_eq, List.length_append, hwhole]
    omega
  have hfirst : hashBlocks (m.length / 64) hInit (paddedMessage m) = c.h := by
    rw [hc.hash, paddedMessage, List.append_assoc, List.append_assoc, hashBlocks_append _ _ _ _ (Nat.mul_div_le ..)]
  have hrest : (paddedMessage m).drop (64 * (m.length / 64)) = c.paddedTail := by
    rw [hc.paddedMessage_eq, List.drop_left' hwhole]
  rw [HashSlot.digest, sha256, hblocks, hashBlocks_add, hfirst, hrest, c.finalWords_eq_hashBlocks]

/-- Settles O42: before `SHA_FINAL` the slot describes the concatenated chunks. -/
theorem streamedHashIsSha256OfTheMessage : Obligations.StreamedHashIsSha256OfTheMessage := by
  intro s slot chunks rest hslot hchunks hopd
  have hdigest : (HashSlot.initial.update chunks.flatten).digest = sha256 chunks.flatten :=
    (HashSlot.describes_foldl_absorb _).digest_eq
  have hinit := exec_shaInit hslot
  have hslot' := exec_nSha hinit ▸ hslot
  rw [List.append_assoc, List.singleton_append, runCommands_cons hinit,
    runCommands_updates hslot' (State.readSha_of_sha_eq_set hslot rfl) hchunks hopd,
    runCommands_cons (exec_shaFinal (by simpa [State.nSha] using hslot) (State.readSha_of_sha_eq_set hslot' rfl)), hdigest]
  simp [runCommands, List.replicate_succ]

end Sys2Proof.Machine
end

section
/-! PROOF. The statements about the DRBG engine (spec 43_drbg.md): which commands reach the sampler, that every transaction they make
carries the answer the sampler gives at that point, whatever sampler stands at the port, and the four commands. -/

namespace Sys2Proof.Machine

/-! ## Answers of the sampler, transaction by transaction (R141, R142) -/

/-- Transactions are answered one after another: those made later meet the sampler after those made before. -/
theorem answeredBy_append (S : Sampler) (base a b : List RsEvent) :
    answeredBy S base (a ++ b) ↔ answeredBy S base a ∧ answeredBy S (base ++ a) b := by
  induction a generalizing base with
  | nil => simp [answeredBy]
  | cons e a ih => cases e <;> simp [answeredBy, ih, and_assoc]

@[simp] theorem SamplerRecord.after_append_singleton {Sigma : Type} (R : SamplerRecord Sigma) (base : List RsEvent)
    (e : RsEvent) : R.after (base ++ [e]) = R.next (R.after base) e := by
  simp [SamplerRecord.after]

/-- A sampler in the form of R142 answers from its hidden state as its model form answers from the transactions that led there. -/
theorem SamplerRecord.gives_after_iff {Sigma : Type} (R : SamplerRecord Sigma) (base added : List RsEvent) :
    R.gives (R.after base) added ↔ answeredBy R.toSampler base added := by
  induction added generalizing base with
  | nil => rfl
  | cons e added ih =>
    have hnext := ih (base ++ [e])
    rw [R.after_append_singleton] at hnext
    cases e with
    | seed b => exact hnext
    | test pass => exact and_congr_right fun _ => hnext
    | sample b => exact and_congr_right fun _ => hnext

theorem SamplerRecord.gives_init_iff {Sigma : Type} (R : SamplerRecord Sigma) (history : List RsEvent) :
    R.gives R.init history ↔ answeredBy R.toSampler [] history :=
  R.gives_after_iff [] history

/-! ## Operations that are answered faithfully (R141) -/

/-- From `s` to `t` the block has made further transactions, and the sampler `S` answers each RS transaction among them where it is
made. -/
def State.Answered (S : Sampler) (s t : State) : Prop :=
  ∃ made, t.out = s.out ++ made ∧ answeredBy S (rsHistory s.out) (rsHistory made)

section
variable {S : Sampler} {s t u : State}

theorem State.Answered.refl (S : Sampler) (s : State) : s.Answered S s :=
  ⟨[], (List.append_nil _).symm, trivial⟩

theorem State.Answered.trans (hst : s.Answered S t) (htu : t.Answered S u) : s.Answered S u := by
  obtain ⟨a, ha, hansA⟩ := hst
  obtain ⟨b, hb, hansB⟩ := htu
  rw [ha, rsHistory_append] at hansB
  refine ⟨a ++ b, by rw [hb, ha, List.append_assoc], ?_⟩
  rw [rsHistory_append, answeredBy_append]
  exact ⟨hansA, hansB⟩

/-- The answers hold of any list of the transactions that lead from `s` to `t`, since there is only one. -/
theorem State.Answered.of_out (h : s.Answered S t) {made : List PortEvent} (hout : t.out = s.out ++ made) :
    answeredBy S (rsHistory s.out) (rsHistory made) := by
  obtain ⟨made', hout', hans⟩ := h
  rwa [List.append_cancel_left (hout.symm.trans hout')]

theorem State.answered_rsSeed (S : Sampler) (s : State) (b : Byte) : s.Answered S (s.rsSeed b) :=
  ⟨_, rfl, trivial⟩

theorem State.answered_rsTest (S : Sampler) (s : State) : s.Answered S (s.rsTest S).2 :=
  ⟨_, rfl, rfl, trivial⟩

theorem State.answered_rsSample (S : Sampler) (s : State) : s.Answered S (s.rsSample S).2 :=
  ⟨_, rfl, rfl, trivial⟩

theorem State.answered_emit (S : Sampler) (s : State) (bs : List Byte) : s.Answered S (s.emit bs) :=
  ⟨_, rfl, by rw [rsHistory_map_res]; trivial⟩

theorem State.answered_respond (S : Sampler) (s : State) (st : Status) (rlen : Nat) : s.Answered S (s.respond st rlen) :=
  ⟨_, rfl, trivial⟩

theorem State.answered_fold (S : Sampler) (s : State) (x : List Byte) : s.Answered S (s.fold x) := by
  induction x generalizing s with
  | nil => exact .refl S s
  | cons b x ih => exact (s.answered_rsSeed S b).trans (ih _)

theorem seedBody_answered (S : Sampler) (opA opB : List Byte) (s : State) : s.Answered S (seedBody S opA opB s) :=
  (s.answered_fold S opA).trans <| (State.answered_fold S _ opB).trans <|
    (State.answered_rsTest S _).trans (State.answered_respond S ..)

theorem generateLoop_answered (S : Sampler) (n j : Nat) (s : State) : s.Answered S (generateLoop S n j s) := by
  induction n generalizing j s with
  | zero => exact s.answered_respond S ..
  | succ n ih =>
    rw [generateLoop]
    refine (s.answered_rsTest S).trans ?_
    split
    · exact (State.answered_rsSample S _).trans ((State.answered_emit S ..).trans (ih ..))
    · exact State.answered_respond S ..

theorem generateBody_answered (S : Sampler) (lenB : Word) (opA : List Byte) (s : State) :
    s.Answered S (generateBody S lenB opA s) :=
  (s.answered_fold S opA).trans (generateLoop_answered S ..)

/-- What is answered by the model's form of a sampler leaves a history that the sampler gives. -/
theorem State.Answered.gives_init {Sigma : Type} {R : SamplerRecord Sigma} (h : s.Answered R.toSampler t)
    (hs : R.gives R.init (rsHistory s.out)) : R.gives R.init (rsHistory t.out) := by
  obtain ⟨made, hout, hans⟩ := h
  rw [R.gives_init_iff] at hs ⊢
  rw [hout, rsHistory_append, answeredBy_append]
  exact ⟨hs, hans⟩

end

/-- Settles O49: seeding and generation are answered by the sampler in its model form, which is what the sampler itself gives. -/
theorem anySamplerAnswersThroughTheModel : Obligations.AnySamplerAnswersThroughTheModel :=
  fun _ _ s hs => ⟨fun opA opB => (seedBody_answered _ opA opB s).gives_init hs,
    fun lenB opA => (generateBody_answered _ lenB opA s).gives_init hs⟩

/-! ## Which commands reach the sampler (R141, R147) -/

theorem rsHistory_bodyOf {i : Instr} (h : usesSampler i = false) (opA opB : List Byte) (s : State) :
    rsHistory (bodyOf i opA opB s).out = rsHistory s.out := by
  cases i with
  | drbgInit | drbgReseed | drbgGenerate => cases h
  | ctxZero p0 space slot => cases space <;> simp [bodyOf, State.zeroSlot]
  | _ => simp [bodyOf]

/-- Settles O23: a command that does not run its body makes no RS transaction, and the other bodies make none either. -/
theorem onlySeedingAndGenerationUseTheSampler : Obligations.OnlySeedingAndGenerationUseTheSampler := by
  intro i s t h hi
  obtain rfl := exec_next.mp h
  rcases runCommand_cases i (bodyOf i) s with ⟨-, e⟩ | ⟨-, -, e⟩ | ⟨-, -, -, e⟩ | ⟨-, -, -, e⟩ <;> rw [e]
  · simp
  · simp
  · exact rsHistory_bodyOf hi ..

/-! ## Optional data operands (R55, R56) -/

section
variable {present : Bool} {len : Word}

/-- An optional operand that is absent only with length 0 passes the presence check. -/
theorem present_or_length_zero (h : present = false → len = 0#32) : (present || len == 0#32) = true := by
  cases present with
  | false => rw [h rfl]; rfl
  | true => rfl

/-- An optional operand that is absent only with length 0 has its length on OPD. -/
theorem bytesIf_of_absent_length_zero (h : present = false → len = 0#32) : bytesIf present len.toNat = len.toNat := by
  cases present with
  | false => rw [h rfl]; rfl
  | true => rfl

end

/-! ## The four commands (R144 to R147) -/

/-- What seeding sends, with the words of its response written out (R144). -/
theorem seedBody_sent (S : Sampler) (opA opB : List Byte) (s : State) :
    let seeds := (opA ++ opB).map RsEvent.seed
    let pass := S.test (rsHistory s.out ++ seeds)
    seedBody S opA opB s =
      { s with out := s.out ++ seeds.map PortEvent.rs ++ [.rs (.test pass)] ++
          [.rsp (if pass then 0x1#32 else 0x2#32), .rsp 0#32] } := by
  intro seeds pass
  have hseeds : seeds.map PortEvent.rs = (opA ++ opB).map fun b => PortEvent.rs (.seed b) := List.map_map
  have hstatus : (if pass then 0x1#32 else 0x2#32) = responseStatus (if pass then .ok else .failSelftest) := by
    cases pass <;> rfl
  rw [seedBody_eq, hseeds, hstatus, List.append_assoc (_ ++ _) [_]]
  rfl

/-- What generation sends, with the words of its response written out (R146, R149). -/
theorem generateBody_sent (S : Sampler) (lenB : Word) (opA : List Byte) (s : State) :
    ∃ (bytes : List Byte) (made : List PortEvent), bytes.length ≤ lenB.toNat ∧
      made = opA.map (fun b => PortEvent.rs (.seed b)) ++
        bytes.flatMap (fun b => [.rs (.test true), .rs (.sample b), .res b]) ++
        (if bytes.length = lenB.toNat then [.rsp 0x1#32, .rsp lenB]
         else [.rs (.test false), .rsp 0x3#32, .rsp (BitVec.ofNat 32 bytes.length)]) ∧
      generateBody S lenB opA s = { s with out := s.out ++ made } := by
  obtain ⟨bytes, drawn, hlen, hdrawn, hloop⟩ := generateLoop_spec S lenB.toNat 0 (s.fold opA)
  refine ⟨bytes, _, hlen, rfl, ?_⟩
  rw [Nat.zero_add, Nat.zero_add, responseLength, responseLength, BitVec.ofNat_toNat, BitVec.setWidth_eq] at hdrawn
  rw [generateBody, hloop, State.fold_eq, hdrawn, List.append_assoc, List.append_assoc]
  rfl

/-- Settles O45: the sequence is that of the shared body on the two operands offered. -/
theorem drbgInitSeedsThenTests : Obligations.DrbgInitSeedsThenTests := by
  intro s p2 lenA lenB entropy pers rest hA hB habsent hopd seeds pass
  rw [exec_of_operands (i := .drbgInit true true p2 lenA lenB) rfl (present_or_length_zero habsent) hA
    (hB.trans (bytesIf_of_absent_length_zero habsent).symm) hopd]
  exact congrArg _ (seedBody_sent ..)

/-- With its operand bytes offered `DRBG_RESEED` does what `DRBG_INIT` does (R145): a command that waits is all that keeps which of
the two it is. -/
theorem exec_drbgReseed_eq_drbgInit {s : State} {p0 p1 p2 : Bool} {lenA lenB : Word}
    (hn : operandBytes (.drbgInit p0 p1 p2 lenA lenB) ≤ s.opd.length) :
    exec (.drbgReseed p0 p1 p2 lenA lenB) s = exec (.drbgInit p0 p1 p2 lenA lenB) s := by
  rw [exec_eq_runCommand, exec_eq_runCommand]
  cases hp : requiredPresent (.drbgInit p0 p1 p2 lenA lenB) with
  | false =>
    rw [runCommand_absent (i := .drbgInit p0 p1 p2 lenA lenB) _ rfl hn hp,
      runCommand_absent (i := .drbgReseed p0 p1 p2 lenA lenB) _ rfl hn hp]
    rfl
  | true =>
    rw [runCommand_runs (i := .drbgInit p0 p1 p2 lenA lenB) _ rfl hn hp,
      runCommand_runs (i := .drbgReseed p0 p1 p2 lenA lenB) _ rfl hn hp]
    rfl

/-- Settles O46: the second clause is O45 carried over by the first. -/
theorem drbgReseedIsDrbgInit : Obligations.DrbgReseedIsDrbgInit := by
  refine ⟨fun _ _ _ _ _ _ hn => exec_drbgReseed_eq_drbgInit hn, ?_⟩
  intro s p2 lenA lenB entropy add rest hA hB habsent hopd
  have hbytes : operandBytes (.drbgInit true true p2 lenA lenB) = (entropy ++ add).length := by
    rw [List.length_append, hA, hB, ← bytesIf_of_absent_length_zero habsent]
    rfl
  have hn : operandBytes (.drbgInit true true p2 lenA lenB) ≤ s.opd.length := by
    rw [hbytes, hopd, List.length_append (bs := rest)]
    exact Nat.le_add_right ..
  rw [exec_drbgReseed_eq_drbgInit hn]
  exact drbgInitSeedsThenTests s p2 lenA lenB entropy add rest hA hB habsent hopd

/-- Settles O47: what is sent has the form of `generateBody_sent`, and the sampler answers it. -/
theorem drbgGenerateTestsBeforeEachByte : Obligations.DrbgGenerateTestsBeforeEachByte := by
  intro s p1 lenA lenB add rest hA habsent hopd
  obtain ⟨bytes, made, hlen, hmade, hrun⟩ := generateBody_sent Config.sampler lenB add { s with opd := rest }
  have hanswered := (generateBody_answered Config.sampler lenB add { s with opd := rest }).of_out (congrArg State.out hrun)
  refine ⟨bytes, made, hlen, hmade, hanswered, ?_⟩
  rw [exec_of_operands (i := .drbgGenerate true p1 true lenA lenB) (opB := []) (rest := rest) rfl
    (present_or_length_zero habsent) (hA.trans (bytesIf_of_absent_length_zero habsent).symm) rfl
    (by rw [hopd, List.append_nil])]
  exact congrArg _ hrun

/-- Settles O48: the command takes no operand bytes and its body only answers. -/
theorem drbgUninstDoesNothing : Obligations.DrbgUninstDoesNothing :=
  fun _ => exec_only_answers rfl rfl rfl rfl

end Sys2Proof.Machine
end

section
/-! PROOF. The statement about `CTX_ZERO` (spec 44_context_access.md). -/

namespace Sys2Proof.Machine

/-- `CTX_ZERO` (R161) takes no operand bytes: it zeroes the slot named, in either space, and answers. -/
theorem exec_ctxZero {s : State} {space : Space} {slot : BitVec 8} (hslot : slot.toNat < slotCount s.nKs s.nSha space) :
    exec (.ctxZero true space slot) s = .next ((s.zeroSlot slot space).respond .ok 0) :=
  exec_of_operands (i := .ctxZero true space slot) (opA := []) (opB := []) (rest := s.opd) (decide_eq_true hslot)
    rfl rfl rfl rfl

/-- Settles O51: zeroing a slot writes the zero schedule or the zero hash slot over it. -/
theorem ctxZeroZeroesTheWholeSlot : Obligations.CtxZeroZeroesTheWholeSlot :=
  fun _ _ => ⟨fun hslot => exec_ctxZero (space := .keySched) hslot, fun hslot => exec_ctxZero (space := .hash) hslot⟩

end Sys2Proof.Machine
end

section
/-! PROOF. The statements about failures (spec 60_exceptions.md): the answer to an absent operand, which command each failure of
the sampler belongs to, and what a failure leaves unchanged. -/

namespace Sys2Proof.Machine

/-! ## Commands that lack an operand (R171) -/

/-- A legal command that lacks an operand discards its operand bytes and answers. -/
theorem exec_absent {i : Instr} {s : State} (hlegal : i.wellFormed s.nKs s.nSha = true) (hp : requiredPresent i = false)
    (hn : operandBytes i ≤ s.opd.length) :
    exec i s = .next { s with opd := s.opd.drop (operandBytes i), out := s.out ++ [.rsp 0x0#32, .rsp 0#32] } :=
  exec_next.mpr (runCommand_absent _ hlegal hn hp)

section
variable {a b c : Bool} {len : Word}

theorem and_and_eq_false (h : a = false ∨ b = false ∨ c = false) : (a && b && c) = false := by
  simpa only [Bool.and_eq_false_iff, or_assoc] using h

/-- An optional operand that is absent with a length other than 0 does not pass the presence check. -/
theorem not_present_or_length_zero (h : c = false ∧ len ≠ 0#32) : (c || len == 0#32) = false :=
  Bool.or_eq_false_iff.mpr ⟨h.1, beq_false_of_ne h.2⟩

end

/-- `CTX_READ` of a slot that exists, of a run that stays inside its image, is legal (R57 conditions 6 and 8). -/
theorem ctxRead_wellFormed {nKs nSha : Nat} {p0 : Bool} {space : Space} {slot : BitVec 8} {lenA lenB : Word}
    (hslot : slot.toNat < slotCount nKs nSha space) (hrun : lenA.toNat + lenB.toNat ≤ imageSize space) :
    (Instr.ctxRead p0 space slot lenA lenB).wellFormed nKs nSha = true :=
  Bool.and_eq_true_iff.mpr ⟨decide_eq_true hslot, decide_eq_true hrun⟩

/-- Settles O12: each clause is `exec_absent` at one command, its operands read off `requiredPresent` and `operandBytes`. -/
theorem absentOperandFailsWithoutEffect : Obligations.AbsentOperandFailsWithoutEffect := by
  intro s p0 p1 p2 slot lenA lenB
  dsimp only
  refine ⟨fun hslot hp hn => ?setKey, fun hslot hp hn => ?block, fun hslot => ?shaInit, fun hslot hp hn => ?shaUpdate,
    fun hslot hp => ?shaFinal, fun hp hn => ?seed, fun hp hn => ?generate, ?uninst, fun hslot hrun => ?readKs,
    fun hslot hrun => ?readSha, fun hslot => ?zeroKs, fun hslot => ?zeroSha,
    fun i hlegal hp hn => exec_absent hlegal hp hn⟩
  case setKey =>
    have hp' : (p0 && p1) = false := Bool.and_eq_false_iff.mpr hp
    exact ⟨exec_absent (i := .aesSetEncKey p0 p1 slot) (decide_eq_true hslot) hp' hn,
      exec_absent (i := .aesSetDecKey p0 p1 slot) (decide_eq_true hslot) hp' hn⟩
  case block =>
    have hp' : (p0 && p1 && p2) = false := and_and_eq_false hp
    exact ⟨exec_absent (i := .aesEncBlock p0 p1 p2 slot) (decide_eq_true hslot) hp' hn,
      exec_absent (i := .aesDecBlock p0 p1 p2 slot) (decide_eq_true hslot) hp' hn⟩
  case shaInit => exact exec_absent (i := .shaInit false slot) (decide_eq_true hslot) rfl (Nat.zero_le _)
  case shaUpdate =>
    exact exec_absent (i := .shaUpdate p0 p1 slot lenA) (decide_eq_true hslot) (Bool.and_eq_false_iff.mpr hp) hn
  case shaFinal =>
    exact exec_absent (i := .shaFinal p0 p1 slot) (decide_eq_true hslot) (Bool.and_eq_false_iff.mpr hp) (Nat.zero_le _)
  case seed =>
    have hp' : (p0 && p1 && (p2 || lenB == 0#32)) = false :=
      and_and_eq_false (hp.imp_right (Or.imp_right not_present_or_length_zero))
    exact ⟨exec_absent (i := .drbgInit p0 p1 p2 lenA lenB) rfl hp' hn,
      exec_absent (i := .drbgReseed p0 p1 p2 lenA lenB) rfl hp' hn⟩
  case generate =>
    have hp' : (p0 && p2 && (p1 || lenA == 0#32)) = false :=
      and_and_eq_false (hp.imp_right (Or.imp_right not_present_or_length_zero))
    exact exec_absent (i := .drbgGenerate p0 p1 p2 lenA lenB) rfl hp' hn
  case uninst => exact exec_absent (i := .drbgUninst false) rfl rfl (Nat.zero_le _)
  case readKs => exact exec_absent (ctxRead_wellFormed (space := .keySched) hslot hrun) rfl (Nat.zero_le _)
  case readSha => exact exec_absent (ctxRead_wellFormed (space := .hash) hslot hrun) rfl (Nat.zero_le _)
  case zeroKs => exact exec_absent (i := .ctxZero false .keySched slot) (decide_eq_true hslot) rfl (Nat.zero_le _)
  case zeroSha => exact exec_absent (i := .ctxZero false .hash slot) (decide_eq_true hslot) rfl (Nat.zero_le _)

/-! ## The status a command answers (R170) -/

theorem responseStatus_injective : Function.Injective responseStatus := by
  intro a b h
  cases a <;> cases b <;> revert h <;> decide

/-- The failures a command can answer (R170): illegal and absent are any command's, the failures of the sampler are the seeding
commands' and generation's. -/
def MayFailWith (i : Instr) : Status → Prop
  | .ok => False
  | .failAbsent | .illegal => True
  | .failSelftest => i.mnemonic = "DRBG_INIT" ∨ i.mnemonic = "DRBG_RESEED"
  | .failGenerate => i.mnemonic = "DRBG_GENERATE"

/-- Seeding (R144, R173) answers `ST_OK` or, having only sent, `ST_FAIL_SELFTEST`. -/
theorem seedBody_response_cases (S : Sampler) (opA opB : List Byte) (s : State) :
    (∃ (u : State) (n : Nat), seedBody S opA opB s = u.respond .ok n) ∨
    ∃ out n, seedBody S opA opB s = { s with out := out }.respond .failSelftest n := by
  simp only [seedBody, State.fold_eq]
  split
  · exact .inl ⟨_, 0, rfl⟩
  · exact .inr ⟨_, 0, rfl⟩

/-- The loop of generation answers `ST_OK` at its end or, having only sent, `ST_FAIL_GENERATE` at a failing test. -/
theorem generateLoop_response_cases (S : Sampler) (n j : Nat) (s : State) :
    (∃ (u : State) (rlen : Nat), generateLoop S n j s = u.respond .ok rlen) ∨
    ∃ out rlen, generateLoop S n j s = { s with out := out }.respond .failGenerate rlen := by
  induction n generalizing j s with
  | zero => exact .inl ⟨s, j, rfl⟩
  | succ n ih =>
    rw [generateLoop]
    split
    · exact ih ..
    · exact .inr ⟨_, j, rfl⟩

/-- Generation (R146, R172) answers `ST_OK` or, having only sent, `ST_FAIL_GENERATE`. -/
theorem generateBody_response_cases (S : Sampler) (lenB : Word) (opA : List Byte) (s : State) :
    (∃ (u : State) (n : Nat), generateBody S lenB opA s = u.respond .ok n) ∨
    ∃ out n, generateBody S lenB opA s = { s with out := out }.respond .failGenerate n := by
  rw [generateBody, State.fold_eq]
  exact generateLoop_response_cases ..

/-- All a command's body can answer: `ST_OK`, or, having only sent, a failure of its own. -/
theorem bodyOf_response_cases (i : Instr) (opA opB : List Byte) (s : State) :
    (∃ (u : State) (n : Nat), bodyOf i opA opB s = u.respond .ok n) ∨
    ∃ st out n, MayFailWith i st ∧ bodyOf i opA opB s = { s with out := out }.respond st n := by
  cases i with
  | drbgInit =>
    exact (seedBody_response_cases ..).imp_right fun ⟨out, n, h⟩ => ⟨.failSelftest, out, n, .inl rfl, h⟩
  | drbgReseed =>
    exact (seedBody_response_cases ..).imp_right fun ⟨out, n, h⟩ => ⟨.failSelftest, out, n, .inr rfl, h⟩
  | drbgGenerate =>
    exact (generateBody_response_cases ..).imp_right fun ⟨out, n, h⟩ => ⟨.failGenerate, out, n, rfl, h⟩
  | _ => exact .inl ⟨_, _, rfl⟩

/-- All a command can do: send nothing and wait (R199), answer `ST_OK`, or answer a failure, having only sent and taken operand
bytes (R176). -/
theorem exec_response_cases {i : Instr} {s t : State} (h : exec i s = .next t) :
    t.out = s.out ∨ (∃ (u : State) (n : Nat), t = u.respond .ok n) ∨
    ∃ st opd out n, MayFailWith i st ∧ t = { s with opd := opd, out := out }.respond st n := by
  obtain rfl := exec_next.mp h
  rcases runCommand_cases i (bodyOf i) s with ⟨-, e⟩ | ⟨-, -, e⟩ | ⟨-, -, -, e⟩ | ⟨-, -, -, e⟩ <;> rw [e]
  · exact .inr (.inr ⟨.illegal, _, _, _, trivial, rfl⟩)
  · exact .inl rfl
  · exact .inr (.inr ⟨.failAbsent, _, _, _, trivial, rfl⟩)
  · exact .inr ((bodyOf_response_cases ..).imp_right fun ⟨st, out, n, hst, h⟩ => ⟨st, _, out, n, hst, h⟩)

/-- The status a state ends with is the one answered. -/
theorem State.status_of_respond {u : State} {st : Status} {n : Nat} {before : List PortEvent} {r0 r1 : Word}
    (h : (u.respond st n).out = before ++ [.rsp r0, .rsp r1]) : r0 = responseStatus st := by
  obtain ⟨-, hwords⟩ := List.append_inj' h rfl
  exact (PortEvent.rsp.inj (List.cons.inj hwords).1).symm

/-- A command that answers a status other than `ST_OK` answers one of its own failures, having only sent and taken operand bytes. -/
theorem exec_failure {i : Instr} {s t : State} {made : List PortEvent} {r0 r1 : Word} (h : exec i s = .next t)
    (hout : t.out = s.out ++ made ++ [.rsp r0, .rsp r1]) (hr : r0 ≠ 0x1#32) :
    ∃ st opd out, r0 = responseStatus st ∧ MayFailWith i st ∧ t = { s with opd := opd, out := out } := by
  rcases exec_response_cases h with hsilent | ⟨u, n, rfl⟩ | ⟨st, opd, out, n, hst, rfl⟩
  · simp [hsilent] at hout
  · exact absurd (State.status_of_respond hout) hr
  · exact ⟨st, opd, _, State.status_of_respond hout, hst, rfl⟩

/-- Settles O19: a status of the sampler is a failure of the command that answers it, and `MayFailWith` says of which. -/
theorem samplerFailuresBelongToTheDrbg : Obligations.SamplerFailuresBelongToTheDrbg := by
  intro i s t made r0 r1 h hout
  refine ⟨fun hinit hreseed hr => ?_, fun hgenerate hr => ?_⟩
  · obtain ⟨st, -, -, hstatus, hmay, -⟩ := exec_failure h hout (by rw [hr]; decide)
    obtain rfl : Status.failSelftest = st := responseStatus_injective (hr.symm.trans hstatus)
    exact hmay.elim hinit hreseed
  · obtain ⟨st, -, -, hstatus, hmay, -⟩ := exec_failure h hout (by rw [hr]; decide)
    obtain rfl : Status.failGenerate = st := responseStatus_injective (hr.symm.trans hstatus)
    exact hgenerate hmay

/-- Settles O20: a failure changes OPD and the transactions made, and nothing else. -/
theorem failureLeavesTheBlockUnchanged : Obligations.FailureLeavesTheBlockUnchanged := by
  intro i s t made r0 r1 h hout hr
  obtain ⟨st, opd, out, -, -, rfl⟩ := exec_failure h hout hr
  exact ⟨rfl, rfl, rfl, rfl, rfl, rfl⟩

end Sys2Proof.Machine
end

section
/-! PROOF. The statements about reset and about what a command depends on (spec 70_reset_and_hazards.md): the block while `rst` is
asserted, a reset that falls inside a command, and two runs of one command from states that differ elsewhere. -/

namespace Sys2Proof.Machine

/-! ## The block while `rst` is asserted (R190 to R192) -/

/-- Every field of the hash slot that reset leaves is 0 (R24). -/
theorem HashSlot.zero_fields : (∀ n : Fin 8, HashSlot.zero.h[n] = 0#32) ∧ (∀ n : Fin 64, HashSlot.zero.buf[n] = 0#8) ∧
    HashSlot.zero.off = 0#6 ∧ HashSlot.zero.bits = 0#64 :=
  ⟨fun _ => Vector.getElem_replicate .., fun _ => Vector.getElem_replicate .., rfl, rfl⟩

/-- Settles O7: the step is the reset state, whose slots are copies of the two zero slots. -/
theorem resetInputZeroesEverySlot : Obligations.ResetInputZeroesEverySlot := by
  intro s hr
  have hstep : step s = .next s.toReset := by rw [step, hr]
  refine ⟨s.toReset, hstep, s.nKs_toReset, s.nSha_toReset, fun k hk n => ?_, fun c hc => ?_, rfl, rfl, rfl, rfl⟩
  · rw [List.eq_of_mem_replicate hk]
    exact zeroSched_getElem n.val n.isLt
  · rw [List.eq_of_mem_replicate hc]
    exact HashSlot.zero_fields

/-! ## A reset inside a command (R191) -/

theorem stepRunning_slotCounts {s t : State} (h : stepRunning s = .next t) : t.nKs = s.nKs ∧ t.nSha = s.nSha := by
  rcases fetch_cases s with ⟨q, c, -, e⟩ | ⟨c, e⟩ | ⟨i, c, o, e⟩ | ⟨rest, -, e⟩ <;>
    simp only [stepRunning, e, Host.Outcome.next.injEq] at h
  · subst h
    exact ⟨rfl, rfl⟩
  · subst h
    exact ⟨rfl, rfl⟩
  · have hks := exec_nKs h
    have hsha := exec_nSha h
    exact ⟨hks, hsha⟩
  · subst h
    exact ⟨rfl, rfl⟩

/-- A running step from a well-formed sequencer sends nothing, or what a sequencer may wait to send. -/
theorem stepRunning_sends_wellFormed {s t : State} (hs : s.seq.wellFormed s.nKs s.nSha) (h : stepRunning s = .next t) :
    ∃ made, t.out = s.out ++ made ∧ (made = [] ∨ (Seq.sending made).wellFormed s.nKs s.nSha) := by
  rcases fetch_cases s with ⟨q, c, -, e⟩ | ⟨c, e⟩ | ⟨i, c, o, e⟩ | ⟨rest, hrest, e⟩ <;>
    simp only [stepRunning, e, Host.Outcome.next.injEq] at h
  · subst h
    exact ⟨[], (List.append_nil _).symm, .inl rfl⟩
  · subst h
    exact ⟨_, rfl, .inr ((endsInResponse_response ..).sending_wellFormed ..)⟩
  · rcases exec_ports_cases h with ⟨-, -, -, hout⟩ | ⟨-, made, hmade, hout⟩
    · exact ⟨[], by rw [hout, List.append_nil], .inl rfl⟩
    · exact ⟨made, hout, .inr (hmade.sending_wellFormed ..)⟩
  · subst h
    exact ⟨rest, rfl, .inr (hrest ▸ hs)⟩

/-- What a sequencer may wait to send holds at most one response word before its last transaction. -/
theorem Seq.countP_isResponse_dropLast {nKs nSha : Nat} {made : List PortEvent}
    (h : (Seq.sending made).wellFormed nKs nSha) : made.dropLast.countP PortEvent.isResponse ≤ 1 := by
  rcases h with ⟨r1, rfl⟩ | ⟨before, r0, r1, rfl, hbefore⟩
  · exact Nat.zero_le _
  · have hnone : before.countP PortEvent.isResponse = 0 := List.countP_eq_zero.mpr fun e he => by simp [hbefore e he]
    rw [List.dropLast_append_cons, List.countP_append, hnone]
    exact Nat.le_refl 1

/-- Transactions cut off before the last of what a step sends hold no complete response. -/
theorem countP_isResponse_take {nKs nSha n : Nat} {made : List PortEvent}
    (h : made = [] ∨ (Seq.sending made).wellFormed nKs nSha) (hn : n ≤ made.length - 1) :
    (made.take n).countP PortEvent.isResponse ≤ 1 := by
  rcases h with rfl | h
  · simp
  · have hprefix : made.take n <+: made.dropLast := by
      rw [List.dropLast_eq_take]
      exact List.take_prefix_take_left hn
    exact (hprefix.sublist.countP_le).trans (Seq.countP_isResponse_dropLast h)

/-- A step cut off earlier has made the first of the transactions it makes when it is cut off later. -/
theorem State.deliver_out_prefix (s t : State) {m n : Nat} (h : m ≤ n) :
    (s.deliver t m).out <+: (s.deliver t n).out := by
  rw [State.deliver_out, State.deliver_out, List.prefix_append_right_inj]
  exact List.take_prefix_take_left h

/-- The step of a state with `rst` low instead is the running step as far as the receivers let it. -/
theorem step_withLow {s t : State} (h : stepRunning s = .next t) :
    step { s with rst := .low } =
      .next { s.deliver t (passed s.takes (t.out.drop s.out.length)) with rst := .low } :=
  step_low (s := s.withInputs .low s.takes) rfl (stepRunning_withInputs .low s.takes h)

/-- Settles O8: both steps are the same running step, and `State.meetPorts_after` says where the count cuts it off. -/
theorem resetAbandonsTheRunningCommand : Obligations.ResetAbandonsTheRunningCommand := by
  intro s v n hr hlow hwf words bytes sent
  obtain ⟨t, ht⟩ := stepRunning_next s
  obtain ⟨hks, hsha⟩ := stepRunning_slotCounts ht
  obtain ⟨made, hout, hmade⟩ := stepRunning_sends_wellFormed hwf ht
  have hdrop : t.out.drop s.out.length = made := by rw [hout, List.drop_left]
  have hmadeOut (m : Nat) : (s.deliver t m).out = s.out ++ made.take m := by rw [State.deliver_out, hdrop]
  have hle : passed s.takes made ≤ made.length := passed_le s.takes made
  obtain rfl := Host.Outcome.next.inj ((step_withLow ht).symm.trans hlow)
  have hsent : sent = passed s.takes made := by
    simp [sent, hdrop, Nat.min_eq_left hle]
  have hstep : step s = .next (s.meetPorts t) := by simp [step, hr, ht]
  have hcases := State.meetPorts_after t hr
  rw [hdrop, ← hsent] at hcases
  rcases hcases with ⟨hn, e⟩ | ⟨hn, e⟩
  · refine ⟨fun _ => ?_, fun h => absurd hn (Nat.not_lt.mpr h)⟩
    have hlast : n - (words + bytes) ≤ made.length - 1 := by omega
    refine ⟨_, made.take (n - (words + bytes)), hstep.trans (congrArg _ e), rfl, rfl, ?_, ?_, ?_,
      countP_isResponse_take hmade hlast, ?_, ?_, rfl, rfl⟩
    · exact hmadeOut _
    · rw [List.length_take, Nat.min_eq_left (by omega)]
    · exact State.deliver_out_prefix s t (by rw [hdrop, ← hsent]; omega)
    · exact congrArg (List.replicate · zeroSched) hks
    · exact congrArg (List.replicate · HashSlot.zero) hsha
  · refine ⟨fun h => absurd h (Nat.not_lt.mpr hn), fun _ => ?_⟩
    rw [hstep, e, hdrop, ← hsent]
    rfl

/-! ## Two runs of one command (R204) -/

/-- Writing one value at one place of two lists of the same length keeps them equal where they were equal. -/
theorem getD_set_congr {α : Type} {l l' : List α} {k : Nat} {d : α} (hlen : l.length = l'.length)
    (h : l.getD k d = l'.getD k d) (n : Nat) (v : α) : (l.set n v).getD k d = (l'.set n v).getD k d := by
  simp only [List.getD_eq_getElem?_getD, List.getElem?_set, hlen] at h ⊢
  split_ifs
  · rfl
  · rfl
  · exact h

/-- Two runs of the command `i`, begun where the transactions `base` and `base'` had been made, stand at states that the command
cannot tell apart: the same slot counts, operand bytes and contents of the slot it names, the same transactions since, and the
same RS history before. -/
structure Alike (i : Instr) (base base' : List PortEvent) (s s' : State) : Prop where
  nKs : s.nKs = s'.nKs
  nSha : s.nSha = s'.nSha
  opd : s.opd = s'.opd
  readKs : ∀ slot, namedKs i = some slot → s.readKs slot = s'.readKs slot
  readSha : ∀ slot, namedSha i = some slot → s.readSha slot = s'.readSha slot
  before : rsHistory base = rsHistory base'
  since : ∃ made, s.out = base ++ made ∧ s'.out = base' ++ made

section
variable {i : Instr} {base base' : List PortEvent} {s s' : State}

/-- The sampler meets both runs with the same RS history, so it answers them alike (log 3). -/
theorem Alike.history (h : Alike i base base' s s') : rsHistory s.out = rsHistory s'.out := by
  obtain ⟨made, hs, hs'⟩ := h.since
  rw [hs, hs', rsHistory_append, rsHistory_append, h.before]

/-- Sending the same in both runs: a response, result bytes or an RS transaction. -/
theorem Alike.send (h : Alike i base base' s s') (sent : List PortEvent) :
    Alike i base base' { s with out := s.out ++ sent } { s' with out := s'.out ++ sent } := by
  obtain ⟨made, hs, hs'⟩ := h.since
  exact { h with since := ⟨made ++ sent, by simp only [hs, List.append_assoc], by simp only [hs', List.append_assoc]⟩ }

theorem Alike.takeOperands (h : Alike i base base' s s') (q q' : Seq) (opd : List Byte) :
    Alike i base base' { s with seq := q, opd := opd } { s' with seq := q', opd := opd } :=
  { h with opd := rfl }

theorem Alike.writeKs (h : Alike i base base' s s') (slot : BitVec 8) (v : KeySched) :
    Alike i base base' (s.writeKs slot v) (s'.writeKs slot v) :=
  { h with
    nKs := by rw [State.nKs_writeKs, State.nKs_writeKs, h.nKs]
    readKs := fun other hother => getD_set_congr h.nKs (h.readKs other hother) .. }

theorem Alike.writeSha (h : Alike i base base' s s') (slot : BitVec 8) (v : HashSlot) :
    Alike i base base' (s.writeSha slot v) (s'.writeSha slot v) :=
  { h with
    nSha := by rw [State.nSha_writeSha, State.nSha_writeSha, h.nSha]
    readSha := fun other hother => getD_set_congr h.nSha (h.readSha other hother) .. }

theorem Alike.rsTest (S : Sampler) (h : Alike i base base' s s') :
    Alike i base base' (s.rsTest S).2 (s'.rsTest S).2 := by
  rw [State.rsTest, State.rsTest, h.history]
  exact h.send _

theorem Alike.rsSample (S : Sampler) (h : Alike i base base' s s') :
    Alike i base base' (s.rsSample S).2 (s'.rsSample S).2 := by
  rw [State.rsSample, State.rsSample, h.history]
  exact h.send _

/-- Both runs of seeding meet the same test answer (R144). -/
theorem seedBody_alike (S : Sampler) (opA opB : List Byte) (h : Alike i base base' s s') :
    Alike i base base' (seedBody S opA opB s) (seedBody S opA opB s') := by
  rw [seedBody_eq, seedBody_eq, h.history, List.append_assoc, List.append_assoc]
  exact h.send _

/-- One turn of generation after a passing test (R146): a byte drawn and emitted, and the turns left. -/
theorem generateLoop_pass {S : Sampler} {n j : Nat} {s : State} (h : S.test (rsHistory s.out) = true) :
    generateLoop S (n + 1) j s = generateLoop S n (j + 1)
      (((s.rsTest S).2.rsSample S).2.emit [((s.rsTest S).2.rsSample S).1]) :=
  if_pos h

/-- A failing test ends generation (R146). -/
theorem generateLoop_fail {S : Sampler} {n j : Nat} {s : State} (h : S.test (rsHistory s.out) = false) :
    generateLoop S (n + 1) j s = (s.rsTest S).2.respond .failGenerate j :=
  if_neg (Bool.eq_false_iff.mp h)

/-- Both runs of generation meet the same answers, turn by turn (R146). -/
theorem generateLoop_alike (S : Sampler) (n j : Nat) (h : Alike i base base' s s') :
    Alike i base base' (generateLoop S n j s) (generateLoop S n j s') := by
  induction n generalizing j s s' with
  | zero => exact h.send _
  | succ n ih =>
    have htest := h.rsTest S
    have hdraw := htest.rsSample S
    cases hpass : S.test (rsHistory s.out) with
    | false =>
      rw [generateLoop_fail hpass, generateLoop_fail (h.history ▸ hpass)]
      exact htest.send _
    | true =>
      rw [generateLoop_pass hpass, generateLoop_pass (h.history ▸ hpass), State.rsSample_fst, htest.history]
      exact ih (j + 1) (hdraw.send _)

/-- A run of the image of the slot named is the same in both runs (R160). -/
theorem Alike.ctxBytes_eq {p0 : Bool} {space : Space} {slot : BitVec 8} {lenA lenB : Word}
    (h : Alike (.ctxRead p0 space slot lenA lenB) base base' s s') (off n : Nat) :
    s.ctxBytes space slot off n = s'.ctxBytes space slot off n := by
  cases space with
  | keySched => rw [State.ctxBytes, State.ctxBytes, State.image, State.image, h.readKs slot rfl]
  | hash => rw [State.ctxBytes, State.ctxBytes, State.image, State.image, h.readSha slot rfl]

/-- The body of a command keeps two runs alike: what it reads is its operand bytes, the slot it names and the sampler's answers. -/
theorem bodyOf_alike (opA opB : List Byte) (h : Alike i base base' s s') :
    Alike i base base' (bodyOf i opA opB s) (bodyOf i opA opB s') := by
  cases i with
  | aesSetEncKey | aesSetDecKey => exact (h.writeKs ..).send _
  | aesEncBlock p0 p1 p2 slot | aesDecBlock p0 p1 p2 slot =>
    simp only [bodyOf, h.readKs slot rfl]
    exact (h.send _).send _
  | shaInit => exact (h.writeSha ..).send _
  | shaUpdate p0 p1 slot lenA =>
    simp only [bodyOf, h.readSha slot rfl]
    exact (h.writeSha ..).send _
  | shaFinal p0 p1 slot =>
    simp only [bodyOf, h.readSha slot rfl]
    exact ((h.send _).writeSha ..).send _
  | drbgInit | drbgReseed => exact seedBody_alike _ _ _ h
  | drbgGenerate p0 p1 p2 lenA lenB =>
    simp only [bodyOf, generateBody, State.fold_eq]
    exact generateLoop_alike _ _ _ (h.send _)
  | drbgUninst => exact h.send _
  | ctxRead p0 space slot lenA lenB =>
    simp only [bodyOf, h.ctxBytes_eq]
    exact (h.send _).send _
  | ctxZero p0 space slot =>
    cases space with
    | keySched => exact (h.writeKs ..).send _
    | hash => exact (h.writeSha ..).send _

/-- The course of a command keeps two runs alike: both take the same branch of it. -/
theorem runCommand_alike (h : Alike i base base' s s') :
    Alike i base base' (runCommand i (bodyOf i) s) (runCommand i (bodyOf i) s') := by
  rcases runCommand_cases i (bodyOf i) s with ⟨hL, e⟩ | ⟨hL, hn, e⟩ | ⟨hL, hn, hp, e⟩ | ⟨hL, hn, hp, e⟩ <;>
    rw [e] <;> rw [h.nKs, h.nSha] at hL
  · rw [runCommand_illegal _ hL]
    exact h.send _
  all_goals rw [h.opd] at hn ⊢
  · rw [runCommand_waits _ hL hn]
    exact h.takeOperands ..
  · rw [runCommand_absent _ hL hn hp]
    exact (h.takeOperands ..).send _
  · rw [runCommand_runs _ hL hn hp]
    exact bodyOf_alike _ _ (h.takeOperands s.seq s'.seq _)

end

/-- Settles O24: the two states are alike to the command before it runs, so they are after it. -/
theorem resultDependsOnlyOnTheNamedSlot : Obligations.ResultDependsOnlyOnTheNamedSlot := by
  intro i s s' hnKs hnSha hopd hhistory hks hsha
  have hstart : Alike i s.out s'.out s s' :=
    ⟨hnKs, hnSha, hopd, hks, hsha, hhistory, [], (List.append_nil _).symm, (List.append_nil _).symm⟩
  have hend := runCommand_alike hstart
  obtain ⟨made, hout, hout'⟩ := hend.since
  exact ⟨_, _, made, exec_eq_runCommand i s, exec_eq_runCommand i s', hout, hout', hend.opd, hend.readKs, hend.readSha⟩

end Sys2Proof.Machine
end
